-- ==== Sys2Proof/Word.lean ====
section
/-! DEFINITION. The word types of the mc680x0 and their names (R10, R11 of 00_scope.md): every value is an
unsigned bit vector of a stated width. The source calls 16 bits a word and 32 bits a long word. -/

namespace Sys2Proof

/-- A byte, "B Byte (8bits)" (R10). -/
abbrev Byte := BitVec 8

/-- A word of 16 bits, "W Word (16bits)" (R10): also one instruction word (R90). -/
abbrev Word16 := BitVec 16

/-- A long word, "L Long (32bits)" (R10): a register's contents, an address. -/
abbrev Long := BitVec 32

end Sys2Proof
end

