-- ==== Sys2Proof/Config.lean ====
section
/-! DEFINITION. What an implementation or a launch fixes, and the free values.
The implementation parameters of R8 (00_scope.md) are one record, `Params`, that a state carries: the spec leaves
several of them open "per program" and gives others a default with named alternatives (92_eei_decisions.md, Notes on the
parameters). No step changes them, but that the reset procedure starts from `VECTOR_BASE` 0 (R351). The free values (R15,
`draw_N()`) are opaque constants: nothing can evaluate them. -/

namespace Sys2Proof

/-- `ADDR_BITS`: the number of address bits that select a memory byte (R8, R52): 24 for MC68000 and MC68010, 32 for
MC68020 and later. -/
inductive AddrBits where
  | a24
  | a32
deriving DecidableEq, Repr

/-- The number of bits an `ADDR_BITS` value stands for (R52). -/
def AddrBits.count : AddrBits → Nat
  | .a24 => 24
  | .a32 => 32

/-- `TRAP_MODEL`: what `raise` does (R301, R310). -/
inductive TrapModel where
  | fault
  | vectored
deriving DecidableEq, Repr

/-- `FRAME_FORMAT` of a vectored trap (R310, R312): 6 bytes on the MC68000, a format word more on the MC68010
and later, and on the MC68020 and later a 12-byte frame for CHK, zero divide and trace. -/
inductive FrameFormat where
  | mc68000
  | formatWord
  | mc68020
deriving DecidableEq, Repr

/-- `INTERRUPTS` (R320, R321). -/
inductive Interrupts where
  | none
  | external
deriving DecidableEq, Repr

/-- `RESET_MODEL`: how a run starts (R350, R351): from a state its caller supplies, or by the hardware's reset. -/
inductive ResetModel where
  | launchState
  | vectorFetch
deriving DecidableEq, Repr

/-- `ASR_FILL`: the bit shifted into the top by ASR (R176). -/
inductive AsrFill where
  | sign
  | zero
deriving DecidableEq, Repr

/-- `SHIFT_IMM0`: the meaning of count field 000 in an immediate shift (R103, R171). -/
inductive ShiftImm0 where
  | eight
  | zero
  | refuse
deriving DecidableEq, Repr

/-- `ADDA_CCR`: whether ADDA, and ADDQ to an address register, change the flags (R143, R145). -/
inductive AddaCcr where
  | unaffected
  | perSource
  | draw
deriving DecidableEq, Repr

/-- `BCD_INVALID`: ABCD on a nibble greater than 9 (R130). -/
inductive BcdInvalid where
  | refuse
  | draw
deriving DecidableEq, Repr

/-- A brief extension word whose bits 10:8 are not 000 (R96): refused by the spec, ignored by the MC68000. -/
inductive BriefBits where
  | refuse
  | ignore
deriving DecidableEq, Repr

/-- A branch with `d8 = 0xFF` (R217): the displacement -1 on the baseline, refused by a model safe for every member. -/
inductive BranchFF where
  | baseline
  | refuse
deriving DecidableEq, Repr

/-- A range of physical byte addresses. -/
structure Region where
  base : Nat
  size : Nat
deriving DecidableEq, Repr

/-- The implementation parameters of R8, with the platform's `mapped` (R58), `CODE_REGION` (R84), `HALT_ADDR` (R355)
and what a byte that nothing has written holds (R40, R350: no value, or a byte). -/
structure Params where
  addrBits    : AddrBits
  mapped      : List Region
  codeRegion  : List Region
  haltAddr    : Option Long
  memFill     : Option Byte
  trapModel   : TrapModel
  frameFormat : FrameFormat
  vectorBase  : Long
  interrupts  : Interrupts
  resetModel  : ResetModel
  asrFill     : AsrFill
  shiftImm0   : ShiftImm0
  addaCcr     : AddaCcr
  xzSticky    : Bool
  bcdInvalid  : BcdInvalid
  briefBits   : BriefBits
  branchFF    : BranchFF
deriving DecidableEq, Repr

/-- The defaults of R8 and of 92_eei_decisions.md where the spec states one; where it leaves the parameter open the
launch gives it, here: 32 address bits, the whole space mapped, no program region, no halt address. -/
def Params.specDefault : Params where
  addrBits    := .a32
  mapped      := [⟨0, 2 ^ 32⟩]
  codeRegion  := []
  haltAddr    := none
  memFill     := none
  trapModel   := .fault
  frameFormat := .mc68000
  vectorBase  := 0
  interrupts  := .none
  resetModel  := .launchState
  asrFill     := .sign
  shiftImm0   := .eight
  addaCcr     := .unaffected
  xzSticky    := true
  bcdInvalid  := .refuse
  briefBits   := .refuse
  branchFF    := .refuse

/-- The parameters of an MC68000, the baseline of R3, as the spec describes that member: 24 address bits (R52),
vectored exceptions with the 6-byte frame (R310), extension-word bits 10:8 ignored (R96), `d8 = 0xFF` the displacement
-1 (R217). DESIGN CHOICE (log 1, 4 to 7, 10, 11, 13 to 15): the spec's default is another value where it says so. -/
def Params.mc68000 : Params where
  addrBits    := .a24
  mapped      := [⟨0, 2 ^ 32⟩]
  codeRegion  := []
  haltAddr    := none
  memFill     := some 0
  trapModel   := .vectored
  frameFormat := .mc68000
  vectorBase  := 0
  interrupts  := .none
  resetModel  := .vectorFetch
  asrFill     := .sign
  shiftImm0   := .eight
  addaCcr     := .unaffected
  xzSticky    := true
  bcdInvalid  := .draw
  briefBits   := .ignore
  branchFF    := .baseline

/-- `draw_1()` (R15): the free bit number `k` of a run. -/
opaque Config.freeBit : Nat → Bool

/-- `draw_8()` (R15): the free byte number `k` of a run. -/
opaque Config.freeByte : Nat → Byte

end Sys2Proof
end

