-- ==== Sys2Proof/Syntax.lean ====
section
/-! DEFINITION. The syntax of the instructions of pages A to E: one constructor of `Instr` per row of
spec/opcode_table.json, with its operands as data. Quantities that the encoding holds in raw form (a count field, an
immediate's extension words, bits an instruction ignores) are kept raw, so that no bit of an encoding is dropped. -/

namespace Sys2Proof

/-- An operand size (R10). -/
inductive Size where
  | b
  | w
  | l
deriving DecidableEq, Repr

/-- `bits(sz)` (R10). -/
abbrev Size.bits : Size → Nat
  | .b => 8
  | .w => 16
  | .l => 32

/-- `bytes(sz)` (R10). -/
abbrev Size.bytes : Size → Nat
  | .b => 1
  | .w => 2
  | .l => 4

/-- A register number, a 3-bit field (R92). -/
abbrev RegNum := Fin 8

/-- The 16 conditions of DBcc (R107); Bcc has all but `t` and `f`. -/
inductive Cond where
  | t | f | hi | ls | cc | cs | ne | eq | vc | vs | pl | mi | ge | lt | gt | le
deriving DecidableEq, Repr

/-- The brief extension word of the indexed modes (R96). -/
structure BriefExt where
  /-- bit 15, D/A: the index register is an address register -/
  isAddr : Bool
  /-- bits 14:12 -/
  reg    : RegNum
  /-- bit 11, W/L: the whole register is the index -/
  isLong : Bool
  /-- bits 10:8, 000 on the baseline -/
  scale  : BitVec 3
  /-- bits 7:0 -/
  d8     : BitVec 8
deriving DecidableEq, Repr

/-- The addressing modes of R62, in the order of its table. -/
inductive EAKind where
  | dn | an | ind | postinc | predec | disp | index | absW | absL | pcDisp | pcIndex | imm
deriving DecidableEq, Repr

/-- An effective-address operand `<ea>` with its extension words (R62). An immediate holds its extension word (sizes
B, W: the low 16 bits) or words (size L) unchanged. -/
inductive EA where
  | dn (n : RegNum)
  | an (n : RegNum)
  | ind (n : RegNum)
  | postinc (n : RegNum)
  | predec (n : RegNum)
  | disp (n : RegNum) (d16 : BitVec 16)
  | index (n : RegNum) (x : BriefExt)
  | absW (addr : BitVec 16)
  | absL (addr : Long)
  | pcDisp (d16 : BitVec 16)
  | pcIndex (x : BriefExt)
  | imm (raw : Long)
deriving DecidableEq, Repr

/-- The displacement of Bcc, BRA, BSR (R105): the byte of the operation word, or the word that follows it. -/
inductive Disp where
  | byte (d8 : BitVec 8)
  | word (d16 : BitVec 16)
deriving DecidableEq, Repr

/-- One constructor per row of spec/opcode_table.json, in the table's order; operands in the assembler's order,
source first (R123), for the two-register forms `Ry` then `Rx` (R101). -/
inductive Instr where
  | abcdReg (y x : RegNum)
  | abcdMem (y x : RegNum)
  | addEaDn (sz : Size) (ea : EA) (n : RegNum)
  | addDnEa (sz : Size) (n : RegNum) (ea : EA)
  | addaW (ea : EA) (n : RegNum)
  | addaL (ea : EA) (n : RegNum)
  | addi (sz : Size) (imm : Long) (ea : EA)
  | addq (sz : Size) (data : Fin 8) (ea : EA)
  | addxReg (sz : Size) (y x : RegNum)
  | addxMem (sz : Size) (y x : RegNum)
  | andEaDn (sz : Size) (ea : EA) (n : RegNum)
  | andDnEa (sz : Size) (n : RegNum) (ea : EA)
  | andi (sz : Size) (imm : Long) (ea : EA)
  | andiToSr (imm : BitVec 16)
  | aslImm (sz : Size) (count : Fin 8) (d : RegNum)
  | aslReg (sz : Size) (n d : RegNum)
  | aslMem (ea : EA)
  | asrImm (sz : Size) (count : Fin 8) (d : RegNum)
  | asrReg (sz : Size) (n d : RegNum)
  | asrMem (ea : EA)
  | btstDyn (n : RegNum) (ea : EA)
  | btstStatic (bit : BitVec 16) (ea : EA)
  | bchgDyn (n : RegNum) (ea : EA)
  | bchgStatic (bit : BitVec 16) (ea : EA)
  | bclrDyn (n : RegNum) (ea : EA)
  | bclrStatic (bit : BitVec 16) (ea : EA)
  | bsetDyn (n : RegNum) (ea : EA)
  | bsetStatic (bit : BitVec 16) (ea : EA)
  | bra (d : Disp)
  | bsr (d : Disp)
  | bhi (d : Disp)
  | bls (d : Disp)
  | bcc (d : Disp)
  | bcs (d : Disp)
  | bne (d : Disp)
  | beq (d : Disp)
  | bvc (d : Disp)
  | bvs (d : Disp)
  | bpl (d : Disp)
  | bmi (d : Disp)
  | bge (d : Disp)
  | blt (d : Disp)
  | bgt (d : Disp)
  | ble (d : Disp)
  | chk (ea : EA) (n : RegNum)
  | clr (sz : Size) (ea : EA)
  | cmp (sz : Size) (ea : EA) (n : RegNum)
  | cmpaW (ea : EA) (n : RegNum)
  | cmpaL (ea : EA) (n : RegNum)
  | cmpi (sz : Size) (imm : Long) (ea : EA)
  | cmpm (sz : Size) (y x : RegNum)
  | dbt (n : RegNum) (d16 : BitVec 16)
  | dbf (n : RegNum) (d16 : BitVec 16)
  | dbhi (n : RegNum) (d16 : BitVec 16)
  | dbls (n : RegNum) (d16 : BitVec 16)
  | dbcc (n : RegNum) (d16 : BitVec 16)
  | dbcs (n : RegNum) (d16 : BitVec 16)
  | dbne (n : RegNum) (d16 : BitVec 16)
  | dbeq (n : RegNum) (d16 : BitVec 16)
  | dbvc (n : RegNum) (d16 : BitVec 16)
  | dbvs (n : RegNum) (d16 : BitVec 16)
  | dbpl (n : RegNum) (d16 : BitVec 16)
  | dbmi (n : RegNum) (d16 : BitVec 16)
  | dbge (n : RegNum) (d16 : BitVec 16)
  | dblt (n : RegNum) (d16 : BitVec 16)
  | dbgt (n : RegNum) (d16 : BitVec 16)
  | dble (n : RegNum) (d16 : BitVec 16)
  | divu (ea : EA) (n : RegNum)
  | divs (ea : EA) (n : RegNum)
  | eor (sz : Size) (n : RegNum) (ea : EA)
  | eori (sz : Size) (imm : Long) (ea : EA)
  | eoriToSr (imm : BitVec 16)
  | exgDd (x y : RegNum)
  | exgAa (x y : RegNum)
  | exgDa (x y : RegNum)
  | extW (n : RegNum)
  | extL (n : RegNum)
deriving DecidableEq, Repr

end Sys2Proof
end

