-- ==== Sys2Proof/WellFormed.lean ====
section
/-! DEFINITION. Which terms of `Instr` are instructions: the mode categories of R63 and the acceptance table of R64
(20_memory.md), the size limits of R100, and the ranges of the raw fields (R97, R105). -/

namespace Sys2Proof

/-- The mode of an operand (R62). -/
def EA.kind : EA → EAKind
  | .dn _ => .dn
  | .an _ => .an
  | .ind _ => .ind
  | .postinc _ => .postinc
  | .predec _ => .predec
  | .disp _ _ => .disp
  | .index _ _ => .index
  | .absW _ => .absW
  | .absL _ => .absL
  | .pcDisp _ => .pcDisp
  | .pcIndex _ => .pcIndex
  | .imm _ => .imm

/-- Category "data": all except `An` (R63). -/
def EAKind.isData : EAKind → Bool
  | .an => false
  | _ => true

/-- Category "alterable": not PC-relative, not immediate (R63). -/
def EAKind.isAlterable : EAKind → Bool
  | .pcDisp | .pcIndex | .imm => false
  | _ => true

/-- Category "data alterable" (R63). -/
def EAKind.isDataAlterable (k : EAKind) : Bool := k.isData && k.isAlterable

/-- Category "memory alterable": alterable except `Dn` and `An` (R63). -/
def EAKind.isMemAlterable : EAKind → Bool
  | .dn | .an => false
  | k => k.isAlterable

/-- The operand is a memory location: neither a register nor an immediate (R62). -/
def EAKind.isMem : EAKind → Bool
  | .dn | .an | .imm => false
  | _ => true

/-- `An` is a directly named operand only with size W or L (R64, R100). -/
def EAKind.fitsSize (k : EAKind) (sz : Size) : Bool := !(k == .an && sz == .b)

/-- Sizes B and W have one immediate word (R97): the high half of the raw field is not used. -/
def immFits (sz : Size) (raw : Long) : Bool := sz == .l || raw.toNat < 2 ^ 16

/-- The operand's own immediate words fit its size (R74). -/
def EA.rawFits (sz : Size) : EA → Bool
  | .imm raw => immFits sz raw
  | _ => true

/-- A byte displacement is not 0, which announces the word form (R105). -/
def Disp.wf : Disp → Bool
  | .byte d8 => d8 != 0
  | .word _ => true

/-- The operand is of a category and its raw words fit its size (R64, R74). -/
def EA.ok (cat : EAKind → Bool) (sz : Size) (ea : EA) : Bool := cat ea.kind && ea.rawFits sz

/-- The terms that are instructions: R64's table, row by row. -/
def Instr.wf : Instr → Bool
  | .addEaDn sz ea _ | .cmp sz ea _ => ea.ok (·.fitsSize sz) sz
  | .addDnEa sz _ ea | .andDnEa sz _ ea => ea.ok (·.isMemAlterable) sz
  | .addaW ea _ | .cmpaW ea _ => ea.ok (fun _ => true) .w
  | .addaL ea _ | .cmpaL ea _ => ea.ok (fun _ => true) .l
  | .addi sz imm ea | .andi sz imm ea | .cmpi sz imm ea | .eori sz imm ea =>
      immFits sz imm && ea.ok (·.isDataAlterable) sz
  | .addq sz _ ea => ea.ok (fun k => k.isAlterable && k.fitsSize sz) sz
  | .andEaDn sz ea _ => ea.ok (·.isData) sz
  | .aslMem ea | .asrMem ea => ea.ok (·.isMemAlterable) .w
  | .btstDyn _ ea => ea.ok (·.isData) .b
  | .btstStatic _ ea => ea.ok (fun k => k.isData && k != .imm) .b
  | .bchgDyn _ ea | .bclrDyn _ ea | .bsetDyn _ ea => ea.ok (·.isDataAlterable) .b
  | .bchgStatic _ ea | .bclrStatic _ ea | .bsetStatic _ ea => ea.ok (·.isDataAlterable) .b
  | .chk ea _ | .divu ea _ | .divs ea _ => ea.ok (·.isData) .w
  | .clr sz ea => ea.ok (·.isDataAlterable) sz
  | .eor sz _ ea => ea.ok (·.isDataAlterable) sz
  | .bra d | .bsr d | .bhi d | .bls d | .bcc d | .bcs d | .bne d | .beq d | .bvc d | .bvs d | .bpl d | .bmi d
  | .bge d | .blt d | .bgt d | .ble d => d.wf
  | .abcdReg _ _ | .abcdMem _ _ | .addxReg _ _ _ | .addxMem _ _ _ | .andiToSr _ | .eoriToSr _
  | .aslImm _ _ _ | .aslReg _ _ _ | .asrImm _ _ _ | .asrReg _ _ _ | .cmpm _ _ _
  | .dbt _ _ | .dbf _ _ | .dbhi _ _ | .dbls _ _ | .dbcc _ _ | .dbcs _ _ | .dbne _ _ | .dbeq _ _
  | .dbvc _ _ | .dbvs _ _ | .dbpl _ _ | .dbmi _ _ | .dbge _ _ | .dblt _ _ | .dbgt _ _ | .dble _ _
  | .exgDd _ _ | .exgAa _ _ | .exgDa _ _ | .extW _ | .extL _ => true

end Sys2Proof
end

