-- ==== Sys2Proof/Decode.lean ====
section
/-! DEFINITION. The encoding of 30_encoding.md: operation words (R106 to R117), extension words (R95 to R97, R104,
R105), words outside the table (R118 to R120), the decoder (R122), total on any words, and the encoder beside it. -/

namespace Sys2Proof

/-- Why an operation word is no instruction of the table. -/
inductive DecodeError where
  /-- an encoding the family defines as illegal (R119) -/
  | illegalInstruction
  /-- bits 15:12 are 1010 (R120) -/
  | lineA
  /-- bits 15:12 are 1111 (R120) -/
  | lineF
  /-- an encoding of which the spec says nothing (R118) -/
  | notInSpec
  /-- the words given end inside the instruction -/
  | truncated
deriving DecidableEq, Repr

/-! ## Fields of the operation word (R92 to R94) -/

/-- Bits 15:12, the line (section 5 of 30_encoding.md). -/
def opLine (w : Word16) : Nat := w.toNat / 4096

/-- The 3-bit field of an operation word whose lowest bit is `lo` (R92, R94, R98). -/
def opField (w : Word16) (lo : Nat) : Fin 8 := Fin.ofNat 8 (w.toNat / 2 ^ lo)

/-- An operation word from its line and its fields at bits 11:9, 8:6, 5:3 and 2:0 (R106). -/
def opWord (line : Nat) (r o m x : Fin 8) : Word16 :=
  BitVec.ofNat 16 (line * 4096 + r.val * 512 + o.val * 64 + m.val * 8 + x.val)

/-- The size field `ss` (R93); 11 is never a size. -/
def sizeField (ss : Nat) : Option Size :=
  match ss with
  | 0 => some .b
  | 1 => some .w
  | 2 => some .l
  | _ => none

/-- The size's code in a size field (R93). -/
def Size.code : Size → Nat
  | .b => 0
  | .w => 1
  | .l => 2

/-- The field at bits 8:6 of a size with bit 8 clear (R93, R98). -/
def Size.low (sz : Size) : Fin 8 := Fin.ofNat 8 sz.code

/-- The field at bits 8:6 of a size with bit 8 set (R98). -/
def Size.high (sz : Size) : Fin 8 := Fin.ofNat 8 (sz.code + 4)

/-! ## Extension words -/

/-- The next instruction word. -/
def takeWord : List Word16 → Except DecodeError (Word16 × List Word16)
  | [] => .error .truncated
  | w :: ws => .ok (w, ws)

/-- Two instruction words, high word first (R72, R74). -/
def takeLong : List Word16 → Except DecodeError (Long × List Word16)
  | hi :: lo :: ws => .ok (BitVec.ofNat 32 (hi.toNat * 65536 + lo.toNat), ws)
  | _ => .error .truncated

/-- The words of an immediate of the given size, raw: one for B and W, two for L (R74, R97). -/
def takeImm (sz : Size) (ws : List Word16) : Except DecodeError (Long × List Word16) :=
  match sz with
  | .l => takeLong ws
  | _ =>
    match takeWord ws with
    | .ok (w, ws) => .ok (BitVec.ofNat 32 w.toNat, ws)
    | .error e => .error e

/-- The two words of a long word, high word first (R72, R74). -/
def longWords (v : Long) : List Word16 := [BitVec.ofNat 16 (v.toNat / 65536), BitVec.ofNat 16 v.toNat]

/-- The immediate's words (R74, R97). -/
def immWords (sz : Size) (raw : Long) : List Word16 :=
  match sz with
  | .l => longWords raw
  | _ => [BitVec.ofNat 16 raw.toNat]

/-- The brief extension word (R96). -/
def decodeBrief (w : Word16) : BriefExt where
  isAddr := w.toNat / 32768 == 1
  reg    := Fin.ofNat 8 (w.toNat / 4096)
  isLong := w.toNat / 2048 % 2 == 1
  scale  := BitVec.ofNat 3 (w.toNat / 256)
  d8     := BitVec.ofNat 8 w.toNat

/-- The brief extension word (R96). -/
def encodeBrief (x : BriefExt) : Word16 :=
  BitVec.ofNat 16 (x.isAddr.toNat * 32768 + x.reg.val * 4096 + x.isLong.toNat * 2048 + x.scale.toNat * 256 + x.d8.toNat)

/-! ## Effective addresses (R62, R94) -/

/-- The mode of an effective-address field; `none` for `mode = 111` with `reg` 101, 110, 111 (R62). -/
def decodeKind (m x : Fin 8) : Option EAKind :=
  match m.val with
  | 0 => some .dn
  | 1 => some .an
  | 2 => some .ind
  | 3 => some .postinc
  | 4 => some .predec
  | 5 => some .disp
  | 6 => some .index
  | _ =>
    match x.val with
    | 0 => some .absW
    | 1 => some .absL
    | 2 => some .pcDisp
    | 3 => some .pcIndex
    | 4 => some .imm
    | _ => none

/-- An operand of a given mode with the extension words that belong to it (R62, R95). -/
def decodeOperand (k : EAKind) (sz : Size) (x : RegNum) (ws : List Word16) : Except DecodeError (EA × List Word16) :=
  match k with
  | .dn => .ok (.dn x, ws)
  | .an => .ok (.an x, ws)
  | .ind => .ok (.ind x, ws)
  | .postinc => .ok (.postinc x, ws)
  | .predec => .ok (.predec x, ws)
  | .disp => (takeWord ws).map fun (w, ws) => (.disp x w, ws)
  | .index => (takeWord ws).map fun (w, ws) => (.index x (decodeBrief w), ws)
  | .absW => (takeWord ws).map fun (w, ws) => (.absW w, ws)
  | .absL => (takeLong ws).map fun (v, ws) => (.absL v, ws)
  | .pcDisp => (takeWord ws).map fun (w, ws) => (.pcDisp w, ws)
  | .pcIndex => (takeWord ws).map fun (w, ws) => (.pcIndex (decodeBrief w), ws)
  | .imm => (takeImm sz ws).map fun (v, ws) => (.imm v, ws)

/-- A mode outside the category is illegal where no other instruction takes the pattern (R119). -/
def eaIllegal : EAKind → DecodeError := fun _ => .illegalInstruction

/-- The same, but a register mode is another instruction's pattern (MOVEP, the shifts and rotates, R110, R117) and so
not in this spec (R118). -/
def eaOutside : EAKind → DecodeError
  | .dn | .an => .notInSpec
  | _ => .illegalInstruction

/-- The `<ea>` operand of an instruction that accepts the modes `cat` (R64); `bad` says what a mode outside is (R118,
R119). -/
def decodeEA (cat : EAKind → Bool) (bad : EAKind → DecodeError) (sz : Size) (m x : Fin 8) (ws : List Word16) :
    Except DecodeError (EA × List Word16) :=
  match decodeKind m x with
  | none => .error .illegalInstruction
  | some k => if cat k then decodeOperand k sz x ws else .error (bad k)

/-- The mode half of an effective-address field (R62). -/
def EA.mode : EA → Fin 8
  | .dn _ => 0
  | .an _ => 1
  | .ind _ => 2
  | .postinc _ => 3
  | .predec _ => 4
  | .disp _ _ => 5
  | .index _ _ => 6
  | _ => 7

/-- The register half of an effective-address field (R62). -/
def EA.reg : EA → Fin 8
  | .dn n | .an n | .ind n | .postinc n | .predec n | .disp n _ | .index n _ => n
  | .absW _ => 0
  | .absL _ => 1
  | .pcDisp _ => 2
  | .pcIndex _ => 3
  | .imm _ => 4

/-- The extension words of an operand (R62). -/
def EA.ext (sz : Size) : EA → List Word16
  | .dn _ | .an _ | .ind _ | .postinc _ | .predec _ => []
  | .disp _ d | .pcDisp d => [d]
  | .index _ x | .pcIndex x => [encodeBrief x]
  | .absW a => [a]
  | .absL a => longWords a
  | .imm raw => immWords sz raw

/-- The number of an immediate's words (R91, R97). -/
def Size.immCount : Size → Nat
  | .l => 2
  | _ => 1

/-- The number of extension words of an operand (R62). -/
def EA.extCount (sz : Size) : EA → Nat
  | .dn _ | .an _ | .ind _ | .postinc _ | .predec _ => 0
  | .disp _ _ | .pcDisp _ | .index _ _ | .pcIndex _ | .absW _ => 1
  | .absL _ => 2
  | .imm _ => sz.immCount

/-! ## The opcode map, line by line (R110 to R117) -/

/-- The decoder's answer: the instruction and the words that follow it. -/
abbrev Decoded := Except DecodeError (Instr × List Word16)

/-- An instruction with one `<ea>` operand and no words of its own. -/
def withEA (cat : EAKind → Bool) (bad : EAKind → DecodeError) (sz : Size) (m x : Fin 8) (mk : EA → Instr)
    (ws : List Word16) : Decoded :=
  (decodeEA cat bad sz m x ws).map fun (ea, ws) => (mk ea, ws)

/-- ADDI, ANDI, CMPI, EORI: the mode is checked, then the immediate's words are read, then the `<ea>`'s (R95). -/
def withImmEA (bad : EAKind → DecodeError) (sz : Size) (m x : Fin 8) (mk : Long → EA → Instr) (ws : List Word16) :
    Decoded :=
  match decodeKind m x with
  | none => .error .illegalInstruction
  | some k =>
    if k.isDataAlterable then
      match takeImm sz ws with
      | .ok (v, ws) => (decodeOperand k sz x ws).map fun (ea, ws) => (mk v ea, ws)
      | .error e => .error e
    else .error (bad k)

/-- A static bit instruction: the mode is checked, then the bit-number word is read, then the `<ea>`'s (R95, R104). -/
def withBitEA (cat : EAKind → Bool) (m x : Fin 8) (mk : BitVec 16 → EA → Instr) (ws : List Word16) : Decoded :=
  match decodeKind m x with
  | none => .error .illegalInstruction
  | some k =>
    if cat k then
      match takeWord ws with
      | .ok (b, ws) => (decodeOperand k .b x ws).map fun (ea, ws) => (mk b ea, ws)
      | .error e => .error e
    else .error (eaOutside k)

/-- One of ADDI, ANDI, CMPI, EORI by the size field; size 11 is another instruction (R93, R110). -/
def decodeImmediate (bad : Size → EAKind → DecodeError) (o m x : Fin 8) (mk : Size → Long → EA → Instr)
    (ws : List Word16) : Decoded :=
  match sizeField o.val with
  | none => .error .notInSpec
  | some sz => withImmEA (bad sz) sz m x (mk sz) ws

/-- The immediate mode as destination of ANDI.B and EORI.B is ANDI and EORI to CCR, not in this spec (R110, R119). -/
def immToCcr (sz : Size) : EAKind → DecodeError
  | .imm => if sz = .b then .notInSpec else .illegalInstruction
  | _ => .illegalInstruction

/-- Line 0000 (R110). -/
def decodeLine0 (r o m x : Fin 8) (ws : List Word16) : Decoded :=
  if o.val < 4 then
    match r.val with
    | 1 =>
      if o.val = 1 ∧ m.val = 7 ∧ x.val = 4 then (takeWord ws).map fun (w, ws) => (.andiToSr w, ws)
      else decodeImmediate immToCcr o m x .andi ws
    | 3 => decodeImmediate (fun _ => eaIllegal) o m x .addi ws
    | 4 =>
      match o.val with
      | 0 => withBitEA (fun k => k.isData && k != .imm) m x .btstStatic ws
      | 1 => withBitEA (·.isDataAlterable) m x .bchgStatic ws
      | 2 => withBitEA (·.isDataAlterable) m x .bclrStatic ws
      | _ => withBitEA (·.isDataAlterable) m x .bsetStatic ws
    | 5 =>
      if o.val = 1 ∧ m.val = 7 ∧ x.val = 4 then (takeWord ws).map fun (w, ws) => (.eoriToSr w, ws)
      else decodeImmediate immToCcr o m x .eori ws
    | 6 => decodeImmediate (fun _ => eaIllegal) o m x .cmpi ws
    | _ => .error .notInSpec
  else
    match o.val with
    | 4 => withEA (·.isData) eaOutside .b m x (.btstDyn r) ws
    | 5 => withEA (·.isDataAlterable) eaOutside .b m x (.bchgDyn r) ws
    | 6 => withEA (·.isDataAlterable) eaOutside .b m x (.bclrDyn r) ws
    | _ => withEA (·.isDataAlterable) eaOutside .b m x (.bsetDyn r) ws

/-- Line 0100 (R111), with the designated illegal word 0x4AFC (R119). -/
def decodeLine4 (r o m x : Fin 8) (ws : List Word16) : Decoded :=
  if o.val = 6 then withEA (·.isData) eaIllegal .w m x (.chk · r) ws
  else
    match r.val with
    | 1 =>
      match sizeField o.val with
      | some sz => withEA (·.isDataAlterable) eaIllegal sz m x (.clr sz) ws
      | none => .error .notInSpec
    | 4 =>
      if m.val = 0 then
        match o.val with
        | 2 => .ok (.extW x, ws)
        | 3 => .ok (.extL x, ws)
        | _ => .error .notInSpec
      else .error .notInSpec
    | 5 => if o.val = 3 ∧ m.val = 7 ∧ x.val = 4 then .error .illegalInstruction else .error .notInSpec
    | _ => .error .notInSpec

/-- DBcc by its condition field (R107). -/
def dbccOf (c : Nat) (n : RegNum) (d16 : BitVec 16) : Instr :=
  match c with
  | 0 => .dbt n d16
  | 1 => .dbf n d16
  | 2 => .dbhi n d16
  | 3 => .dbls n d16
  | 4 => .dbcc n d16
  | 5 => .dbcs n d16
  | 6 => .dbne n d16
  | 7 => .dbeq n d16
  | 8 => .dbvc n d16
  | 9 => .dbvs n d16
  | 10 => .dbpl n d16
  | 11 => .dbmi n d16
  | 12 => .dbge n d16
  | 13 => .dblt n d16
  | 14 => .dbgt n d16
  | _ => .dble n d16

/-- Line 0101 (R112). -/
def decodeLine5 (r o m x : Fin 8) (ws : List Word16) : Decoded :=
  match sizeField (o.val % 4) with
  | none =>
    if m.val = 1 then (takeWord ws).map fun (d, ws) => (dbccOf (r.val * 2 + o.val / 4) x d, ws)
    else .error .notInSpec
  | some sz =>
    if o.val < 4 then withEA (fun k => k.isAlterable && k.fitsSize sz) eaIllegal sz m x (.addq sz r) ws
    else .error .notInSpec

/-- BRA, BSR and Bcc by the condition field (R107). -/
def branchOf (c : Nat) (d : Disp) : Instr :=
  match c with
  | 0 => .bra d
  | 1 => .bsr d
  | 2 => .bhi d
  | 3 => .bls d
  | 4 => .bcc d
  | 5 => .bcs d
  | 6 => .bne d
  | 7 => .beq d
  | 8 => .bvc d
  | 9 => .bvs d
  | 10 => .bpl d
  | 11 => .bmi d
  | 12 => .bge d
  | 13 => .blt d
  | 14 => .bgt d
  | _ => .ble d

/-- Line 0110 (R113): a displacement byte of 0 announces a displacement word (R105). -/
def decodeLine6 (w : Word16) (ws : List Word16) : Decoded :=
  let d8 : BitVec 8 := BitVec.ofNat 8 w.toNat
  if d8 = 0 then (takeWord ws).map fun (d, ws) => (branchOf (w.toNat / 256 % 16) (.word d), ws)
  else .ok (branchOf (w.toNat / 256 % 16) (.byte d8), ws)

/-- Line 1000 (R114). -/
def decodeLine8 (r o m x : Fin 8) (ws : List Word16) : Decoded :=
  match o.val with
  | 3 => withEA (·.isData) eaIllegal .w m x (.divu · r) ws
  | 7 => withEA (·.isData) eaIllegal .w m x (.divs · r) ws
  | _ => .error .notInSpec

/-- Line 1011 (R115). -/
def decodeLineB (r o m x : Fin 8) (ws : List Word16) : Decoded :=
  match sizeField (o.val % 4) with
  | none =>
    if o.val < 4 then withEA (fun _ => true) eaIllegal .w m x (.cmpaW · r) ws
    else withEA (fun _ => true) eaIllegal .l m x (.cmpaL · r) ws
  | some sz =>
    if o.val < 4 then withEA (·.fitsSize sz) eaIllegal sz m x (.cmp sz · r) ws
    else if m.val = 1 then .ok (.cmpm sz x r, ws)
    else withEA (·.isDataAlterable) eaIllegal sz m x (.eor sz r) ws

/-- Line 1100 (R116): ABCD and EXG live where AND `Dn,<ea>` would name a register. -/
def decodeLineC (r o m x : Fin 8) (ws : List Word16) : Decoded :=
  match sizeField (o.val % 4) with
  | none => .error .notInSpec
  | some sz =>
    if o.val < 4 then withEA (·.isData) eaIllegal sz m x (.andEaDn sz · r) ws
    else
      match o.val, m.val with
      | 4, 0 => .ok (.abcdReg x r, ws)
      | 4, 1 => .ok (.abcdMem x r, ws)
      | 5, 0 => .ok (.exgDd r x, ws)
      | 5, 1 => .ok (.exgAa r x, ws)
      | 6, 0 => .error .notInSpec
      | 6, 1 => .ok (.exgDa r x, ws)
      | _, _ => withEA (·.isMemAlterable) eaIllegal sz m x (.andDnEa sz r) ws

/-- Line 1101 (R117). -/
def decodeLineD (r o m x : Fin 8) (ws : List Word16) : Decoded :=
  match sizeField (o.val % 4) with
  | none =>
    if o.val < 4 then withEA (fun _ => true) eaIllegal .w m x (.addaW · r) ws
    else withEA (fun _ => true) eaIllegal .l m x (.addaL · r) ws
  | some sz =>
    if o.val < 4 then withEA (·.fitsSize sz) eaIllegal sz m x (.addEaDn sz · r) ws
    else
      match m.val with
      | 0 => .ok (.addxReg sz x r, ws)
      | 1 => .ok (.addxMem sz x r, ws)
      | _ => withEA (·.isMemAlterable) eaIllegal sz m x (.addDnEa sz r) ws

/-- Line 1110 (R117): bits 4:3 of a register shift and bits 11:9 of a memory shift are 0 for ASL and ASR. -/
def decodeLineE (r o m x : Fin 8) (ws : List Word16) : Decoded :=
  match sizeField (o.val % 4) with
  | none =>
    if r.val = 0 then
      if o.val < 4 then withEA (·.isMemAlterable) eaOutside .w m x .asrMem ws
      else withEA (·.isMemAlterable) eaOutside .w m x .aslMem ws
    else .error .notInSpec
  | some sz =>
    match m.val with
    | 0 => .ok (if o.val < 4 then .asrImm sz r x else .aslImm sz r x, ws)
    | 4 => .ok (if o.val < 4 then .asrReg sz r x else .aslReg sz r x, ws)
    | _ => .error .notInSpec

/-- One instruction from its operation word and the words after it (R122). -/
def decodeOp (w : Word16) (ws : List Word16) : Decoded :=
  match opLine w with
  | 0 => decodeLine0 (opField w 9) (opField w 6) (opField w 3) (opField w 0) ws
  | 4 => decodeLine4 (opField w 9) (opField w 6) (opField w 3) (opField w 0) ws
  | 5 => decodeLine5 (opField w 9) (opField w 6) (opField w 3) (opField w 0) ws
  | 6 => decodeLine6 w ws
  | 8 => decodeLine8 (opField w 9) (opField w 6) (opField w 3) (opField w 0) ws
  | 10 => .error .lineA
  | 11 => decodeLineB (opField w 9) (opField w 6) (opField w 3) (opField w 0) ws
  | 12 => decodeLineC (opField w 9) (opField w 6) (opField w 3) (opField w 0) ws
  | 13 => decodeLineD (opField w 9) (opField w 6) (opField w 3) (opField w 0) ws
  | 14 => decodeLineE (opField w 9) (opField w 6) (opField w 3) (opField w 0) ws
  | 15 => .error .lineF
  | _ => .error .notInSpec

/-- The decoder over instruction words. -/
def decodeWords : List Word16 → Decoded
  | [] => .error .truncated
  | w :: ws => decodeOp w ws

/-- Big-endian words of a byte sequence (R54, R90); an odd byte at the end is no word. -/
def pairWords : List Byte → List Word16
  | hi :: lo :: bs => BitVec.ofNat 16 (hi.toNat * 256 + lo.toNat) :: pairWords bs
  | _ => []

/-! ## The encoder -/

/-- The two bytes of a word, most significant first (R54). -/
def wordBytes (w : Word16) : List Byte := [BitVec.ofNat 8 (w.toNat / 256), BitVec.ofNat 8 w.toNat]

/-- A condition's code (R107). -/
def Cond.code : Cond → Nat
  | .t => 0 | .f => 1 | .hi => 2 | .ls => 3 | .cc => 4 | .cs => 5 | .ne => 6 | .eq => 7
  | .vc => 8 | .vs => 9 | .pl => 10 | .mi => 11 | .ge => 12 | .lt => 13 | .gt => 14 | .le => 15

/-- Format `BRANCH` (R106, R105). -/
def encodeBranch (c : Nat) : Disp → List Word16
  | .byte d8 => [BitVec.ofNat 16 (6 * 4096 + c * 256 + d8.toNat)]
  | .word d16 => [BitVec.ofNat 16 (6 * 4096 + c * 256), d16]

/-- Format `DBCC` (R106): `0101 cccc 11001 rrr` and the displacement word. -/
def encodeDbcc (c : Nat) (n : RegNum) (d16 : BitVec 16) : List Word16 :=
  [opWord 5 (Fin.ofNat 8 (c / 2)) (Fin.ofNat 8 (c % 2 * 4 + 3)) 1 n, d16]

/-- An operation word with an effective-address field, the instruction's own words, then the operand's (R95). -/
def encodeEA (line : Nat) (r o : Fin 8) (own : List Word16) (sz : Size) (ea : EA) : List Word16 :=
  opWord line r o ea.mode ea.reg :: (own ++ ea.ext sz)

/-- The words of an instruction (R106, R110 to R117). -/
def Instr.encode : Instr → List Word16
  | .abcdReg y x => [opWord 12 x 4 0 y]
  | .abcdMem y x => [opWord 12 x 4 1 y]
  | .addEaDn sz ea n => encodeEA 13 n sz.low [] sz ea
  | .addDnEa sz n ea => encodeEA 13 n sz.high [] sz ea
  | .addaW ea n => encodeEA 13 n 3 [] .w ea
  | .addaL ea n => encodeEA 13 n 7 [] .l ea
  | .addi sz imm ea => encodeEA 0 3 sz.low (immWords sz imm) sz ea
  | .addq sz data ea => encodeEA 5 data sz.low [] sz ea
  | .addxReg sz y x => [opWord 13 x sz.high 0 y]
  | .addxMem sz y x => [opWord 13 x sz.high 1 y]
  | .andEaDn sz ea n => encodeEA 12 n sz.low [] sz ea
  | .andDnEa sz n ea => encodeEA 12 n sz.high [] sz ea
  | .andi sz imm ea => encodeEA 0 1 sz.low (immWords sz imm) sz ea
  | .andiToSr imm => [opWord 0 1 1 7 4, imm]
  | .aslImm sz count d => [opWord 14 count sz.high 0 d]
  | .aslReg sz n d => [opWord 14 n sz.high 4 d]
  | .aslMem ea => encodeEA 14 0 7 [] .w ea
  | .asrImm sz count d => [opWord 14 count sz.low 0 d]
  | .asrReg sz n d => [opWord 14 n sz.low 4 d]
  | .asrMem ea => encodeEA 14 0 3 [] .w ea
  | .btstDyn n ea => encodeEA 0 n 4 [] .b ea
  | .btstStatic bit ea => encodeEA 0 4 0 [bit] .b ea
  | .bchgDyn n ea => encodeEA 0 n 5 [] .b ea
  | .bchgStatic bit ea => encodeEA 0 4 1 [bit] .b ea
  | .bclrDyn n ea => encodeEA 0 n 6 [] .b ea
  | .bclrStatic bit ea => encodeEA 0 4 2 [bit] .b ea
  | .bsetDyn n ea => encodeEA 0 n 7 [] .b ea
  | .bsetStatic bit ea => encodeEA 0 4 3 [bit] .b ea
  | .bra d => encodeBranch 0 d
  | .bsr d => encodeBranch 1 d
  | .bhi d => encodeBranch Cond.hi.code d
  | .bls d => encodeBranch Cond.ls.code d
  | .bcc d => encodeBranch Cond.cc.code d
  | .bcs d => encodeBranch Cond.cs.code d
  | .bne d => encodeBranch Cond.ne.code d
  | .beq d => encodeBranch Cond.eq.code d
  | .bvc d => encodeBranch Cond.vc.code d
  | .bvs d => encodeBranch Cond.vs.code d
  | .bpl d => encodeBranch Cond.pl.code d
  | .bmi d => encodeBranch Cond.mi.code d
  | .bge d => encodeBranch Cond.ge.code d
  | .blt d => encodeBranch Cond.lt.code d
  | .bgt d => encodeBranch Cond.gt.code d
  | .ble d => encodeBranch Cond.le.code d
  | .chk ea n => encodeEA 4 n 6 [] .w ea
  | .clr sz ea => encodeEA 4 1 sz.low [] sz ea
  | .cmp sz ea n => encodeEA 11 n sz.low [] sz ea
  | .cmpaW ea n => encodeEA 11 n 3 [] .w ea
  | .cmpaL ea n => encodeEA 11 n 7 [] .l ea
  | .cmpi sz imm ea => encodeEA 0 6 sz.low (immWords sz imm) sz ea
  | .cmpm sz y x => [opWord 11 x sz.high 1 y]
  | .dbt n d => encodeDbcc Cond.t.code n d
  | .dbf n d => encodeDbcc Cond.f.code n d
  | .dbhi n d => encodeDbcc Cond.hi.code n d
  | .dbls n d => encodeDbcc Cond.ls.code n d
  | .dbcc n d => encodeDbcc Cond.cc.code n d
  | .dbcs n d => encodeDbcc Cond.cs.code n d
  | .dbne n d => encodeDbcc Cond.ne.code n d
  | .dbeq n d => encodeDbcc Cond.eq.code n d
  | .dbvc n d => encodeDbcc Cond.vc.code n d
  | .dbvs n d => encodeDbcc Cond.vs.code n d
  | .dbpl n d => encodeDbcc Cond.pl.code n d
  | .dbmi n d => encodeDbcc Cond.mi.code n d
  | .dbge n d => encodeDbcc Cond.ge.code n d
  | .dblt n d => encodeDbcc Cond.lt.code n d
  | .dbgt n d => encodeDbcc Cond.gt.code n d
  | .dble n d => encodeDbcc Cond.le.code n d
  | .divu ea n => encodeEA 8 n 3 [] .w ea
  | .divs ea n => encodeEA 8 n 7 [] .w ea
  | .eor sz n ea => encodeEA 11 n sz.high [] sz ea
  | .eori sz imm ea => encodeEA 0 5 sz.low (immWords sz imm) sz ea
  | .eoriToSr imm => [opWord 0 5 1 7 4, imm]
  | .exgDd x y => [opWord 12 x 5 0 y]
  | .exgAa x y => [opWord 12 x 5 1 y]
  | .exgDa x y => [opWord 12 x 6 1 y]
  | .extW n => [opWord 4 4 2 0 n]
  | .extL n => [opWord 4 4 3 0 n]

/-- The number of displacement words of a branch (R105). -/
def Disp.extCount : Disp → Nat
  | .byte _ => 0
  | .word _ => 1

/-- The number of words of an instruction, the operation word included (R91). -/
def Instr.words : Instr → Nat
  | .addEaDn sz ea _ | .cmp sz ea _ | .andEaDn sz ea _ => 1 + ea.extCount sz
  | .addDnEa sz _ ea | .andDnEa sz _ ea | .eor sz _ ea => 1 + ea.extCount sz
  | .addaW ea _ | .cmpaW ea _ | .chk ea _ | .divu ea _ | .divs ea _ => 1 + ea.extCount .w
  | .addaL ea _ | .cmpaL ea _ => 1 + ea.extCount .l
  | .addi sz _ ea | .andi sz _ ea | .cmpi sz _ ea | .eori sz _ ea => 1 + sz.immCount + ea.extCount sz
  | .addq sz _ ea | .clr sz ea => 1 + ea.extCount sz
  | .aslMem ea | .asrMem ea => 1 + ea.extCount .w
  | .btstDyn _ ea | .bchgDyn _ ea | .bclrDyn _ ea | .bsetDyn _ ea => 1 + ea.extCount .b
  | .btstStatic _ ea | .bchgStatic _ ea | .bclrStatic _ ea | .bsetStatic _ ea => 2 + ea.extCount .b
  | .bra d | .bsr d | .bhi d | .bls d | .bcc d | .bcs d | .bne d | .beq d | .bvc d | .bvs d | .bpl d | .bmi d
  | .bge d | .blt d | .bgt d | .ble d => 1 + d.extCount
  | .andiToSr _ | .eoriToSr _
  | .dbt _ _ | .dbf _ _ | .dbhi _ _ | .dbls _ _ | .dbcc _ _ | .dbcs _ _ | .dbne _ _ | .dbeq _ _
  | .dbvc _ _ | .dbvs _ _ | .dbpl _ _ | .dbmi _ _ | .dbge _ _ | .dblt _ _ | .dbgt _ _ | .dble _ _ => 2
  | .abcdReg _ _ | .abcdMem _ _ | .addxReg _ _ _ | .addxMem _ _ _
  | .aslImm _ _ _ | .aslReg _ _ _ | .asrImm _ _ _ | .asrReg _ _ _ | .cmpm _ _ _
  | .exgDd _ _ | .exgAa _ _ | .exgDa _ _ | .extW _ | .extL _ => 1

/-- `ilen`, the length of an instruction in bytes (R91). -/
def Instr.ilen (i : Instr) : Nat := 2 * i.words

/-- The decoder over bytes, as memory holds them (R90): the instruction and the bytes after it. -/
def decode (bs : List Byte) : Except DecodeError (Instr × List Byte) :=
  match decodeWords (pairWords bs) with
  | .ok (i, _) => .ok (i, bs.drop i.ilen)
  | .error e => .error e

/-! ## The host's numbering of a row's bits -/

/-- The words of the longest instruction, 10 bytes (R91), from a number whose bit 0 is the least significant bit of the
first word and whose later words count on from it; the bits from `nbits` up are 0. -/
def tableWords (nbits w : Nat) : List Word16 :=
  [0, 1, 2, 3, 4].map fun k => BitVec.ofNat 16 (w % 2 ^ nbits / 2 ^ (16 * k))

/-- The same words as the memory holds them, each big-endian, the first at the lowest address (R54, R90). -/
def tableBytes (nbits w : Nat) : List Byte := (tableWords nbits w).flatMap wordBytes

/-- The instruction the decoder reads from an instruction whose bits the table numbers as `w`. -/
def decodeTableWord (nbits w : Nat) : Option Instr :=
  match decode (tableBytes nbits w) with
  | .ok (i, _) => some i
  | .error _ => none

end Sys2Proof
end

