-- ==== Sys2Proof/Machine/State.lean ====
section
/-! DEFINITION. The state of the machine (10_state.md), as plain data, with the reasons a step can stop. INVENTORY.md,
"## State", lists every field with its rule and its reset value. -/

namespace Sys2Proof.Machine

open Sys2Proof

/-- The status register by the fields it has (R27): the bits R29 leaves unused hold no state. -/
structure Status where
  /-- bit 15, trace -/
  t : Bool
  /-- bit 13, supervisor -/
  s : Bool
  /-- bits 10:8, the interrupt mask -/
  i : BitVec 3
  /-- bit 4, extend -/
  x : Bool
  /-- bit 3, negative -/
  n : Bool
  /-- bit 2, zero -/
  z : Bool
  /-- bit 1, overflow -/
  v : Bool
  /-- bit 0, carry -/
  c : Bool
deriving DecidableEq, Repr

/-- Where the vector number of an interrupt comes from (R321). -/
inductive IrqVector where
  /-- a device-supplied number, 64 to 255 -/
  | device (number : BitVec 8)
  /-- the autovector 24 + level -/
  | autovector
  /-- a spurious interrupt, vector 24 -/
  | spurious
  /-- an uninitialised device, vector 15 -/
  | uninitialised
deriving DecidableEq, Repr

/-- What the platform presents to the interrupt inputs (R321): a level, 0 for no request, and the vector it would
supply. -/
structure IrqRequest where
  level  : BitVec 3
  vector : IrqVector
deriving DecidableEq, Repr

/-- The precise exceptions of R303: `AddressError` and `BusError` are faults of their own (R313). -/
inductive Exc where
  | illegalInstruction
  | zeroDivide
  | chk
  | privilegeViolation
  | trace
  | lineA
  | lineF
deriving DecidableEq, Repr

/-- The kind of an access, reported by `AddressError` and `BusError` (R304). -/
inductive AccessKind where
  | read
  | write
  | fetch
deriving DecidableEq, Repr

/-- The machine's state. -/
structure State where
  /-- `D[0]` to `D[7]` (R20) -/
  d         : Vector Long 8
  /-- `A[0]` to `A[6]` (R22) -/
  a         : Vector Long 7
  /-- the user stack pointer (R24) -/
  usp       : Long
  /-- the supervisor stack pointer (R24) -/
  ssp       : Long
  /-- the program counter (R25) -/
  pc        : Long
  /-- the status register (R27) -/
  sr        : Status
  /-- memory (R50): physical addresses strictly rising, no entry equal to what an unlisted address reads as -/
  mem       : List Host.Cell
  /-- the request the platform presents now (R321) -/
  irq       : IrqRequest
  /-- the requests it will present at the next instruction boundaries, oldest first (R321) -/
  irqFeed   : List IrqRequest
  /-- the external reset line is asserted (R351, R353) -/
  resetLine : Bool
  /-- the launch parameters (R8) -/
  params    : Params
  /-- the number of free values drawn so far: the model's own field (R15) -/
  freeCount : Nat
deriving DecidableEq, Repr

/-- The faults: a run ends in one with a name (R301, R355). -/
inductive Fault where
  /-- Raised by `memRead`, `memWrite` and `fetch16` for a word, a long word or a fetch at an odd address (R304). Safe:
  the hardware goes on in a handler about which the spec promises nothing (R313). -/
  | addressError (addr : Long) (kind : AccessKind)
  /-- Raised by the same operations where a byte of the access is not mapped (R305). Safe (R313). -/
  | busError (addr : Long) (kind : AccessKind)
  /-- Raised by a read of a byte that holds no value, under `memFill = none` (R350, U8). Safe. -/
  | readOfUnsetState (addr : Long)
  /-- Raised by `enterVector` and `resetEntry` for an address or bus error while an exception, an interrupt or the reset
  procedure is processed (R316, R351). Safe. -/
  | doubleFault
  /-- Raised by `raise` under `TRAP_MODEL = fault` (R301): the exception, the `pc` it saves (R303), and the state the
  raising rule has produced up to the raise (R317). Safe: the run ends where the hardware enters a handler. -/
  | raised (e : Exc) (spc : Long) (s : State)
deriving DecidableEq, Repr

/-- The refusals: the spec gives the form no meaning (R15). -/
inductive Refusal where
  /-- An arm of `exec` without a meaning; no arm is left so. Safe. -/
  | notModelled (mnemonic : String)
  /-- Raised by `reject` for an operation word that is not in this spec (R118). Safe. -/
  | notInSpec
  /-- Raised by `eaAddr` for an extension word with bits 10:8 not 0, under `briefBits = refuse` (R71, R96). Safe. -/
  | extensionWord
  /-- Raised by `memWrite` for a write that meets `CODE_REGION` (R84). Safe. -/
  | writeIntoProgram (addr : Long)
  /-- Raised by the branches for `d8 = 0xFF`, under `branchFF = refuse` (R217). Safe. -/
  | branchFF
  /-- Raised by the immediate shifts for count field 000, under `SHIFT_IMM0 = refuse` (R103). Safe. -/
  | shiftCountZero
  /-- Raised by ABCD on a nibble above 9, under `BCD_INVALID = refuse` (R130). Safe. -/
  | nonDecimalDigit
  /-- Raised by the operand operations for a term that is no instruction (`Instr.wf` refuses it): the decoder never
  gives one. Safe. -/
  | noSuchOperand
deriving DecidableEq, Repr

/-- The status right after reset (R351): `S` 1, `T` 0, mask 7; the flags, of which the spec gives no value, 0
(DESIGN CHOICE, log 2). -/
def Status.reset : Status := ⟨false, true, 7, false, false, false, false, false⟩

/-- The machine right after reset (R351): `SSP` and `pc` are what vectors 0 and 1 hold in the empty memory (log 3, 4);
the registers of which the spec gives no value are 0 (DESIGN CHOICE, log 2); the parameters are an MC68000's (log 1). -/
def State.reset : State where
  d         := Vector.replicate 8 0
  a         := Vector.replicate 7 0
  usp       := 0
  ssp       := 0
  pc        := 0
  sr        := Status.reset
  mem       := []
  irq       := ⟨0, .autovector⟩
  irqFeed   := []
  resetLine := false
  params    := Params.mc68000
  freeCount := 0

end Sys2Proof.Machine
end

