-- ==== Sys2Proof/Machine/Memory.lean ====
section
/-! DEFINITION. Memory as a list of (address, byte) cells in one canonical form: addresses strictly rising, and no cell
that holds what an unlisted address reads as (`fill`: a byte, or no value; R40 of 10_state.md, R350 of
70_reset_and_hazards.md). Bytes of wider values in the one byte order of R54 (20_memory.md). -/

namespace Sys2Proof.Machine

open Sys2Proof

/-- The byte listed at an address. -/
def Memory.lookup : List Host.Cell → Nat → Option Byte
  | [], _ => none
  | (k, b) :: cs, a => if k = a then some b else Memory.lookup cs a

/-- The byte an address reads as: the listed one, else `fill`. -/
def Memory.read (fill : Option Byte) (cs : List Host.Cell) (a : Nat) : Option Byte :=
  match Memory.lookup cs a with
  | some b => some b
  | none => fill

/-- The cells with a byte listed at an address. -/
def Memory.insert : List Host.Cell → Nat → Byte → List Host.Cell
  | [], a, b => [(a, b)]
  | (k, c) :: cs, a, b =>
    if a < k then (a, b) :: (k, c) :: cs
    else if a = k then (a, b) :: cs
    else (k, c) :: Memory.insert cs a b

/-- The cells without an address. -/
def Memory.erase : List Host.Cell → Nat → List Host.Cell
  | [], _ => []
  | (k, c) :: cs, a =>
    if a < k then (k, c) :: cs
    else if a = k then cs
    else (k, c) :: Memory.erase cs a

/-- A byte written: writing what an unlisted address reads as removes the cell. -/
def Memory.write (fill : Option Byte) (cs : List Host.Cell) (a : Nat) (b : Byte) : List Host.Cell :=
  match fill with
  | none => Memory.insert cs a b
  | some f => if b = f then Memory.erase cs a else Memory.insert cs a b

/-- The canonical form. -/
abbrev Memory.wf (fill : Option Byte) (cs : List Host.Cell) : Prop :=
  cs.Pairwise (fun p q => p.1 < q.1) ∧ ∀ p ∈ cs, some p.2 ≠ fill

/-- The number whose bytes are given, the most significant first (R54). -/
def beValue : List Byte → Nat
  | [] => 0
  | b :: bs => b.toNat * 256 ^ bs.length + beValue bs

/-- The `k` low bytes of a number, the most significant first (R54). -/
def beBytes : Nat → Nat → List Byte
  | 0, _ => []
  | k + 1, v => BitVec.ofNat 8 (v / 256 ^ k) :: beBytes k v

/-- The address lies in one of the regions. -/
def inRegions (rs : List Region) (a : Nat) : Bool :=
  rs.any fun r => decide (r.base ≤ a) && decide (a < r.base + r.size)

end Sys2Proof.Machine
end

