-- ==== Sys2Proof/Machine/Ops.lean ====
section
/-! DEFINITION. The named operations over registers and memory that every instruction goes through: register reads and
writes (R20 to R25 of 10_state.md), `MemRead`, `MemWrite` and `Fetch16` (R56, R57, R60 of 20_memory.md), free values (R15),
taking an exception (R301, R310, R312 of 60_exceptions.md), an interrupt (R321), and the reset procedure (R351). -/

namespace Sys2Proof.Machine

open Sys2Proof

/-! ## Sequencing -/

/-- An operation's answer: a value, a fault or a refusal. -/
abbrev Res (α : Type) := Host.Outcome α Fault Refusal

/-- One operation after another: the first fault or refusal ends the instruction (R14). -/
def andThen {α β : Type} (x : Res α) (f : α → Res β) : Res β :=
  match x with
  | .next a => f a
  | .fault r => .fault r
  | .refused r => .refused r

/-! ## The status register (R27 to R29) -/

/-- `SR` as the 16 bits an instruction reads: the unused bits read as 0 (R27, R29). -/
def Status.word (r : Status) : BitVec 16 :=
  (BitVec.ofBool r.t ++ 0#1 ++ BitVec.ofBool r.s ++ 0#2 ++ r.i ++ 0#3 ++ BitVec.ofBool r.x ++ BitVec.ofBool r.n ++
    BitVec.ofBool r.z ++ BitVec.ofBool r.v ++ BitVec.ofBool r.c).setWidth 16

/-- `SR` from 16 bits written to it: a write to an unused bit has no effect (R29). -/
def Status.ofWord (w : BitVec 16) : Status where
  t := w.getLsbD 15
  s := w.getLsbD 13
  i := w.extractLsb' 8 3
  x := w.getLsbD 4
  n := w.getLsbD 3
  z := w.getLsbD 2
  v := w.getLsbD 1
  c := w.getLsbD 0

/-! ## Registers (R20 to R25) -/

/-- `A[7]`: the stack pointer that `SR.S` selects (R24). -/
def State.a7 (s : State) : Long := if s.sr.s then s.ssp else s.usp

/-- `A[n]` (R22, R24). -/
def State.readA (s : State) (n : RegNum) : Long := if h : n.val < 7 then s.a[n.val] else s.a7

/-- `A[n] <- v`: all 32 bits; `A[7]` is the active stack pointer (R12, R22, R24). -/
def State.writeA (s : State) (n : RegNum) (v : Long) : State :=
  if h : n.val < 7 then { s with a := s.a.set n.val v }
  else if s.sr.s then { s with ssp := v } else { s with usp := v }

/-- `D[n]`, all 32 bits (R20). -/
def State.dreg (s : State) (n : RegNum) : Long := s.d[n.val]

/-- `D[n].sz` as a value: the low bits (R12, R21). -/
def State.readD (s : State) (n : RegNum) (sz : Size) : BitVec sz.bits := (s.dreg n).setWidth sz.bits

/-- A register value with its low `k` bits replaced (R21). -/
def mergeLow {k : Nat} (old : Long) (v : BitVec k) : Long := (old >>> k <<< k) ||| v.setWidth 32

/-- `D[n] <- v` (R12). -/
def State.setD (s : State) (n : RegNum) (v : Long) : State := { s with d := s.d.set n.val v }

/-- `D[n].sz <- v`: the upper bits keep their value (R12, R21). -/
def State.writeD (s : State) (n : RegNum) (sz : Size) (v : BitVec sz.bits) : State :=
  s.setD n (mergeLow (s.dreg n) v)

/-- `SSP <- v` (R24). -/
def State.setSsp (s : State) (v : Long) : State := { s with ssp := v }

/-- `SR <- r` (R27). -/
def State.setSr (s : State) (r : Status) : State := { s with sr := r }

/-- `pc <- v` (R25). -/
def State.setPc (s : State) (v : Long) : State := { s with pc := v }

/-- `pc <- pc + ilen` (R25), modulo 2^32 (R26). -/
def State.advance (s : State) (bytes : Nat) : State := s.setPc (s.pc + BitVec.ofNat 32 bytes)

/-! ## Free values (R15) -/

/-- The `k`-th of the free bits an instruction draws. -/
def State.freeBit (s : State) (k : Nat) : Bool := Config.freeBit (s.freeCount + k)

/-- The `k`-th of the free bytes an instruction draws. -/
def State.freeByte (s : State) (k : Nat) : Byte := Config.freeByte (s.freeCount + k)

/-- `k` free values have been drawn: every use may return a different value (R15). -/
def State.drawn (s : State) (k : Nat) : State := { s with freeCount := s.freeCount + k }

/-! ## Memory (R50 to R60) -/

/-- `phys(addr)`: the low `ADDR_BITS` bits (R52). -/
def State.phys (s : State) (a : Long) : Nat := a.toNat % 2 ^ s.params.addrBits.count

/-- The byte an address reads as, `none` where it holds no value (R54, R350). -/
def State.readByte (s : State) (a : Long) : Option Byte := Memory.read s.params.memFill s.mem (s.phys a)

/-- A byte written (R54). -/
def State.writeByte (s : State) (a : Long) (b : Byte) : State :=
  { s with mem := Memory.write s.params.memFill s.mem (s.phys a) b }

/-- The `k` bytes from an address on, `none` where one holds no value; the additions are modulo 2^32 (R56). -/
def State.readBytes (s : State) (a : Long) : Nat → Option (List Byte)
  | 0 => some []
  | k + 1 =>
    match s.readByte a, s.readBytes (a + 1) k with
    | some b, some bs => some (b :: bs)
    | _, _ => none

/-- The bytes written from an address on (R57). -/
def State.writeBytes (s : State) (a : Long) : List Byte → State
  | [] => s
  | b :: bs => (s.writeByte a b).writeBytes (a + 1) bs

/-- A property of every byte address of an access (R56, R57). -/
def allBytes (p : Long → Bool) (a : Long) : Nat → Bool
  | 0 => true
  | k + 1 => p a && allBytes p (a + 1) k

/-- `mapped`: the platform has memory at the address (R58). -/
def State.isMapped (s : State) (a : Long) : Bool := inRegions s.params.mapped (s.phys a)

/-- The address belongs to the program, `CODE_REGION` (R84). -/
def State.isCode (s : State) (a : Long) : Bool := inRegions s.params.codeRegion (s.phys a)

/-- An access of more than a byte is at an even address (R55). -/
def aligned (a : Long) (k : Nat) : Bool := k ≤ 1 || a.toNat % 2 == 0

/-- What stops an access before it is made: alignment first, then mapping (R55, R56, R57, R305). -/
def State.accessFault (s : State) (a : Long) (k : Nat) (kind : AccessKind) : Option Fault :=
  if !aligned a k then some (.addressError a kind)
  else if !allBytes s.isMapped a k then some (.busError a kind)
  else none

/-- `MemRead(addr, n)` (R56). -/
def State.memRead (s : State) (a : Long) (sz : Size) (kind : AccessKind) : Res (BitVec sz.bits) :=
  match s.accessFault a sz.bytes kind with
  | some f => .fault f
  | none =>
    match s.readBytes a sz.bytes with
    | some bs => .next (BitVec.ofNat sz.bits (beValue bs))
    | none => .fault (.readOfUnsetState a)

/-- `MemWrite(addr, n, v)` (R57). -/
def State.memWrite (s : State) (a : Long) (sz : Size) (v : BitVec sz.bits) : Res State :=
  match s.accessFault a sz.bytes .write with
  | some f => .fault f
  | none =>
    if allBytes (fun b => !s.isCode b) a sz.bytes then .next (s.writeBytes a (beBytes sz.bytes v.toNat))
    else .refused (.writeIntoProgram a)

/-- `Fetch16(addr)` (R60). -/
def State.fetch16 (s : State) (a : Long) : Res Word16 := s.memRead a .w .fetch

/-- The instruction words from an address on (R60). -/
def State.fetchWords (s : State) (a : Long) : Nat → Res (List Word16)
  | 0 => .next []
  | k + 1 => andThen (s.fetch16 a) fun w => andThen (s.fetchWords (a + 2) k) fun ws => .next (w :: ws)

/-! ## Exceptions (R301 to R317) -/

/-- The vector number of an exception (R303). -/
def Exc.vector : Exc → Nat
  | .illegalInstruction => 4
  | .zeroDivide => 5
  | .chk => 6
  | .privilegeViolation => 8
  | .trace => 9
  | .lineA => 10
  | .lineF => 11

/-- The exceptions whose frame on the MC68020 and later also holds the address of the instruction (R312). -/
def Exc.longFrame : Exc → Bool
  | .zeroDivide | .chk | .trace => true
  | _ => false

/-- An address or bus error inside exception processing is the double fault (R316). -/
def asDoubleFault {α : Type} (x : Res α) : Res α :=
  match x with
  | .fault (.addressError _ _) => .fault .doubleFault
  | .fault (.busError _ _) => .fault .doubleFault
  | y => y

/-- `SSP <- SSP - n; MemWrite(SSP, n, v)` (R310). -/
def State.pushSsp (s : State) (sz : Size) (v : BitVec sz.bits) : Res State :=
  let sp := s.ssp - BitVec.ofNat 32 sz.bytes
  (s.setSsp sp).memWrite sp sz v

/-- What is pushed before the program counter: nothing in the 6-byte frame; a format word (R312); for the long frame of
the MC68020 and later the address of the instruction before that. -/
def State.pushFormat (s : State) (v : Nat) (long : Bool) (at_ : Long) : Res State :=
  match s.params.frameFormat with
  | .mc68000 => .next s
  | .formatWord => s.pushSsp .w (BitVec.ofNat 16 (4 * v))
  | .mc68020 =>
    if long then andThen (s.pushSsp .l at_) fun s => s.pushSsp .w (BitVec.ofNat 16 (0x2000 + 4 * v))
    else s.pushSsp .w (BitVec.ofNat 16 (4 * v))

/-- Entering a vector (R310): the status becomes `sr`, the frame with the saved program counter `spc` and the old status
is pushed on the supervisor stack, and `pc` is read from the vector. `at_` is the address of the instruction (R312). -/
def State.enterVector (s : State) (v : Nat) (long : Bool) (sr : Status) (spc at_ : Long) : Res State :=
  asDoubleFault <|
    andThen ((s.setSr sr).pushFormat v long at_) fun s1 =>
    andThen (s1.pushSsp .l spc) fun s2 =>
    andThen (s2.pushSsp .w s.sr.word) fun s3 =>
    andThen (s3.memRead (s3.params.vectorBase + BitVec.ofNat 32 (4 * v)) .l .read) fun h =>
    .next (s3.setPc h)

/-- `raise E` (R301, R310): under `TRAP_MODEL = fault` the run ends; under `vectored` the exception is taken, with `S`
set and `T` cleared. `spc` is the program counter it saves (R303), `at_` the address of the instruction. -/
def raise (e : Exc) (spc at_ : Long) (s : State) : Res State :=
  match s.params.trapModel with
  | .fault => .fault (.raised e spc s)
  | .vectored => s.enterVector e.vector e.longFrame { s.sr with s := true, t := false } spc at_

/-- An operation word that is no instruction of the table (R314, R118); the saved program counter is its address. -/
def reject (e : DecodeError) (s : State) : Res State :=
  match e with
  | .illegalInstruction => raise .illegalInstruction s.pc s.pc s
  | .lineA => raise .lineA s.pc s.pc s
  | .lineF => raise .lineF s.pc s.pc s
  | .notInSpec | .truncated => .refused .notInSpec

/-! ## Interrupts (R321 to R323) -/

/-- The vector number the platform supplies (R321, R302). -/
def IrqRequest.vectorNumber (r : IrqRequest) : Nat :=
  match r.vector with
  | .device n => n.toNat
  | .autovector => 24 + r.level.toNat
  | .spurious => 24
  | .uninitialised => 15

/-- What the platform presents, replaced (R321). -/
def State.setIrq (s : State) (r : IrqRequest) (rest : List IrqRequest) : State := { s with irq := r, irqFeed := rest }

/-- The request presented at this instruction boundary: the next of the feed, else the one already there. -/
def State.sampleIrq (s : State) : State :=
  match s.irqFeed with
  | [] => s
  | r :: rs => s.setIrq r rs

/-- A request is taken if its level is above the mask, or is 7 on a transition from a lower level (R321, R322);
`before` is the level presented until now. -/
def irqTaken (before level mask : BitVec 3) : Bool :=
  mask.toNat < level.toNat || (level == 7 && before != 7)

/-- The interrupt check at an instruction boundary (R321): `S` set, `T` cleared, the mask set to the level. -/
def State.takeIrq (s : State) : Res State :=
  match s.params.interrupts with
  | .none => .next s
  | .external =>
    let s1 := s.sampleIrq
    if irqTaken s.irq.level s1.irq.level s1.sr.i then
      s1.enterVector s1.irq.vectorNumber false { s1.sr with s := true, t := false, i := s1.irq.level } s1.pc s1.pc
    else .next s1

/-! ## Reset (R351) -/

/-- The hardware reset: supervisor mode, no trace, mask 7, `SSP` and `pc` from vectors 0 and 1, `VECTOR_BASE` being 0;
nothing else is set. An address or bus error while the vectors are read is the double fault. -/
def State.resetEntry (s : State) : Res State :=
  asDoubleFault <|
    andThen (s.memRead 0 .l .read) fun sp =>
    andThen (s.memRead 4 .l .read) fun pc =>
    .next
      { s with
        sr := { s.sr with s := true, t := false, i := 7 }
        ssp := sp
        pc := pc
        resetLine := false
        params := { s.params with vectorBase := 0 } }

end Sys2Proof.Machine
end

