-- ==== Sys2Proof/Machine/Flags.lean ====
section
/-! DEFINITION. The flag computations (R30 to R35 of 10_state.md; R149 of 41_add.md; R172, R176 of 43_shift.md) and the
conditions (R108 of 30_encoding.md). Operands are vectors of the operation's width. -/

namespace Sys2Proof.Machine

open Sys2Proof

/-- The five flags (R30). -/
structure Flags where
  x : Bool
  n : Bool
  z : Bool
  v : Bool
  c : Bool
deriving DecidableEq, Repr

/-- The flags in the status register (R28). -/
def Status.flags (r : Status) : Flags := ⟨r.x, r.n, r.z, r.v, r.c⟩

/-- The flags written; every other bit of `SR` is as before (R28). -/
def Status.withFlags (r : Status) (f : Flags) : Status := { r with x := f.x, n := f.n, z := f.z, v := f.v, c := f.c }

/-- The flags of a state. -/
def State.flags (s : State) : Flags := s.sr.flags

/-- The flags of a state written. -/
def State.setFlags (s : State) (f : Flags) : State := s.setSr (s.sr.withFlags f)

/-! ## Addition, subtraction, logic -/

/-- The sum of R33, modulo 2^k. -/
def addResult {k : Nat} (s d : BitVec k) (xin : Bool) : BitVec k := BitVec.ofNat k (d.toNat + s.toNat + xin.toNat)

/-- `add_flags` (R33): `C` is the carry out of the top bit, `V` is set when two operands of one sign give a result of
the other, `X` copies `C`. -/
def addFlags {k : Nat} (s d : BitVec k) (xin : Bool) : Flags :=
  let r := addResult s d xin
  let carry := decide (2 ^ k ≤ d.toNat + s.toNat + xin.toNat)
  { x := carry, n := r.msb, z := r == 0, v := s.msb == d.msb && r.msb != d.msb, c := carry }

/-- `sub_flags` (R34) for destination minus source: `C` is the borrow; `X` keeps the value given. -/
def subFlags {k : Nat} (s d : BitVec k) (x : Bool) : Flags :=
  let r := d - s
  { x := x, n := r.msb, z := r == 0, v := s.msb != d.msb && r.msb != d.msb, c := decide (d.toNat < s.toNat) }

/-- `logic_flags` (R35): `V` and `C` are 0; `X` keeps the value given. -/
def logicFlags {k : Nat} (r : BitVec k) (x : Bool) : Flags :=
  { x := x, n := r.msb, z := r == 0, v := false, c := false }

/-- `Z` after ABCD and ADDX (R131, R149): under `XZ_STICKY` a result that is not 0 clears it and a result of 0 leaves it
as it was. -/
def stickyZ {k : Nat} (sticky : Bool) (r : BitVec k) (old : Bool) : Bool :=
  if sticky then (if r = 0 then old else false) else r == 0

/-- `addx_set_flags` (R149). -/
def addxFlags {k : Nat} (sticky : Bool) (s d : BitVec k) (old : Flags) : Flags :=
  { addFlags s d old.x with z := stickyZ sticky (addResult s d old.x) old.z }

/-! ## Shifts -/

/-- `asl(sz, v, c)`, the result (R172). -/
def aslResult {k : Nat} (v : BitVec k) (c : Nat) : BitVec k := BitVec.ofNat k (v.toNat * 2 ^ c)

/-- `V` of `asl` for `c > 0` (R172): the top bit changed at some step, that is, the top `c + 1` bits are not all equal. -/
def aslOverflow {k : Nat} (v : BitVec k) (c : Nat) : Bool :=
  if c < k then
    let top := v.toNat / 2 ^ (k - 1 - c)
    top != 0 && top != 2 ^ (c + 1) - 1
  else v != 0

/-- The flags of `asl` (R172): `C` and `X` are the last bit moved out of the top; a count of 0 clears `C` and `V` and
leaves `X`. -/
def aslFlags {k : Nat} (v : BitVec k) (c : Nat) (x : Bool) : Flags :=
  let r := aslResult v c
  if c = 0 then { x := x, n := r.msb, z := r == 0, v := false, c := false }
  else
    let last := if c ≤ k then v.getLsbD (k - c) else false
    { x := last, n := r.msb, z := r == 0, v := aslOverflow v c, c := last }

/-- `asr(sz, v, c)`, the result (R176): the vacated bits are copies of the top bit, or 0 under `ASR_FILL = zero`. -/
def asrResult {k : Nat} (fill : AsrFill) (v : BitVec k) (c : Nat) : BitVec k :=
  match fill with
  | .sign => v.sshiftRight c
  | .zero => v >>> c

/-- The bit `asr` shifts in (R176). -/
def asrFillBit {k : Nat} (fill : AsrFill) (v : BitVec k) : Bool :=
  match fill with
  | .sign => v.msb
  | .zero => false

/-- The flags of `asr` (R176): `C` and `X` are the last bit moved out of the bottom; `V` is 0, but a free value under
`ASR_FILL = zero` (U9). -/
def asrFlags {k : Nat} (fill : AsrFill) (v : BitVec k) (c : Nat) (x free : Bool) : Flags :=
  let r := asrResult fill v c
  if c = 0 then { x := x, n := r.msb, z := r == 0, v := false, c := false }
  else
    let last := if c ≤ k then v.getLsbD (c - 1) else asrFillBit fill v
    let overflow := match fill with
      | .sign => false
      | .zero => free
    { x := last, n := r.msb, z := r == 0, v := overflow, c := last }

/-! ## Conditions -/

/-- `cond(cccc)` (R108): a function of N, Z, V and C. -/
def condHolds (cond : Cond) (f : Flags) : Bool :=
  match cond with
  | .t => true
  | .f => false
  | .hi => !f.c && !f.z
  | .ls => f.c || f.z
  | .cc => !f.c
  | .cs => f.c
  | .ne => !f.z
  | .eq => f.z
  | .vc => !f.v
  | .vs => f.v
  | .pl => !f.n
  | .mi => f.n
  | .ge => f.n == f.v
  | .lt => f.n != f.v
  | .gt => !f.z && f.n == f.v
  | .le => f.z || f.n != f.v

end Sys2Proof.Machine
end

