-- ==== Sys2Proof/Machine/Operands.lean ====
section
/-! DEFINITION. Operands: effective addresses (R65 to R73 of 20_memory.md), reading one (R74, R75), and the
read-modify-write of a destination (R66, R76, R77). The address an operand denotes and the register update of its mode
are functions of their own, so that a statement can say where an instruction stores. -/

namespace Sys2Proof.Machine

open Sys2Proof

/-- `inc` and `dec` of the modes `(An)+` and `-(An)` (R68, R69): the operand's byte count, but 2 for a byte on `A7`. -/
def stepBytes (sz : Size) (n : RegNum) : Long := if sz = .b ∧ n.val = 7 then 2 else BitVec.ofNat 32 sz.bytes

/-- The index of a brief extension word (R65). -/
def State.index (s : State) (x : BriefExt) : Long :=
  let xn := if x.isAddr then s.readA x.reg else s.dreg x.reg
  if x.isLong then xn else (xn.setWidth 16).signExtend 32

/-- The address of a memory operand (R67 to R73); `ext` is the address of its first extension word (R95). -/
def State.eaAddress (s : State) (sz : Size) (ea : EA) (ext : Long) : Long :=
  match ea with
  | .ind n => s.readA n
  | .postinc n => s.readA n
  | .predec n => s.readA n - stepBytes sz n
  | .disp n d => s.readA n + d.signExtend 32
  | .index n x => s.readA n + s.index x + x.d8.signExtend 32
  | .absW a => a.signExtend 32
  | .absL a => a
  | .pcDisp d => ext + d.signExtend 32
  | .pcIndex x => ext + s.index x + x.d8.signExtend 32
  | .dn _ | .an _ | .imm _ => 0

/-- The register side effect of a mode (R68, R69). -/
def State.eaUpdate (s : State) (sz : Size) (ea : EA) : State :=
  match ea with
  | .postinc n => s.writeA n (s.readA n + stepBytes sz n)
  | .predec n => s.writeA n (s.readA n - stepBytes sz n)
  | _ => s

/-- The operand's extension word has bits 10:8 not 0 and the launch refuses such a word (R71, R96). -/
def State.briefRefused (s : State) (ea : EA) : Bool :=
  match ea with
  | .index _ x | .pcIndex x => s.params.briefBits == .refuse && x.scale != 0
  | _ => false

/-- `EAaddr(mode, reg, sz, ext)` (R66): the address, and the state after the mode's side effect. Defined for the memory
modes only. -/
def State.eaAddr (s : State) (sz : Size) (ea : EA) (ext : Long) : Res (Long × State) :=
  if !ea.kind.isMem then .refused .noSuchOperand
  else if s.briefRefused ea then .refused .extensionWord
  else .next (s.eaAddress sz ea ext, s.eaUpdate sz ea)

/-- `ReadEA(mode, reg, sz, ext)` (R74, R75): the operand's value, and the state after the mode's side effect. -/
def State.readEA (s : State) (sz : Size) (ea : EA) (ext : Long) : Res (BitVec sz.bits × State) :=
  match ea with
  | .dn n => .next (s.readD n sz, s)
  | .an n => .next ((s.readA n).setWidth sz.bits, s)
  | .imm raw => .next (raw.setWidth sz.bits, s)
  | ea =>
    andThen (s.eaAddr sz ea ext) fun p =>
    andThen (p.2.memRead p.1 sz .read) fun v => .next (v, p.2)

/-- A read-modify-write of a memory operand (R66, R76): the address is computed once, read there and written there; then
the flags are written. `f` gives the result and the flags. -/
def State.modifyMem (s : State) (sz : Size) (ea : EA) (ext : Long) (f : BitVec sz.bits → BitVec sz.bits × Flags) :
    Res State :=
  andThen (s.eaAddr sz ea ext) fun p =>
  andThen (p.2.memRead p.1 sz .read) fun d =>
  andThen (p.2.memWrite p.1 sz (f d).1) fun s2 => .next (s2.setFlags (f d).2)

/-- A read-modify-write of a data register or of a memory operand (R76). -/
def State.modifyEA (s : State) (sz : Size) (ea : EA) (ext : Long) (f : BitVec sz.bits → BitVec sz.bits × Flags) :
    Res State :=
  match ea with
  | .dn n => .next ((s.writeD n sz (f (s.readD n sz)).1).setFlags (f (s.readD n sz)).2)
  | ea => s.modifyMem sz ea ext f

/-- The end of an instruction that does not transfer control (R25). -/
def thenAdvance (x : Res State) (bytes : Nat) : Res State := andThen x fun s => .next (s.advance bytes)

/-- The address of the first extension word of the `<ea>` after `own` words of the instruction's own (R95). -/
def State.extAt (s : State) (own : Nat) : Long := s.pc + BitVec.ofNat 32 (2 + 2 * own)

end Sys2Proof.Machine
end

