-- ==== Sys2Proof/Machine/Abcd.lean ====
section
/-! DEFINITION. ABCD (40_abcd.md). -/

namespace Sys2Proof.Machine

open Sys2Proof

/-- Both nibbles are decimal digits (R130). -/
def isBcd (b : Byte) : Bool := decide (b.toNat / 16 ≤ 9) && decide (b.toNat % 16 ≤ 9)

/-- The number two decimal digits stand for, the tens in bits 7:4 (R130). -/
def bcdValue (b : Byte) : Nat := 10 * (b.toNat / 16) + b.toNat % 16

/-- `bcd_add(s, d, x)` on decimal digits (R130): the result byte and the decimal carry. -/
def bcdAdd (src dst : Byte) (x : Bool) : Byte × Bool :=
  let sum := bcdValue dst + bcdValue src + x.toNat
  (BitVec.ofNat 8 (sum % 100 / 10 * 16 + sum % 100 % 10), decide (100 ≤ sum))

/-- `bcd_add` on any bytes (R130): a nibble above 9 is refused or gives a free result and carry, by `BCD_INVALID`. -/
def State.bcdSum (s : State) (src dst : Byte) : Res ((Byte × Bool) × State) :=
  if isBcd src && isBcd dst then .next (bcdAdd src dst s.sr.x, s)
  else
    match s.params.bcdInvalid with
    | .refuse => .refused .nonDecimalDigit
    | .draw => .next ((s.freeByte 0, s.freeBit 1), s.drawn 2)

/-- The flags of ABCD (R131): `X` and `C` the decimal carry, `Z` sticky, `N` and `V` free (U1). -/
def State.bcdFlags (s : State) (r : Byte) (carry : Bool) : State :=
  (s.setFlags
    { x := carry, n := s.freeBit 0, z := stickyZ s.params.xzSticky r s.sr.z, v := s.freeBit 1, c := carry }).drawn 2

/-- ABCD Dy,Dx (R131). -/
def execAbcdReg (y x : RegNum) (s : State) : Res State :=
  andThen (s.bcdSum (s.readD y .b) (s.readD x .b)) fun p =>
  .next (((p.2.writeD x .b p.1.1).bcdFlags p.1.1 p.1.2).advance (Instr.abcdReg y x).ilen)

/-- ABCD -(Ay),-(Ax) (R132): source first, then destination (R77). -/
def execAbcdMem (y x : RegNum) (s : State) : Res State :=
  andThen (s.readEA .b (.predec y) (s.extAt 0)) fun src =>
  andThen (src.2.eaAddr .b (.predec x) (s.extAt 0)) fun da =>
  andThen (da.2.memRead da.1 .b .read) fun dst =>
  andThen (da.2.bcdSum src.1 dst) fun p =>
  andThen (p.2.memWrite da.1 .b p.1.1) fun s4 =>
  .next ((s4.bcdFlags p.1.1 p.1.2).advance (Instr.abcdMem y x).ilen)

end Sys2Proof.Machine
end

