-- ==== Sys2Proof/Machine/Add.lean ====
section
/-! DEFINITION. ADD, ADDA, ADDI, ADDQ, ADDX (41_add.md). -/

namespace Sys2Proof.Machine

open Sys2Proof

/-- ADD `<ea>,Dn` (R141). -/
def execAddEaDn (sz : Size) (ea : EA) (n : RegNum) (s : State) : Res State :=
  andThen (s.readEA sz ea (s.extAt 0)) fun p =>
  let d := p.2.readD n sz
  .next (((p.2.writeD n sz (addResult p.1 d false)).setFlags (addFlags p.1 d false)).advance
    (Instr.addEaDn sz ea n).ilen)

/-- ADD `Dn,<ea>` (R142). -/
def execAddDnEa (sz : Size) (n : RegNum) (ea : EA) (s : State) : Res State :=
  let src := s.readD n sz
  thenAdvance (s.modifyMem sz ea (s.extAt 0) fun d => (addResult src d false, addFlags src d false))
    (Instr.addDnEa sz n ea).ilen

/-- The flags after an addition into an address register (R143, R145), by `ADDA_CCR`: unchanged, or those of the 32-bit
sum, or free values. -/
def State.addaFlags (s : State) (src old : Long) : State :=
  match s.params.addaCcr with
  | .unaffected => s
  | .perSource => s.setFlags (addFlags src old false)
  | .draw => (s.setFlags ⟨s.freeBit 0, s.freeBit 1, s.freeBit 2, s.freeBit 3, s.freeBit 4⟩).drawn 5

/-- `A[n] <- A[n] + src`, all 32 bits (R143, R145). -/
def State.addToA (s : State) (n : RegNum) (src : Long) : State :=
  (s.writeA n (s.readA n + src)).addaFlags src (s.readA n)

/-- ADDA.W `<ea>,An` (R143): the source is sign-extended. -/
def execAddaW (ea : EA) (n : RegNum) (s : State) : Res State :=
  andThen (s.readEA .w ea (s.extAt 0)) fun p =>
  .next ((p.2.addToA n (p.1.signExtend 32)).advance (Instr.addaW ea n).ilen)

/-- ADDA.L `<ea>,An` (R143). -/
def execAddaL (ea : EA) (n : RegNum) (s : State) : Res State :=
  andThen (s.readEA .l ea (s.extAt 0)) fun p =>
  .next ((p.2.addToA n p.1).advance (Instr.addaL ea n).ilen)

/-- ADDI `#data,<ea>` (R144). -/
def execAddi (sz : Size) (imm : Long) (ea : EA) (s : State) : Res State :=
  let src := imm.setWidth sz.bits
  thenAdvance (s.modifyEA sz ea (s.extAt sz.immCount) fun d => (addResult src d false, addFlags src d false))
    (Instr.addi sz imm ea).ilen

/-- The number of an ADDQ data field: 000 is 8 (R102). -/
def quickData (data : Fin 8) : Nat := if data.val = 0 then 8 else data.val

/-- ADDQ `#data,<ea>` (R145): into an address register all 32 bits take part, whatever the size. -/
def execAddq (sz : Size) (data : Fin 8) (ea : EA) (s : State) : Res State :=
  match ea with
  | .an n => .next ((s.addToA n (BitVec.ofNat 32 (quickData data))).advance (Instr.addq sz data ea).ilen)
  | ea =>
    let src := BitVec.ofNat sz.bits (quickData data)
    thenAdvance (s.modifyEA sz ea (s.extAt 0) fun d => (addResult src d false, addFlags src d false))
      (Instr.addq sz data ea).ilen

/-- ADDX Dy,Dx (R146, R149). -/
def execAddxReg (sz : Size) (y x : RegNum) (s : State) : Res State :=
  let src := s.readD y sz
  let dst := s.readD x sz
  .next (((s.writeD x sz (addResult src dst s.sr.x)).setFlags (addxFlags s.params.xzSticky src dst s.flags)).advance
    (Instr.addxReg sz y x).ilen)

/-- ADDX -(Ay),-(Ax) (R147, R149): source first, then destination (R77). -/
def execAddxMem (sz : Size) (y x : RegNum) (s : State) : Res State :=
  andThen (s.readEA sz (.predec y) (s.extAt 0)) fun p =>
  thenAdvance
    (p.2.modifyMem sz (.predec x) (s.extAt 0) fun d =>
      (addResult p.1 d s.sr.x, addxFlags s.params.xzSticky p.1 d s.flags))
    (Instr.addxMem sz y x).ilen

end Sys2Proof.Machine
end

