-- ==== Sys2Proof/Machine/Bit.lean ====
section
/-! DEFINITION. BSET, BCLR, BCHG, BTST (44_bit.md). -/

namespace Sys2Proof.Machine

open Sys2Proof

/-- A vector with bit `b` set to `on`. -/
def writeBit {k : Nat} (v : BitVec k) (b : Nat) (on : Bool) : BitVec k :=
  if on then v ||| (1#k <<< b) else v &&& ~~~(1#k <<< b)

/-- `Z` alone written (R190). -/
def Flags.withZ (f : Flags) (z : Bool) : Flags := { f with z := z }

/-- `bitop` of BSET, BCLR, BCHG (R191): the bit number modulo 32 on a data register, modulo 8 on a memory byte; `Z` is
the complement of the old bit; `new` gives the new bit from the old one. -/
def State.bitOp (s : State) (new : Bool → Bool) (raw : Long) (ea : EA) (ext : Long) : Res State :=
  match ea with
  | .dn n =>
    let b := raw.toNat % 32
    let old := (s.dreg n).getLsbD b
    .next ((s.setD n (writeBit (s.dreg n) b (new old))).setFlags (s.flags.withZ !old))
  | ea =>
    let b := raw.toNat % 8
    s.modifyMem .b ea ext fun v => (writeBit v b (new (v.getLsbD b)), s.flags.withZ !(v.getLsbD b))

/-- `bitop` of BTST (R191, R195): only the read, and `Z`. -/
def State.bitTest (s : State) (raw : Long) (ea : EA) (ext : Long) : Res State :=
  match ea with
  | .dn n => .next (s.setFlags (s.flags.withZ !((s.dreg n).getLsbD (raw.toNat % 32))))
  | ea =>
    andThen (s.readEA .b ea ext) fun p => .next (p.2.setFlags (s.flags.withZ !(p.1.getLsbD (raw.toNat % 8))))

/-- The bit number of a static form: the low byte of its word (R104). -/
def staticBit (w : BitVec 16) : Long := (w.setWidth 8).setWidth 32

/-- BTST `Dn,<ea>` (R195). -/
def execBtstDyn (n : RegNum) (ea : EA) (s : State) : Res State :=
  thenAdvance (s.bitTest (s.dreg n) ea (s.extAt 0)) (Instr.btstDyn n ea).ilen

/-- BTST `#data,<ea>` (R195). -/
def execBtstStatic (bit : BitVec 16) (ea : EA) (s : State) : Res State :=
  thenAdvance (s.bitTest (staticBit bit) ea (s.extAt 1)) (Instr.btstStatic bit ea).ilen

/-- BCHG `Dn,<ea>` (R194). -/
def execBchgDyn (n : RegNum) (ea : EA) (s : State) : Res State :=
  thenAdvance (s.bitOp (fun old => !old) (s.dreg n) ea (s.extAt 0)) (Instr.bchgDyn n ea).ilen

/-- BCHG `#data,<ea>` (R194). -/
def execBchgStatic (bit : BitVec 16) (ea : EA) (s : State) : Res State :=
  thenAdvance (s.bitOp (fun old => !old) (staticBit bit) ea (s.extAt 1)) (Instr.bchgStatic bit ea).ilen

/-- BCLR `Dn,<ea>` (R193). -/
def execBclrDyn (n : RegNum) (ea : EA) (s : State) : Res State :=
  thenAdvance (s.bitOp (fun _ => false) (s.dreg n) ea (s.extAt 0)) (Instr.bclrDyn n ea).ilen

/-- BCLR `#data,<ea>` (R193). -/
def execBclrStatic (bit : BitVec 16) (ea : EA) (s : State) : Res State :=
  thenAdvance (s.bitOp (fun _ => false) (staticBit bit) ea (s.extAt 1)) (Instr.bclrStatic bit ea).ilen

/-- BSET `Dn,<ea>` (R192). -/
def execBsetDyn (n : RegNum) (ea : EA) (s : State) : Res State :=
  thenAdvance (s.bitOp (fun _ => true) (s.dreg n) ea (s.extAt 0)) (Instr.bsetDyn n ea).ilen

/-- BSET `#data,<ea>` (R192). -/
def execBsetStatic (bit : BitVec 16) (ea : EA) (s : State) : Res State :=
  thenAdvance (s.bitOp (fun _ => true) (staticBit bit) ea (s.extAt 1)) (Instr.bsetStatic bit ea).ilen

end Sys2Proof.Machine
end

