-- ==== Sys2Proof/Machine/Branch.lean ====
section
/-! DEFINITION. Bcc, BRA, BSR (45_branch.md) and DBcc (48_dbcc_div.md). -/

namespace Sys2Proof.Machine

open Sys2Proof

/-- The displacement, sign-extended (R99, R105). -/
def dispValue : Disp → Long
  | .byte d8 => d8.signExtend 32
  | .word d16 => d16.signExtend 32

/-- The target of a branch: the address of the operation word, plus 2, plus the displacement (R210). -/
def State.branchTarget (s : State) (d : Disp) : Long := s.pc + 2 + dispValue d

/-- `d8 = 0xFF` where the launch refuses it (R217). -/
def State.branchRefused (s : State) (d : Disp) : Bool := s.params.branchFF == .refuse && d == .byte 0xFF

/-- A branch that is taken if `taken` holds (R211): `pc` is the target, else the address of the next instruction. -/
def State.branchIf (s : State) (taken : Bool) (d : Disp) (bytes : Nat) : Res State :=
  if s.branchRefused d then .refused .branchFF
  else if taken then .next (s.setPc (s.branchTarget d))
  else .next (s.advance bytes)

/-- BRA label (R212). -/
def execBra (d : Disp) (s : State) : Res State := s.branchIf true d (Instr.bra d).ilen

/-- BSR label (R213): the address of the next instruction is pushed on the active stack as a long word, then the branch
is made. -/
def execBsr (d : Disp) (s : State) : Res State :=
  if s.branchRefused d then .refused .branchFF
  else
    let sp := s.a7 - 4
    andThen ((s.writeA 7 sp).memWrite sp .l (s.pc + BitVec.ofNat 32 (Instr.bsr d).ilen)) fun t =>
    .next (t.setPc (s.branchTarget d))

/-- BHI label (R211). -/
def execBhi (d : Disp) (s : State) : Res State := s.branchIf (condHolds .hi s.flags) d (Instr.bhi d).ilen

/-- BLS label (R211). -/
def execBls (d : Disp) (s : State) : Res State := s.branchIf (condHolds .ls s.flags) d (Instr.bls d).ilen

/-- BCC label (R211). -/
def execBcc (d : Disp) (s : State) : Res State := s.branchIf (condHolds .cc s.flags) d (Instr.bcc d).ilen

/-- BCS label (R211). -/
def execBcs (d : Disp) (s : State) : Res State := s.branchIf (condHolds .cs s.flags) d (Instr.bcs d).ilen

/-- BNE label (R211). -/
def execBne (d : Disp) (s : State) : Res State := s.branchIf (condHolds .ne s.flags) d (Instr.bne d).ilen

/-- BEQ label (R211). -/
def execBeq (d : Disp) (s : State) : Res State := s.branchIf (condHolds .eq s.flags) d (Instr.beq d).ilen

/-- BVC label (R211). -/
def execBvc (d : Disp) (s : State) : Res State := s.branchIf (condHolds .vc s.flags) d (Instr.bvc d).ilen

/-- BVS label (R211). -/
def execBvs (d : Disp) (s : State) : Res State := s.branchIf (condHolds .vs s.flags) d (Instr.bvs d).ilen

/-- BPL label (R211). -/
def execBpl (d : Disp) (s : State) : Res State := s.branchIf (condHolds .pl s.flags) d (Instr.bpl d).ilen

/-- BMI label (R211). -/
def execBmi (d : Disp) (s : State) : Res State := s.branchIf (condHolds .mi s.flags) d (Instr.bmi d).ilen

/-- BGE label (R211). -/
def execBge (d : Disp) (s : State) : Res State := s.branchIf (condHolds .ge s.flags) d (Instr.bge d).ilen

/-- BLT label (R211). -/
def execBlt (d : Disp) (s : State) : Res State := s.branchIf (condHolds .lt s.flags) d (Instr.blt d).ilen

/-- BGT label (R211). -/
def execBgt (d : Disp) (s : State) : Res State := s.branchIf (condHolds .gt s.flags) d (Instr.bgt d).ilen

/-- BLE label (R211). -/
def execBle (d : Disp) (s : State) : Res State := s.branchIf (condHolds .le s.flags) d (Instr.ble d).ilen

/-- DBcc Dn,label (R261): the condition first, then the decrement of the low word, then the comparison with -1. -/
def State.decBranch (s : State) (cond : Cond) (n : RegNum) (d16 : BitVec 16) (bytes : Nat) : Res State :=
  if condHolds cond s.flags then .next (s.advance bytes)
  else
    let w := s.readD n .w - 1
    let t := s.writeD n .w w
    if w = 0xFFFF then .next (t.advance bytes) else .next (t.setPc (s.pc + 2 + d16.signExtend 32))

/-- DBT Dn,label (R261). -/
def execDbt (n : RegNum) (d16 : BitVec 16) (s : State) : Res State := s.decBranch .t n d16 (Instr.dbt n d16).ilen

/-- DBF Dn,label (R261). -/
def execDbf (n : RegNum) (d16 : BitVec 16) (s : State) : Res State := s.decBranch .f n d16 (Instr.dbf n d16).ilen

/-- DBHI Dn,label (R261). -/
def execDbhi (n : RegNum) (d16 : BitVec 16) (s : State) : Res State := s.decBranch .hi n d16 (Instr.dbhi n d16).ilen

/-- DBLS Dn,label (R261). -/
def execDbls (n : RegNum) (d16 : BitVec 16) (s : State) : Res State := s.decBranch .ls n d16 (Instr.dbls n d16).ilen

/-- DBCC Dn,label (R261). -/
def execDbcc (n : RegNum) (d16 : BitVec 16) (s : State) : Res State := s.decBranch .cc n d16 (Instr.dbcc n d16).ilen

/-- DBCS Dn,label (R261). -/
def execDbcs (n : RegNum) (d16 : BitVec 16) (s : State) : Res State := s.decBranch .cs n d16 (Instr.dbcs n d16).ilen

/-- DBNE Dn,label (R261). -/
def execDbne (n : RegNum) (d16 : BitVec 16) (s : State) : Res State := s.decBranch .ne n d16 (Instr.dbne n d16).ilen

/-- DBEQ Dn,label (R261). -/
def execDbeq (n : RegNum) (d16 : BitVec 16) (s : State) : Res State := s.decBranch .eq n d16 (Instr.dbeq n d16).ilen

/-- DBVC Dn,label (R261). -/
def execDbvc (n : RegNum) (d16 : BitVec 16) (s : State) : Res State := s.decBranch .vc n d16 (Instr.dbvc n d16).ilen

/-- DBVS Dn,label (R261). -/
def execDbvs (n : RegNum) (d16 : BitVec 16) (s : State) : Res State := s.decBranch .vs n d16 (Instr.dbvs n d16).ilen

/-- DBPL Dn,label (R261). -/
def execDbpl (n : RegNum) (d16 : BitVec 16) (s : State) : Res State := s.decBranch .pl n d16 (Instr.dbpl n d16).ilen

/-- DBMI Dn,label (R261). -/
def execDbmi (n : RegNum) (d16 : BitVec 16) (s : State) : Res State := s.decBranch .mi n d16 (Instr.dbmi n d16).ilen

/-- DBGE Dn,label (R261). -/
def execDbge (n : RegNum) (d16 : BitVec 16) (s : State) : Res State := s.decBranch .ge n d16 (Instr.dbge n d16).ilen

/-- DBLT Dn,label (R261). -/
def execDblt (n : RegNum) (d16 : BitVec 16) (s : State) : Res State := s.decBranch .lt n d16 (Instr.dblt n d16).ilen

/-- DBGT Dn,label (R261). -/
def execDbgt (n : RegNum) (d16 : BitVec 16) (s : State) : Res State := s.decBranch .gt n d16 (Instr.dbgt n d16).ilen

/-- DBLE Dn,label (R261). -/
def execDble (n : RegNum) (d16 : BitVec 16) (s : State) : Res State := s.decBranch .le n d16 (Instr.dble n d16).ilen

end Sys2Proof.Machine
end

