-- ==== Sys2Proof/Machine/ChkClr.lean ====
section
/-! DEFINITION. CHK, CLR (46_chk_clr.md), EXG and EXT (49_eor_exg_ext.md). -/

namespace Sys2Proof.Machine

open Sys2Proof

/-- CHK `<ea>,Dn` (R231): the low word of `Dn` against 0 and the bound, signed. `Z`, `V` and `C` are free (U2); `N` is 1
below 0, 0 above the bound, free in range (U3). Out of bounds it raises `CHKException`, which saves the address of the
next instruction (R307). -/
def execChk (ea : EA) (n : RegNum) (s : State) : Res State :=
  andThen (s.readEA .w ea (s.extAt 0)) fun p =>
  let t := p.2
  let v := (t.readD n .w).toInt
  let next := t.pc + BitVec.ofNat 32 (Instr.chk ea n).ilen
  let flags := fun (neg : Bool) =>
    t.setFlags { x := t.sr.x, n := neg, z := t.freeBit 0, v := t.freeBit 1, c := t.freeBit 2 }
  if v < 0 then raise .chk next t.pc ((flags true).drawn 3)
  else if p.1.toInt < v then raise .chk next t.pc ((flags false).drawn 3)
  else .next (((flags (t.freeBit 3)).drawn 4).advance (Instr.chk ea n).ilen)

/-- The flags of CLR (R233): `X` is unchanged. -/
def clrFlags (x : Bool) : Flags := ⟨x, false, true, false, false⟩

/-- CLR `<ea>` (R233): memory is written without being read. -/
def execClr (sz : Size) (ea : EA) (s : State) : Res State :=
  match ea with
  | .dn n => .next (((s.writeD n sz 0).setFlags (clrFlags s.sr.x)).advance (Instr.clr sz ea).ilen)
  | ea =>
    andThen (s.eaAddr sz ea (s.extAt 0)) fun p =>
    andThen (p.2.memWrite p.1 sz 0) fun t =>
    .next ((t.setFlags (clrFlags s.sr.x)).advance (Instr.clr sz ea).ilen)

/-- EXG Dx,Dy (R286). -/
def execExgDd (x y : RegNum) (s : State) : Res State :=
  .next (((s.setD x (s.dreg y)).setD y (s.dreg x)).advance (Instr.exgDd x y).ilen)

/-- EXG Ax,Ay (R286). -/
def execExgAa (x y : RegNum) (s : State) : Res State :=
  .next (((s.writeA x (s.readA y)).writeA y (s.readA x)).advance (Instr.exgAa x y).ilen)

/-- EXG Dx,Ay (R286). -/
def execExgDa (x y : RegNum) (s : State) : Res State :=
  .next (((s.setD x (s.readA y)).writeA y (s.dreg x)).advance (Instr.exgDa x y).ilen)

/-- EXT.W Dn (R288): byte to word; bits 31:16 are unchanged. -/
def execExtW (n : RegNum) (s : State) : Res State :=
  let r : BitVec 16 := (s.readD n .b).signExtend 16
  .next (((s.writeD n .w r).setFlags (logicFlags r s.sr.x)).advance (Instr.extW n).ilen)

/-- EXT.L Dn (R288): word to long word. -/
def execExtL (n : RegNum) (s : State) : Res State :=
  let r : Long := (s.readD n .w).signExtend 32
  .next (((s.setD n r).setFlags (logicFlags r s.sr.x)).advance (Instr.extL n).ilen)

end Sys2Proof.Machine
end

