-- ==== Sys2Proof/Machine/Cmp.lean ====
section
/-! DEFINITION. CMP, CMPA, CMPI, CMPM (47_cmp.md): destination minus source; `X` and the operands are unchanged (R240). -/

namespace Sys2Proof.Machine

open Sys2Proof

/-- CMP `<ea>,Dn` (R241). -/
def execCmp (sz : Size) (ea : EA) (n : RegNum) (s : State) : Res State :=
  andThen (s.readEA sz ea (s.extAt 0)) fun p =>
  .next ((p.2.setFlags (subFlags p.1 (p.2.readD n sz) s.sr.x)).advance (Instr.cmp sz ea n).ilen)

/-- CMPA.W `<ea>,An` (R242): the source is sign-extended, the comparison is of 32 bits. -/
def execCmpaW (ea : EA) (n : RegNum) (s : State) : Res State :=
  andThen (s.readEA .w ea (s.extAt 0)) fun p =>
  .next ((p.2.setFlags (subFlags (p.1.signExtend 32) (p.2.readA n) s.sr.x)).advance (Instr.cmpaW ea n).ilen)

/-- CMPA.L `<ea>,An` (R242). -/
def execCmpaL (ea : EA) (n : RegNum) (s : State) : Res State :=
  andThen (s.readEA .l ea (s.extAt 0)) fun p =>
  .next ((p.2.setFlags (subFlags p.1 (p.2.readA n) s.sr.x)).advance (Instr.cmpaL ea n).ilen)

/-- CMPI `#data,<ea>` (R243). -/
def execCmpi (sz : Size) (imm : Long) (ea : EA) (s : State) : Res State :=
  andThen (s.readEA sz ea (s.extAt sz.immCount)) fun p =>
  .next ((p.2.setFlags (subFlags (imm.setWidth sz.bits) p.1 s.sr.x)).advance (Instr.cmpi sz imm ea).ilen)

/-- CMPM (Ay)+,(Ax)+ (R244): source first, then destination (R77). -/
def execCmpm (sz : Size) (y x : RegNum) (s : State) : Res State :=
  andThen (s.readEA sz (.postinc y) (s.extAt 0)) fun src =>
  andThen (src.2.readEA sz (.postinc x) (s.extAt 0)) fun dst =>
  .next ((dst.2.setFlags (subFlags src.1 dst.1 s.sr.x)).advance (Instr.cmpm sz y x).ilen)

end Sys2Proof.Machine
end

