-- ==== Sys2Proof/Machine/Div.lean ====
section
/-! DEFINITION. DIVS and DIVU (48_dbcc_div.md). -/

namespace Sys2Proof.Machine

open Sys2Proof

/-- A zero divisor (R306): `N`, `Z`, `V` free, `C` 0, the dividend unchanged; `ZeroDivide` saves the address of the next
instruction. -/
def State.zeroDivide (s : State) (bytes : Nat) : Res State :=
  raise .zeroDivide (s.pc + BitVec.ofNat 32 bytes) s.pc
    ((s.setFlags { x := s.sr.x, n := s.freeBit 0, z := s.freeBit 1, v := s.freeBit 2, c := false }).drawn 3)

/-- A quotient that does not fit 16 bits (R265, R267): `V` 1, `C` 0, `N` and `Z` free (U4), the dividend unchanged. -/
def State.divOverflow (s : State) : State :=
  (s.setFlags { x := s.sr.x, n := s.freeBit 0, z := s.freeBit 1, v := true, c := false }).drawn 2

/-- The remainder in bits 31:16, the quotient in bits 15:0, the flags from the quotient (R265, R267). -/
def State.divResult (s : State) (n : RegNum) (r q : BitVec 16) : State :=
  (s.setD n (r ++ q)).setFlags { x := s.sr.x, n := q.msb, z := q == 0, v := false, c := false }

/-- DIVU `<ea>,Dn` (R267). -/
def execDivu (ea : EA) (n : RegNum) (s : State) : Res State :=
  andThen (s.readEA .w ea (s.extAt 0)) fun p =>
  let divisor := p.1.toNat
  let dividend := (p.2.dreg n).toNat
  let q := dividend / divisor
  if divisor = 0 then p.2.zeroDivide (Instr.divu ea n).ilen
  else if 0xFFFF < q then .next (p.2.divOverflow.advance (Instr.divu ea n).ilen)
  else
    .next ((p.2.divResult n (BitVec.ofNat 16 (dividend - q * divisor)) (BitVec.ofNat 16 q)).advance
      (Instr.divu ea n).ilen)

/-- DIVS `<ea>,Dn` (R265): the quotient is rounded toward zero. -/
def execDivs (ea : EA) (n : RegNum) (s : State) : Res State :=
  andThen (s.readEA .w ea (s.extAt 0)) fun p =>
  let divisor := p.1.toInt
  let dividend := (p.2.dreg n).toInt
  let q := dividend.tdiv divisor
  if divisor = 0 then p.2.zeroDivide (Instr.divs ea n).ilen
  else if q < -32768 ∨ 32767 < q then .next (p.2.divOverflow.advance (Instr.divs ea n).ilen)
  else
    .next ((p.2.divResult n (BitVec.ofInt 16 (dividend - q * divisor)) (BitVec.ofInt 16 q)).advance
      (Instr.divs ea n).ilen)

end Sys2Proof.Machine
end

