-- ==== Sys2Proof/Machine/Logic.lean ====
section
/-! DEFINITION. AND, ANDI, ANDI to SR (42_and.md); EOR, EORI, EORI to SR (49_eor_exg_ext.md). -/

namespace Sys2Proof.Machine

open Sys2Proof

/-- AND `<ea>,Dn` (R161). -/
def execAndEaDn (sz : Size) (ea : EA) (n : RegNum) (s : State) : Res State :=
  andThen (s.readEA sz ea (s.extAt 0)) fun p =>
  let r := p.1 &&& p.2.readD n sz
  .next (((p.2.writeD n sz r).setFlags (logicFlags r s.sr.x)).advance (Instr.andEaDn sz ea n).ilen)

/-- AND `Dn,<ea>` (R162). -/
def execAndDnEa (sz : Size) (n : RegNum) (ea : EA) (s : State) : Res State :=
  let src := s.readD n sz
  thenAdvance (s.modifyMem sz ea (s.extAt 0) fun d => (src &&& d, logicFlags (src &&& d) s.sr.x))
    (Instr.andDnEa sz n ea).ilen

/-- ANDI `#data,<ea>` (R163). -/
def execAndi (sz : Size) (imm : Long) (ea : EA) (s : State) : Res State :=
  let src := imm.setWidth sz.bits
  thenAdvance (s.modifyEA sz ea (s.extAt sz.immCount) fun d => (src &&& d, logicFlags (src &&& d) s.sr.x))
    (Instr.andi sz imm ea).ilen

/-- EOR `Dn,<ea>` (R281). -/
def execEor (sz : Size) (n : RegNum) (ea : EA) (s : State) : Res State :=
  let src := s.readD n sz
  thenAdvance (s.modifyEA sz ea (s.extAt 0) fun d => (src ^^^ d, logicFlags (src ^^^ d) s.sr.x))
    (Instr.eor sz n ea).ilen

/-- EORI `#data,<ea>` (R283). -/
def execEori (sz : Size) (imm : Long) (ea : EA) (s : State) : Res State :=
  let src := imm.setWidth sz.bits
  thenAdvance (s.modifyEA sz ea (s.extAt sz.immCount) fun d => (src ^^^ d, logicFlags (src ^^^ d) s.sr.x))
    (Instr.eori sz imm ea).ilen

/-- A write of `SR` that only supervisor mode may make: in user mode `PrivilegeViolation`, with nothing changed and the
address of the instruction itself saved (R308, R331). -/
def State.writeSr (s : State) (w : BitVec 16) (bytes : Nat) : Res State :=
  if s.sr.s then .next ((s.setSr (Status.ofWord w)).advance bytes)
  else raise .privilegeViolation s.pc s.pc s

/-- ANDI `#data,SR` (R164). -/
def execAndiToSr (imm : BitVec 16) (s : State) : Res State :=
  s.writeSr (s.sr.word &&& imm) (Instr.andiToSr imm).ilen

/-- EORI `#data,SR` (R284). -/
def execEoriToSr (imm : BitVec 16) (s : State) : Res State :=
  s.writeSr (s.sr.word ^^^ imm) (Instr.eoriToSr imm).ilen

end Sys2Proof.Machine
end

