-- ==== Sys2Proof/Machine/Shift.lean ====
section
/-! DEFINITION. ASL and ASR (43_shift.md). -/

namespace Sys2Proof.Machine

open Sys2Proof

/-- The count of an immediate shift (R171, R103): field 000 by `SHIFT_IMM0`; `none` where that refuses. -/
def shiftImmCount (p : ShiftImm0) (field : Fin 8) : Option Nat :=
  if field.val = 0 then
    match p with
    | .eight => some 8
    | .zero => some 0
    | .refuse => none
  else some field.val

/-- The count of a register shift: the register's value modulo 64 (R171). -/
def State.shiftRegCount (s : State) (n : RegNum) : Nat := (s.dreg n).toNat % 64

/-- `asl` of a data register (R173, R174). -/
def State.aslD (s : State) (sz : Size) (c : Nat) (d : RegNum) : State :=
  let v := s.readD d sz
  (s.writeD d sz (aslResult v c)).setFlags (aslFlags v c s.sr.x)

/-- A free value is drawn for `V` of `asr` (R176): under `ASR_FILL = zero`, for a count that is not 0 (U9). -/
def State.asrDrawn (s : State) (c : Nat) : State :=
  if s.params.asrFill = .zero ∧ c ≠ 0 then s.drawn 1 else s

/-- `asr` of a data register (R177, R178). -/
def State.asrD (s : State) (sz : Size) (c : Nat) (d : RegNum) : State :=
  let v := s.readD d sz
  ((s.writeD d sz (asrResult s.params.asrFill v c)).setFlags
    (asrFlags s.params.asrFill v c s.sr.x (s.freeBit 0))).asrDrawn c

/-- ASL `#count,Dd` (R173). -/
def execAslImm (sz : Size) (count : Fin 8) (d : RegNum) (s : State) : Res State :=
  match shiftImmCount s.params.shiftImm0 count with
  | none => .refused .shiftCountZero
  | some c => .next ((s.aslD sz c d).advance (Instr.aslImm sz count d).ilen)

/-- ASL `Dn,Dd` (R174). -/
def execAslReg (sz : Size) (n d : RegNum) (s : State) : Res State :=
  .next ((s.aslD sz (s.shiftRegCount n) d).advance (Instr.aslReg sz n d).ilen)

/-- ASL `<ea>` (R175): one memory word, shifted by 1. -/
def execAslMem (ea : EA) (s : State) : Res State :=
  thenAdvance (s.modifyMem .w ea (s.extAt 0) fun v => (aslResult v 1, aslFlags v 1 s.sr.x)) (Instr.aslMem ea).ilen

/-- ASR `#count,Dd` (R177). -/
def execAsrImm (sz : Size) (count : Fin 8) (d : RegNum) (s : State) : Res State :=
  match shiftImmCount s.params.shiftImm0 count with
  | none => .refused .shiftCountZero
  | some c => .next ((s.asrD sz c d).advance (Instr.asrImm sz count d).ilen)

/-- ASR `Dn,Dd` (R178). -/
def execAsrReg (sz : Size) (n d : RegNum) (s : State) : Res State :=
  .next ((s.asrD sz (s.shiftRegCount n) d).advance (Instr.asrReg sz n d).ilen)

/-- ASR `<ea>` (R179): one memory word, shifted by 1. -/
def execAsrMem (ea : EA) (s : State) : Res State :=
  andThen
    (s.modifyMem .w ea (s.extAt 0) fun v =>
      (asrResult s.params.asrFill v 1, asrFlags s.params.asrFill v 1 s.sr.x (s.freeBit 0)))
    fun t => .next ((t.asrDrawn 1).advance (Instr.asrMem ea).ilen)

end Sys2Proof.Machine
end

