-- ==== Sys2Proof/Machine/Dispatch.lean ====
section
/-! DEFINITION. The meaning of every instruction, one arm per constructor of `Instr`. -/

namespace Sys2Proof.Machine

open Sys2Proof

/-- What an instruction does to a state (R354, "run the instruction's rule"). -/
def exec (i : Instr) (s : State) : Host.Outcome State Fault Refusal :=
  match i with
  | .abcdReg y x => Sys2Proof.Machine.execAbcdReg y x s
  | .abcdMem y x => Sys2Proof.Machine.execAbcdMem y x s
  | .addEaDn sz ea n => Sys2Proof.Machine.execAddEaDn sz ea n s
  | .addDnEa sz n ea => Sys2Proof.Machine.execAddDnEa sz n ea s
  | .addaW ea n => Sys2Proof.Machine.execAddaW ea n s
  | .addaL ea n => Sys2Proof.Machine.execAddaL ea n s
  | .addi sz imm ea => Sys2Proof.Machine.execAddi sz imm ea s
  | .addq sz data ea => Sys2Proof.Machine.execAddq sz data ea s
  | .addxReg sz y x => Sys2Proof.Machine.execAddxReg sz y x s
  | .addxMem sz y x => Sys2Proof.Machine.execAddxMem sz y x s
  | .andEaDn sz ea n => Sys2Proof.Machine.execAndEaDn sz ea n s
  | .andDnEa sz n ea => Sys2Proof.Machine.execAndDnEa sz n ea s
  | .andi sz imm ea => Sys2Proof.Machine.execAndi sz imm ea s
  | .andiToSr imm => Sys2Proof.Machine.execAndiToSr imm s
  | .aslImm sz count d => Sys2Proof.Machine.execAslImm sz count d s
  | .aslReg sz n d => Sys2Proof.Machine.execAslReg sz n d s
  | .aslMem ea => Sys2Proof.Machine.execAslMem ea s
  | .asrImm sz count d => Sys2Proof.Machine.execAsrImm sz count d s
  | .asrReg sz n d => Sys2Proof.Machine.execAsrReg sz n d s
  | .asrMem ea => Sys2Proof.Machine.execAsrMem ea s
  | .btstDyn n ea => Sys2Proof.Machine.execBtstDyn n ea s
  | .btstStatic bit ea => Sys2Proof.Machine.execBtstStatic bit ea s
  | .bchgDyn n ea => Sys2Proof.Machine.execBchgDyn n ea s
  | .bchgStatic bit ea => Sys2Proof.Machine.execBchgStatic bit ea s
  | .bclrDyn n ea => Sys2Proof.Machine.execBclrDyn n ea s
  | .bclrStatic bit ea => Sys2Proof.Machine.execBclrStatic bit ea s
  | .bsetDyn n ea => Sys2Proof.Machine.execBsetDyn n ea s
  | .bsetStatic bit ea => Sys2Proof.Machine.execBsetStatic bit ea s
  | .bra d => Sys2Proof.Machine.execBra d s
  | .bsr d => Sys2Proof.Machine.execBsr d s
  | .bhi d => Sys2Proof.Machine.execBhi d s
  | .bls d => Sys2Proof.Machine.execBls d s
  | .bcc d => Sys2Proof.Machine.execBcc d s
  | .bcs d => Sys2Proof.Machine.execBcs d s
  | .bne d => Sys2Proof.Machine.execBne d s
  | .beq d => Sys2Proof.Machine.execBeq d s
  | .bvc d => Sys2Proof.Machine.execBvc d s
  | .bvs d => Sys2Proof.Machine.execBvs d s
  | .bpl d => Sys2Proof.Machine.execBpl d s
  | .bmi d => Sys2Proof.Machine.execBmi d s
  | .bge d => Sys2Proof.Machine.execBge d s
  | .blt d => Sys2Proof.Machine.execBlt d s
  | .bgt d => Sys2Proof.Machine.execBgt d s
  | .ble d => Sys2Proof.Machine.execBle d s
  | .chk ea n => Sys2Proof.Machine.execChk ea n s
  | .clr sz ea => Sys2Proof.Machine.execClr sz ea s
  | .cmp sz ea n => Sys2Proof.Machine.execCmp sz ea n s
  | .cmpaW ea n => Sys2Proof.Machine.execCmpaW ea n s
  | .cmpaL ea n => Sys2Proof.Machine.execCmpaL ea n s
  | .cmpi sz imm ea => Sys2Proof.Machine.execCmpi sz imm ea s
  | .cmpm sz y x => Sys2Proof.Machine.execCmpm sz y x s
  | .dbt n d16 => Sys2Proof.Machine.execDbt n d16 s
  | .dbf n d16 => Sys2Proof.Machine.execDbf n d16 s
  | .dbhi n d16 => Sys2Proof.Machine.execDbhi n d16 s
  | .dbls n d16 => Sys2Proof.Machine.execDbls n d16 s
  | .dbcc n d16 => Sys2Proof.Machine.execDbcc n d16 s
  | .dbcs n d16 => Sys2Proof.Machine.execDbcs n d16 s
  | .dbne n d16 => Sys2Proof.Machine.execDbne n d16 s
  | .dbeq n d16 => Sys2Proof.Machine.execDbeq n d16 s
  | .dbvc n d16 => Sys2Proof.Machine.execDbvc n d16 s
  | .dbvs n d16 => Sys2Proof.Machine.execDbvs n d16 s
  | .dbpl n d16 => Sys2Proof.Machine.execDbpl n d16 s
  | .dbmi n d16 => Sys2Proof.Machine.execDbmi n d16 s
  | .dbge n d16 => Sys2Proof.Machine.execDbge n d16 s
  | .dblt n d16 => Sys2Proof.Machine.execDblt n d16 s
  | .dbgt n d16 => Sys2Proof.Machine.execDbgt n d16 s
  | .dble n d16 => Sys2Proof.Machine.execDble n d16 s
  | .divu ea n => Sys2Proof.Machine.execDivu ea n s
  | .divs ea n => Sys2Proof.Machine.execDivs ea n s
  | .eor sz n ea => Sys2Proof.Machine.execEor sz n ea s
  | .eori sz imm ea => Sys2Proof.Machine.execEori sz imm ea s
  | .eoriToSr imm => Sys2Proof.Machine.execEoriToSr imm s
  | .exgDd x y => Sys2Proof.Machine.execExgDd x y s
  | .exgAa x y => Sys2Proof.Machine.execExgAa x y s
  | .exgDa x y => Sys2Proof.Machine.execExgDa x y s
  | .extW n => Sys2Proof.Machine.execExtW n s
  | .extL n => Sys2Proof.Machine.execExtL n s

end Sys2Proof.Machine
end

