-- ==== Sys2Proof/Machine/Cycle.lean ====
section
/-! DEFINITION. One instruction from its fetch to its end (R354 of 70_reset_and_hazards.md), in the order of R315
(60_exceptions.md). `step` calls it. -/

namespace Sys2Proof.Machine

open Sys2Proof

/-- The instructions that only supervisor mode may run (R331). -/
def isPrivileged : Instr → Bool
  | .andiToSr _ | .eoriToSr _ => true
  | _ => false

/-- The instruction an operation word announces, its extension words taken as 0: enough for its length and for what is
checked before they are fetched (R118 to R120, R308). -/
def decodeShape (w : Word16) : Except DecodeError Instr :=
  match decodeWords [w, 0, 0, 0, 0] with
  | .ok (i, _) => .ok i
  | .error e => .error e

/-- After an instruction that completes or takes CHK or zero divide (R309): the trace exception, if `T` was set when it
started; it saves the new `pc`. `at_` is the instruction's address. -/
def traceIf (t0 : Bool) (at_ : Long) (s : State) : Res State := if t0 then raise .trace s.pc at_ s else .next s

/-- An instruction whose words are at `pc`, run (R354), then traced (R309). -/
def runWords (ws : List Word16) (s : State) : Res State :=
  match decodeWords ws with
  | .error e => reject e s
  | .ok (i, _) => andThen (exec i s) (traceIf s.sr.t s.pc)

/-- The instruction at `pc` (R354, R315): the operation word is fetched and decoded, privilege is checked (R308), the
extension words are fetched, the instruction runs, the trace rule follows. -/
def State.runOne (s : State) : Res State :=
  andThen (s.fetch16 s.pc) fun w =>
  match decodeShape w with
  | .error e => reject e s
  | .ok shape =>
    if isPrivileged shape && !s.sr.s then raise .privilegeViolation s.pc s.pc s
    else andThen (s.fetchWords (s.pc + 2) (shape.words - 1)) fun ws => runWords (w :: ws) s

/-- A step (R354): the reset procedure while the reset line is asserted (R351); nothing once `pc` is `HALT_ADDR` (R355);
else one instruction, then the interrupt check (R321). -/
def State.cycle (s : State) : Res State :=
  if s.resetLine then s.resetEntry
  else if s.params.haltAddr = some s.pc then .next s
  else andThen s.runOne State.takeIrq

/-- `s` with ten bytes at `pc` (even), mapped, and nothing that would keep the next step from fetching them. -/
def State.placeAtPc (s : State) (bs : List Byte) : State :=
  let pc : Long := s.pc &&& 0xFFFFFFFE
  let mapped := if allBytes s.isMapped pc bs.length then s.params.mapped else ⟨0, 2 ^ 32⟩ :: s.params.mapped
  let halt := if s.params.haltAddr = some pc then none else s.params.haltAddr
  ({ s with pc := pc, resetLine := false, params := { s.params with mapped := mapped, haltAddr := halt } } : State).writeBytes
    pc bs

end Sys2Proof.Machine
end

