-- ==== Sys2Proof/Machine/Step.lean ====
section
/-! DEFINITION. One step of the machine (R354 of 70_reset_and_hazards.md), and the place of the next instruction. -/

namespace Sys2Proof.Machine

open Sys2Proof

/-- One step: an instruction with its trace and interrupt checks, or the reset procedure. -/
def step (s : State) : Host.Outcome State Fault Refusal := s.cycle

/-- `s` with the instruction of the host's numbering placed where `step` fetches: at `pc` (log 3). -/
def State.withFetchWord (s : State) (nbits w : Nat) : State := s.placeAtPc (tableBytes nbits w)

end Sys2Proof.Machine
end

