-- ==== Sys2Proof/Machine/Launch.lean ====
section
/-! DEFINITION. How a run starts (R350, R351 of 70_reset_and_hazards.md): `RESET_MODEL` chooses between the state a caller
supplies and the hardware's reset on it. -/

namespace Sys2Proof.Machine

open Sys2Proof

/-- What the caller of a run supplies (R350): the parameters, the program counter, and whichever of the status register,
the registers and the bytes of memory the program needs. -/
structure Launch where
  params : Params
  pc     : Long
  sr     : Option (BitVec 16)
  d      : Vector (Option Long) 8
  a      : Vector (Option Long) 7
  usp    : Option Long
  ssp    : Option Long
  mem    : List (Long × Byte)
deriving DecidableEq, Repr

/-- One byte of the launch memory, where the platform has memory (R58, R350). -/
def State.launchByte (s : State) (c : Long × Byte) : State := if s.isMapped c.1 then s.writeByte c.1 c.2 else s

/-- The data registers of a launch; one that is not supplied is 0 (log 2). -/
def Launch.dregs (l : Launch) : Vector Long 8 :=
  let v (n : Fin 8) : Long := l.d[n].getD 0
  #v[v 0, v 1, v 2, v 3, v 4, v 5, v 6, v 7]

/-- `A[0]` to `A[6]` of a launch; one that is not supplied is 0 (log 2). -/
def Launch.aregs (l : Launch) : Vector Long 7 :=
  let v (n : Fin 7) : Long := l.a[n].getD 0
  #v[v 0, v 1, v 2, v 3, v 4, v 5, v 6]

/-- The state the caller supplies (R350): `SR` is 0x0000 unless supplied, user mode, no trace, mask 0. A register that is
not supplied is 0 (log 2); a byte of memory that is not supplied reads as `memFill` says. -/
def State.launched (l : Launch) : State :=
  l.mem.foldl State.launchByte
    { State.reset with
      params := l.params
      pc := l.pc
      sr := Status.ofWord (l.sr.getD 0)
      d := l.dregs
      a := l.aregs
      usp := l.usp.getD 0
      ssp := l.ssp.getD 0 }

/-- The start of a run by `RESET_MODEL`: the supplied state (R350), or the reset procedure on it (R351). -/
def State.start (l : Launch) : Res State :=
  match l.params.resetModel with
  | .launchState => .next (State.launched l)
  | .vectorFetch => (State.launched l).resetEntry

/-- A launch that supplies nothing but the parameters of an MC68000, whose `RESET_MODEL` is the hardware's reset. -/
def Launch.empty : Launch where
  params := Params.mc68000
  pc     := 0
  sr     := none
  d      := Vector.replicate 8 none
  a      := Vector.replicate 7 none
  usp    := none
  ssp    := none
  mem    := []

end Sys2Proof.Machine
end

