-- ==== Sys2Proof/Safety.lean ====
section
/-! DEFINITION. The terms statements are made in: which accesses succeed, what an operand holds, where a result goes, the
registers and the memory bytes an instruction may write (its footprint), the exception it takes, the invariant that
every step keeps, and a safe step. -/

namespace Sys2Proof

/-! ## Footprints: registers -/

/-- The data registers of a destination operand. -/
def EA.destD : EA → List RegNum
  | .dn n => [n]
  | _ => []

/-- The address registers that reading or writing an operand updates (R68, R69). -/
def EA.sideA : EA → List RegNum
  | .postinc n | .predec n => [n]
  | _ => []

/-- The address registers of a destination operand that is one (ADDQ), or that its mode updates. -/
def EA.destA : EA → List RegNum
  | .an n => [n]
  | ea => ea.sideA

/-- The data registers an instruction may write. -/
def Instr.destD : Instr → List RegNum
  | .abcdReg _ x | .addxReg _ _ x => [x]
  | .addEaDn _ _ n | .andEaDn _ _ n | .divu _ n | .divs _ n | .extW n | .extL n => [n]
  | .aslImm _ _ d | .aslReg _ _ d | .asrImm _ _ d | .asrReg _ _ d => [d]
  | .addi _ _ ea | .addq _ _ ea | .andi _ _ ea | .eori _ _ ea | .eor _ _ ea | .clr _ ea => ea.destD
  | .bchgDyn _ ea | .bchgStatic _ ea | .bclrDyn _ ea | .bclrStatic _ ea | .bsetDyn _ ea | .bsetStatic _ ea => ea.destD
  | .dbf n _ | .dbhi n _ | .dbls n _ | .dbcc n _ | .dbcs n _ | .dbne n _ | .dbeq n _ | .dbvc n _ | .dbvs n _
  | .dbpl n _ | .dbmi n _ | .dbge n _ | .dblt n _ | .dbgt n _ | .dble n _ => [n]
  | .exgDd x y => [x, y]
  | .exgDa x _ => [x]
  | .abcdMem _ _ | .addxMem _ _ _ | .addDnEa _ _ _ | .andDnEa _ _ _ | .aslMem _ | .asrMem _ | .addaW _ _ | .addaL _ _
  | .andiToSr _ | .eoriToSr _ | .btstDyn _ _ | .btstStatic _ _
  | .bra _ | .bsr _ | .bhi _ | .bls _ | .bcc _ | .bcs _ | .bne _ | .beq _ | .bvc _ | .bvs _ | .bpl _ | .bmi _
  | .bge _ | .blt _ | .bgt _ | .ble _
  | .chk _ _ | .cmp _ _ _ | .cmpaW _ _ | .cmpaL _ _ | .cmpi _ _ _ | .cmpm _ _ _ | .dbt _ _ | .exgAa _ _ => []

/-- The address registers an instruction may write: its destination, those its addressing modes update, and `A7` for
BSR. -/
def Instr.destA : Instr → List RegNum
  | .abcdMem y x | .addxMem _ y x | .cmpm _ y x => [y, x]
  | .addEaDn _ ea _ | .andEaDn _ ea _ | .cmp _ ea _ | .cmpaW ea _ | .cmpaL ea _ | .chk ea _ | .divu ea _ | .divs ea _ =>
      ea.sideA
  | .addDnEa _ _ ea | .andDnEa _ _ ea | .aslMem ea | .asrMem ea | .addi _ _ ea | .andi _ _ ea | .cmpi _ _ ea
  | .eori _ _ ea | .eor _ _ ea | .clr _ ea => ea.sideA
  | .btstDyn _ ea | .btstStatic _ ea | .bchgDyn _ ea | .bchgStatic _ ea | .bclrDyn _ ea | .bclrStatic _ ea
  | .bsetDyn _ ea | .bsetStatic _ ea => ea.sideA
  | .addaW ea n | .addaL ea n => n :: ea.sideA
  | .addq _ _ ea => ea.destA
  | .bsr _ => [7]
  | .exgAa x y => [x, y]
  | .exgDa _ y => [y]
  | .abcdReg _ _ | .addxReg _ _ _ | .aslImm _ _ _ | .aslReg _ _ _ | .asrImm _ _ _ | .asrReg _ _ _
  | .andiToSr _ | .eoriToSr _
  | .bra _ | .bhi _ | .bls _ | .bcc _ | .bcs _ | .bne _ | .beq _ | .bvc _ | .bvs _ | .bpl _ | .bmi _
  | .bge _ | .blt _ | .bgt _ | .ble _
  | .dbt _ _ | .dbf _ _ | .dbhi _ _ | .dbls _ _ | .dbcc _ _ | .dbcs _ _ | .dbne _ _ | .dbeq _ _
  | .dbvc _ _ | .dbvs _ _ | .dbpl _ _ | .dbmi _ _ | .dbge _ _ | .dblt _ _ | .dbgt _ _ | .dble _ _
  | .exgDd _ _ | .extW _ | .extL _ => []

/-! ## Operation words that are no instruction (R118, R119) -/

/-- The operation word of an instruction (R90). -/
def Instr.opcode (i : Instr) : Word16 := i.encode.headD 0

/-- The operand in the effective-address field of the operation word, where it has one (R94). -/
def Instr.ea : Instr → Option EA
  | .addEaDn _ ea _ | .addDnEa _ _ ea | .addaW ea _ | .addaL ea _ | .addi _ _ ea | .addq _ _ ea
  | .andEaDn _ ea _ | .andDnEa _ _ ea | .andi _ _ ea | .aslMem ea | .asrMem ea
  | .btstDyn _ ea | .btstStatic _ ea | .bchgDyn _ ea | .bchgStatic _ ea | .bclrDyn _ ea | .bclrStatic _ ea
  | .bsetDyn _ ea | .bsetStatic _ ea
  | .chk ea _ | .clr _ ea | .cmp _ ea _ | .cmpaW ea _ | .cmpaL ea _ | .cmpi _ _ ea | .divu ea _ | .divs ea _
  | .eor _ _ ea | .eori _ _ ea => some ea
  | .abcdReg _ _ | .abcdMem _ _ | .addxReg _ _ _ | .addxMem _ _ _ | .andiToSr _ | .eoriToSr _
  | .aslImm _ _ _ | .aslReg _ _ _ | .asrImm _ _ _ | .asrReg _ _ _
  | .bra _ | .bsr _ | .bhi _ | .bls _ | .bcc _ | .bcs _ | .bne _ | .beq _ | .bvc _ | .bvs _ | .bpl _ | .bmi _
  | .bge _ | .blt _ | .bgt _ | .ble _ | .cmpm _ _ _
  | .dbt _ _ | .dbf _ _ | .dbhi _ _ | .dbls _ _ | .dbcc _ _ | .dbcs _ _ | .dbne _ _ | .dbeq _ _
  | .dbvc _ _ | .dbvs _ _ | .dbpl _ _ | .dbmi _ _ | .dbge _ _ | .dblt _ _ | .dbgt _ _ | .dble _ _
  | .exgDd _ _ | .exgAa _ _ | .exgDa _ _ | .extW _ | .extL _ => none

/-- The forms of R119 (c): an operand outside the category, on a pattern that no other instruction is known to take. The
immediate destination of ANDI and EORI is one with size L alone: the others are ANDI and EORI to CCR and to SR. -/
def Instr.illegalForm : Instr → Bool
  | .addi _ _ ea | .cmpi _ _ ea | .clr _ ea => ea.kind == .an || !ea.kind.isAlterable
  | .andi sz _ ea | .eori sz _ ea => ea.kind == .an || (!ea.kind.isAlterable && (ea.kind != .imm || sz == .l))
  | .addq sz _ ea => (ea.kind == .an && sz == .b) || !ea.kind.isAlterable
  | .bchgDyn _ ea | .bchgStatic _ ea | .bclrDyn _ ea | .bclrStatic _ ea | .bsetDyn _ ea | .bsetStatic _ ea
  | .eor _ _ ea | .addDnEa _ _ ea | .andDnEa _ _ ea | .aslMem ea | .asrMem ea => !ea.kind.isAlterable
  | .andEaDn _ ea _ | .chk ea _ | .divs ea _ | .divu ea _ => ea.kind == .an
  | .addEaDn sz ea _ | .cmp sz ea _ => ea.kind == .an && sz == .b
  | .btstStatic _ ea => ea.kind == .imm
  | _ => false

/-- The operation words of R119: (a) the designated one; (b) mode 111 with register 101, 110 or 111 where an instruction
of the table has its effective-address field; (c) the forms above. -/
def illegalWord (w : Word16) : Prop :=
  w = 0x4AFC ∨
  (∃ (i : Instr) (x : Fin 8), i.ea = some (.absW 0) ∧ 5 ≤ x.val ∧ w = i.opcode + BitVec.ofNat 16 x.val) ∨
  ∃ i : Instr, i.illegalForm = true ∧ w = i.opcode

end Sys2Proof

namespace Sys2Proof.Machine

open Sys2Proof

/-! ## Accesses and operands -/

/-- The value a read of an address gives, `none` where it faults: aligned, mapped, and every byte holds a value. -/
def State.load (s : State) (a : Long) (sz : Size) : Option (BitVec sz.bits) :=
  if aligned a sz.bytes && allBytes s.isMapped a sz.bytes then
    (s.readBytes a sz.bytes).map fun bs => BitVec.ofNat sz.bits (beValue bs)
  else none

/-- A write of an address succeeds: aligned, mapped, and no byte belongs to the program. -/
def State.storable (s : State) (a : Long) (sz : Size) : Bool :=
  aligned a sz.bytes && allBytes s.isMapped a sz.bytes && allBytes (fun b => !s.isCode b) a sz.bytes

/-- A value stored at an address, the most significant byte at the lowest address (R54). -/
def State.stored (s : State) (a : Long) (sz : Size) (v : BitVec sz.bits) : State :=
  s.writeBytes a (beBytes sz.bytes v.toNat)

/-- What an operand holds, `none` where reading it stops. -/
def State.operand (s : State) (sz : Size) (ea : EA) (ext : Long) : Option (BitVec sz.bits) :=
  match ea with
  | .dn n => some (s.readD n sz)
  | .an n => some ((s.readA n).setWidth sz.bits)
  | .imm raw => some (raw.setWidth sz.bits)
  | ea => if s.briefRefused ea then none else s.load (s.eaAddress sz ea ext) sz

/-- A result can be put into a destination operand. -/
def State.canPut (s : State) (sz : Size) (ea : EA) (ext : Long) : Bool :=
  match ea with
  | .dn _ => true
  | ea => ea.kind.isMem && !s.briefRefused ea && s.storable (s.eaAddress sz ea ext) sz

/-- A result put into a destination operand, with its mode's side effect. -/
def State.put (s : State) (sz : Size) (ea : EA) (ext : Long) (r : BitVec sz.bits) : State :=
  match ea with
  | .dn n => s.writeD n sz r
  | ea => (s.eaUpdate sz ea).stored (s.eaAddress sz ea ext) sz r

/-- The stack pointer that `S` does not select is the same (R24). -/
def State.sameInactive (s t : State) : Prop := (s.sr.s = true → t.usp = s.usp) ∧ (s.sr.s = false → t.ssp = s.ssp)

/-! ## Footprints: memory, exceptions -/

/-- The address and the number of bytes a destination operand in memory takes. -/
def State.memDest (s : State) (sz : Size) (ea : EA) (own : Nat) : Option (Long × Nat) :=
  if ea.kind.isMem then some (s.eaAddress sz ea (s.extAt own), sz.bytes) else none

/-- Where an instruction stores, and how many bytes; `none` for a form that stores nothing. The destination of ABCD
and ADDX in memory is computed after the source's predecrement. -/
def storeTo (i : Instr) (s : State) : Option (Long × Nat) :=
  match i with
  | .abcdMem y x => (s.eaUpdate .b (.predec y)).memDest .b (.predec x) 0
  | .addxMem sz y x => (s.eaUpdate sz (.predec y)).memDest sz (.predec x) 0
  | .addDnEa sz _ ea | .andDnEa sz _ ea | .eor sz _ ea | .addq sz _ ea | .clr sz ea => s.memDest sz ea 0
  | .addi sz _ ea | .andi sz _ ea | .eori sz _ ea => s.memDest sz ea sz.immCount
  | .aslMem ea | .asrMem ea => s.memDest .w ea 0
  | .bchgDyn _ ea | .bclrDyn _ ea | .bsetDyn _ ea => s.memDest .b ea 0
  | .bchgStatic _ ea | .bclrStatic _ ea | .bsetStatic _ ea => s.memDest .b ea 1
  | .bsr _ => some (s.a7 - 4, 4)
  | .abcdReg _ _ | .addxReg _ _ _ | .addEaDn _ _ _ | .andEaDn _ _ _ | .addaW _ _ | .addaL _ _
  | .andiToSr _ | .eoriToSr _ | .aslImm _ _ _ | .aslReg _ _ _ | .asrImm _ _ _ | .asrReg _ _ _
  | .btstDyn _ _ | .btstStatic _ _
  | .bra _ | .bhi _ | .bls _ | .bcc _ | .bcs _ | .bne _ | .beq _ | .bvc _ | .bvs _ | .bpl _ | .bmi _
  | .bge _ | .blt _ | .bgt _ | .ble _
  | .chk _ _ | .cmp _ _ _ | .cmpaW _ _ | .cmpaL _ _ | .cmpi _ _ _ | .cmpm _ _ _ | .divu _ _ | .divs _ _
  | .dbt _ _ | .dbf _ _ | .dbhi _ _ | .dbls _ _ | .dbcc _ _ | .dbcs _ _ | .dbne _ _ | .dbeq _ _
  | .dbvc _ _ | .dbvs _ _ | .dbpl _ _ | .dbmi _ _ | .dbge _ _ | .dblt _ _ | .dbgt _ _ | .dble _ _
  | .exgDd _ _ | .exgAa _ _ | .exgDa _ _ | .extW _ | .extL _ => none

/-! ## The accesses an instruction makes of its operands (R66, R74, R76, R77) -/

/-- One access of an operand, or of the stack by BSR. -/
structure Access where
  kind : AccessKind
  addr : Long
  size : Size
deriving DecidableEq, Repr

/-- An access made, for what stops it alone: a write stops whatever value is written (R56, R57). -/
def State.access (s : State) (x : Access) : Res Unit :=
  match x.kind with
  | .write => andThen (s.memWrite x.addr x.size 0) fun _ => .next ()
  | k => andThen (s.memRead x.addr x.size k) fun _ => .next ()

/-- Accesses one after another: the first that stops. -/
def State.accessAll (s : State) : List Access → Res Unit
  | [] => .next ()
  | x :: xs => andThen (s.access x) fun _ => s.accessAll xs

/-- The accesses of an operand after `own` words of the instruction's own: none where it is no memory location. -/
def State.operandAccesses (s : State) (sz : Size) (ea : EA) (own : Nat) (kinds : List AccessKind) : List Access :=
  if ea.kind.isMem then kinds.map fun k => ⟨k, s.eaAddress sz ea (s.extAt own), sz⟩ else []

/-- The accesses of an instruction's operands, in their order. The last alone may be a write, so each finds the memory the
instruction started with. -/
def State.accesses (s : State) : Instr → List Access
  | .addEaDn sz ea _ | .andEaDn sz ea _ | .cmp sz ea _ => s.operandAccesses sz ea 0 [.read]
  | .addaW ea _ | .cmpaW ea _ | .chk ea _ | .divu ea _ | .divs ea _ => s.operandAccesses .w ea 0 [.read]
  | .addaL ea _ | .cmpaL ea _ => s.operandAccesses .l ea 0 [.read]
  | .cmpi sz _ ea => s.operandAccesses sz ea sz.immCount [.read]
  | .btstDyn _ ea => s.operandAccesses .b ea 0 [.read]
  | .btstStatic _ ea => s.operandAccesses .b ea 1 [.read]
  | .addDnEa sz _ ea | .andDnEa sz _ ea | .eor sz _ ea | .addq sz _ ea => s.operandAccesses sz ea 0 [.read, .write]
  | .addi sz _ ea | .andi sz _ ea | .eori sz _ ea => s.operandAccesses sz ea sz.immCount [.read, .write]
  | .aslMem ea | .asrMem ea => s.operandAccesses .w ea 0 [.read, .write]
  | .bchgDyn _ ea | .bclrDyn _ ea | .bsetDyn _ ea => s.operandAccesses .b ea 0 [.read, .write]
  | .bchgStatic _ ea | .bclrStatic _ ea | .bsetStatic _ ea => s.operandAccesses .b ea 1 [.read, .write]
  | .clr sz ea => s.operandAccesses sz ea 0 [.write]
  | .abcdMem y x =>
      s.operandAccesses .b (.predec y) 0 [.read] ++
        (s.eaUpdate .b (.predec y)).operandAccesses .b (.predec x) 0 [.read, .write]
  | .addxMem sz y x =>
      s.operandAccesses sz (.predec y) 0 [.read] ++
        (s.eaUpdate sz (.predec y)).operandAccesses sz (.predec x) 0 [.read, .write]
  | .cmpm sz y x =>
      s.operandAccesses sz (.postinc y) 0 [.read] ++
        (s.eaUpdate sz (.postinc y)).operandAccesses sz (.postinc x) 0 [.read]
  | .bsr _ => [⟨.write, s.a7 - 4, .l⟩]
  | .abcdReg _ _ | .addxReg _ _ _ | .andiToSr _ | .eoriToSr _
  | .aslImm _ _ _ | .aslReg _ _ _ | .asrImm _ _ _ | .asrReg _ _ _
  | .bra _ | .bhi _ | .bls _ | .bcc _ | .bcs _ | .bne _ | .beq _ | .bvc _ | .bvs _ | .bpl _ | .bmi _
  | .bge _ | .blt _ | .bgt _ | .ble _
  | .dbt _ _ | .dbf _ _ | .dbhi _ _ | .dbls _ _ | .dbcc _ _ | .dbcs _ _ | .dbne _ _ | .dbeq _ _
  | .dbvc _ _ | .dbvs _ _ | .dbpl _ _ | .dbmi _ _ | .dbge _ _ | .dblt _ _ | .dbgt _ _ | .dble _ _
  | .exgDd _ _ | .exgAa _ _ | .exgDa _ _ | .extW _ | .extL _ => []

/-! ## Frames -/

/-- The 6-byte frame of an exception or interrupt on the supervisor stack (R310): `SR` at the lowest address, then the
saved program counter. -/
def State.framed (s : State) (spc : Long) : State :=
  (s.stored (s.ssp - 4) .l spc).stored (s.ssp - 6) .w s.sr.word

/-- The memory of a frame can be written (R310). -/
def State.frameFits (s : State) : Bool := s.storable (s.ssp - 4) .l && s.storable (s.ssp - 6) .w

/-- The address is outside `k` bytes from `a` on. -/
def State.outside (s : State) (b a : Long) (k : Nat) : Prop := ∀ j < k, s.phys b ≠ s.phys (a + BitVec.ofNat 32 j)

/-- The value of CHK's register is out of bounds (R231). -/
def chkOut (v bound : BitVec 16) : Bool := decide (v.toInt < 0) || decide (bound.toInt < v.toInt)

/-- The exception an instruction itself takes (R303): CHK out of bounds, a zero divisor, a privileged form in user
mode. -/
def trapOf (i : Instr) (s : State) : Option Exc :=
  match i with
  | .chk ea n =>
    match s.operand .w ea (s.extAt 0) with
    | some bound => if chkOut (s.readD n .w) bound then some .chk else none
    | none => none
  | .divu ea _ | .divs ea _ => if s.operand .w ea (s.extAt 0) = some 0 then some .zeroDivide else none
  | .andiToSr _ | .eoriToSr _ => if s.sr.s then none else some .privilegeViolation
  | _ => none

/-- The forms of ANDI and EORI that write the whole status register. -/
def writesSr : Instr → Bool
  | .andiToSr _ | .eoriToSr _ => true
  | _ => false

/-- The instructions that change no flag: the branches, DBcc, EXG, and additions into an address register where
`ADDA_CCR` leaves the flags (R143, R145). -/
def keepsFlags (i : Instr) (s : State) : Bool :=
  match i with
  | .bra _ | .bsr _ | .bhi _ | .bls _ | .bcc _ | .bcs _ | .bne _ | .beq _ | .bvc _ | .bvs _ | .bpl _ | .bmi _
  | .bge _ | .blt _ | .bgt _ | .ble _
  | .dbt _ _ | .dbf _ _ | .dbhi _ _ | .dbls _ _ | .dbcc _ _ | .dbcs _ _ | .dbne _ _ | .dbeq _ _
  | .dbvc _ _ | .dbvs _ _ | .dbpl _ _ | .dbmi _ _ | .dbge _ _ | .dblt _ _ | .dbgt _ _ | .dble _ _
  | .exgDd _ _ | .exgAa _ _ | .exgDa _ _ => true
  | .addaW _ _ | .addaL _ _ | .addq _ _ (.an _) => s.params.addaCcr == .unaffected
  | _ => false

/-- The instructions whose only flag is `Z` (R190). -/
def onlyZ : Instr → Bool
  | .btstDyn _ _ | .btstStatic _ _ | .bchgDyn _ _ | .bchgStatic _ _ | .bclrDyn _ _ | .bclrStatic _ _ | .bsetDyn _ _
  | .bsetStatic _ _ => true
  | _ => false

/-- The instructions that write flags and leave `X`. -/
def keepsX : Instr → Bool
  | .andEaDn _ _ _ | .andDnEa _ _ _ | .andi _ _ _ | .eor _ _ _ | .eori _ _ _ | .chk _ _ | .clr _ _ | .cmp _ _ _
  | .cmpaW _ _ | .cmpaL _ _ | .cmpi _ _ _ | .cmpm _ _ _ | .divu _ _ | .divs _ _ | .extW _ | .extL _ => true
  | _ => false

/-! ## A shift one place at a time (R170, R172, R176) -/

/-- A value being shifted, the last bit moved out, and whether the top bit has changed so far. -/
structure ShiftState (k : Nat) where
  value   : BitVec k
  last    : Bool
  changed : Bool

/-- One place to the left: the top bit moves out, a 0 moves in. -/
def ShiftState.left {k : Nat} (p : ShiftState k) : ShiftState k :=
  let r := p.value <<< 1
  ⟨r, p.value.msb, p.changed || p.value.msb != r.msb⟩

/-- One place to the right: the lowest bit moves out, `fill` moves in at the top. -/
def ShiftState.right {k : Nat} (fill : Bool) (p : ShiftState k) : ShiftState k :=
  let r := (p.value >>> 1) ||| (if fill then BitVec.intMin k else 0)
  ⟨r, p.value.getLsbD 0, p.changed || p.value.msb != r.msb⟩

/-! ## The invariant and safety -/

/-- What every step keeps: memory is in its canonical form, and every listed byte is at a physical address of the
platform's memory (R52, R58). -/
def State.Inv (s : State) : Prop :=
  Memory.wf s.params.memFill s.mem ∧
    ∀ c ∈ s.mem, c.1 < 2 ^ s.params.addrBits.count ∧ inRegions s.params.mapped c.1 = true

/-- A safe step: the machine goes on. -/
def State.safe (s : State) : Prop := ∃ t, step s = .next t

end Sys2Proof.Machine
end

