-- ==== Sys2Proof/Certificates/Slice0/Obligations.lean ====
section
/-! DEFINITION. The statements about the model, for the provers. Each docstring names the rules of spec/ it formalises;
OBLIGATIONS.json lists them. -/

open Sys2Proof Sys2Proof.Machine

/-! ## Encoding -/

/-- Words written out from the encodings of R106 and R110 to R117 decode to the instructions they stand for. -/
def Obligations.DecodeSampleWords : Prop :=
  decodeWords [0xC308] = .ok (.abcdMem 0 1, []) ∧
  decodeWords [0xD068, 0xFFFE] = .ok (.addEaDn .w (.disp 0 0xFFFE) 0, []) ∧
  decodeWords [0x0668, 0x0005, 0x0008] = .ok (.addi .w 5 (.disp 0 8), []) ∧
  decodeWords [0xC190] = .ok (.andDnEa .l 0 (.ind 0), []) ∧
  decodeWords [0x027C, 0xF8FF] = .ok (.andiToSr 0xF8FF, []) ∧
  decodeWords [0xE3A0] = .ok (.aslReg .l 1 0, []) ∧
  decodeWords [0x0878, 0x0007, 0x2001] = .ok (.bchgStatic 7 (.absW 0x2001), []) ∧
  decodeWords [0x6E02] = .ok (.bgt (.byte 2), []) ∧
  decodeWords [0x41BC, 0x0004] = .ok (.chk (.imm 4) 0, []) ∧
  decodeWords [0xB348] = .ok (.cmpm .w 0 1, []) ∧
  decodeWords [0x56C9, 0x0010] = .ok (.dbne 1 0x10, []) ∧
  decodeWords [0x81FC, 0xFFFD] = .ok (.divs (.imm 0xFFFD) 0, []) ∧
  decodeWords [0xC18F] = .ok (.exgDa 0 7, []) ∧
  decodeWords [0xD008] = .error .illegalInstruction ∧
  decodeWords [0x4E71] = .error .notInSpec

/-- Every well-formed instruction, encoded (R95, R106), decodes to itself (R122), whatever words follow. -/
def Obligations.EncodeThenDecode : Prop :=
  ∀ (i : Instr) (rest : List Word16), i.wf = true → decodeWords (i.encode ++ rest) = .ok (i, rest)

/-- What decodes is well-formed, and its encoding is the words it was decoded from: no bit is dropped (R122). -/
def Obligations.DecodeThenEncode : Prop :=
  ∀ (ws rest : List Word16) (i : Instr), decodeWords ws = .ok (i, rest) → i.wf = true ∧ ws = i.encode ++ rest

/-! ## The step -/

/-- Where the bytes at `pc` are a well-formed instruction that the mode may run, a step runs that instruction, takes the
trace exception after it if `T` was set (R309), and then makes the interrupt check (R354, R315, R321). At `HALT_ADDR` the
run is over (R355). The model's choices: that the trace after a CHK or a zero divide that is taken saves the handler's
address (log 27), that the interrupt check stands at the end of the step (log 33), and that a step at `HALT_ADDR` answers
the same state (log 10). -/
def Obligations.StepRunsDecodedInstruction : Prop :=
  (∀ (i : Instr) (s : State), i.wf = true → s.resetLine = false → s.params.haltAddr ≠ some s.pc →
    aligned s.pc 2 = true → allBytes s.isMapped s.pc i.ilen = true →
    s.readBytes s.pc i.ilen = some (i.encode.flatMap wordBytes) → (isPrivileged i = true → s.sr.s = true) →
    step s =
      andThen (andThen (exec i s) fun t => if s.sr.t then raise .trace t.pc s.pc t else .next t) State.takeIrq) ∧
  ∀ s : State, s.resetLine = false → s.params.haltAddr = some s.pc → step s = .next s

/-- Operation words 1010 and 1111 and the words of R119 raise their exceptions, of vectors 10, 11 and 4, saving the address
of the word, whatever follows it (R119, R120, R303, R314); no trace exception follows (R309). Any other word that is the
operation word of no instruction is refused (R118). The model's choices: which words R119's list names (log 20), and that
the interrupt check closes the step (log 33). -/
def Obligations.UnassignedWordsTrap : Prop :=
  Exc.lineA.vector = 10 ∧ Exc.lineF.vector = 11 ∧ Exc.illegalInstruction.vector = 4 ∧
  ∀ (s : State) (w : Word16), s.resetLine = false → s.params.haltAddr ≠ some s.pc → s.load s.pc .w = some w →
    (w.toNat / 4096 = 10 → step s = andThen (raise .lineA s.pc s.pc s) State.takeIrq) ∧
    (w.toNat / 4096 = 15 → step s = andThen (raise .lineF s.pc s.pc s) State.takeIrq) ∧
    (w = 0x4AFC ∨ illegalWord w → step s = andThen (raise .illegalInstruction s.pc s.pc s) State.takeIrq) ∧
    (w.toNat / 4096 ≠ 10 → w.toNat / 4096 ≠ 15 → ¬illegalWord w → (∀ i : Instr, i.wf = true → i.opcode ≠ w) →
      step s = .refused .notInSpec)

/-- In user mode ANDI to SR and EORI to SR raise the privilege violation, of vector 8, with the state unchanged and the
address of the instruction saved (R308), before the immediate word is fetched (R315). The model's choices: the form of
that check (log 18), and that the interrupt check closes the step (log 33). -/
def Obligations.PrivilegedInUserMode : Prop :=
  Exc.privilegeViolation.vector = 8 ∧
  (∀ (s : State) (imm : BitVec 16), s.sr.s = false →
    exec (.andiToSr imm) s = raise .privilegeViolation s.pc s.pc s ∧
    exec (.eoriToSr imm) s = raise .privilegeViolation s.pc s.pc s) ∧
  (∀ (s : State) (w : Word16), s.sr.s = false → s.resetLine = false → s.params.haltAddr ≠ some s.pc →
    s.load s.pc .w = some w → w = 0x027C ∨ w = 0x0A7C →
    step s = andThen (raise .privilegeViolation s.pc s.pc s) State.takeIrq)

/-- Under `TRAP_MODEL = fault` an instruction that starts with `T` set and completes ends the run in the trace exception,
with the new `pc` (R301, R309). -/
def Obligations.TraceEndsTheRun : Prop :=
  ∀ (i : Instr) (s t : State), i.wf = true → s.resetLine = false → s.params.haltAddr ≠ some s.pc →
    aligned s.pc 2 = true → allBytes s.isMapped s.pc i.ilen = true →
    s.readBytes s.pc i.ilen = some (i.encode.flatMap wordBytes) → (isPrivileged i = true → s.sr.s = true) →
    s.params.trapModel = .fault → s.sr.t = true → exec i s = .next t → step s = .fault (.raised .trace t.pc t)

/-! ## Exceptions, interrupts, reset -/

/-- Under `TRAP_MODEL = fault` raising an exception ends the run, with the state as the raising rule left it (R301). -/
def Obligations.RaiseEndsTheRun : Prop :=
  ∀ (e : Exc) (spc pc0 : Long) (s : State), s.params.trapModel = .fault →
    raise e spc pc0 s = .fault (.raised e spc s)

/-- The vectored entry (R310): supervisor mode, no trace, the mask kept, the 6-byte frame with the old `SR` and the saved
`pc` pushed on `SSP`, `pc` from the vector; nothing else changes. -/
def Obligations.VectoredEntry : Prop :=
  ∀ (e : Exc) (spc pc0 h : Long) (s : State), s.Inv → s.params.trapModel = .vectored →
    s.params.frameFormat = .mc68000 → s.frameFits = true →
    (s.framed spc).load (s.params.vectorBase + BitVec.ofNat 32 (4 * e.vector)) .l = some h →
    ∃ t, raise e spc pc0 s = .next t ∧
      t = (((s.framed spc).setSsp (s.ssp - 6)).setSr { s.sr with s := true, t := false }).setPc h ∧
      t.load t.ssp .w = some s.sr.word ∧ t.load (t.ssp + 2) .l = some spc ∧
      ∀ b, s.outside b (s.ssp - 6) 6 → t.readByte b = s.readByte b

/-- Under `FRAME_FORMAT = format_word` a word with the format 0 and the vector's offset is pushed before the frame
(R312). -/
def Obligations.FormatWordFrame : Prop :=
  ∀ (e : Exc) (spc pc0 h : Long) (s : State), s.params.trapModel = .vectored →
    s.params.frameFormat = .formatWord → s.storable (s.ssp - 2) .w = true →
    let u := (s.stored (s.ssp - 2) .w (BitVec.ofNat 16 (4 * e.vector))).setSsp (s.ssp - 2)
    u.frameFits = true →
    (u.framed spc).load (s.params.vectorBase + BitVec.ofNat 32 (4 * e.vector)) .l = some h →
    raise e spc pc0 s =
      .next ((((u.framed spc).setSsp (s.ssp - 8)).setSr { s.sr with s := true, t := false }).setPc h)

/-- The MC68020 pushes, for CHK, zero divide and trace, the address of the instruction and a word with the format 2
before the frame, and for the other exceptions a word with the format 0 (R312; that the MC68020's frames are a value of
`FRAME_FORMAT` is log 25). -/
def Obligations.LongFrame : Prop :=
  (∀ (e : Exc) (spc pc0 h : Long) (s : State), e = .chk ∨ e = .zeroDivide ∨ e = .trace →
    s.params.trapModel = .vectored → s.params.frameFormat = .mc68020 →
    s.storable (s.ssp - 4) .l = true → s.storable (s.ssp - 6) .w = true →
    let u :=
      ((s.stored (s.ssp - 4) .l pc0).stored (s.ssp - 6) .w (BitVec.ofNat 16 (0x2000 + 4 * e.vector))).setSsp (s.ssp - 6)
    u.frameFits = true →
    (u.framed spc).load (s.params.vectorBase + BitVec.ofNat 32 (4 * e.vector)) .l = some h →
    raise e spc pc0 s =
      .next ((((u.framed spc).setSsp (s.ssp - 12)).setSr { s.sr with s := true, t := false }).setPc h)) ∧
  ∀ (e : Exc) (spc pc0 h : Long) (s : State), e ≠ .chk → e ≠ .zeroDivide → e ≠ .trace →
    s.params.trapModel = .vectored → s.params.frameFormat = .mc68020 → s.storable (s.ssp - 2) .w = true →
    let u := (s.stored (s.ssp - 2) .w (BitVec.ofNat 16 (4 * e.vector))).setSsp (s.ssp - 2)
    u.frameFits = true →
    (u.framed spc).load (s.params.vectorBase + BitVec.ofNat 32 (4 * e.vector)) .l = some h →
    raise e spc pc0 s =
      .next ((((u.framed spc).setSsp (s.ssp - 8)).setSr { s.sr with s := true, t := false }).setPc h)

/-- The double fault (R316): an address or bus error of a vectored entry is one; so an odd supervisor stack pointer, a
frame that is not mapped, and a vector that is not mapped or at an odd address give it (R310). -/
def Obligations.EntryDoubleFaults : Prop :=
  ∀ (e : Exc) (spc pc0 : Long) (s : State), s.params.trapModel = .vectored →
    let vector := s.params.vectorBase + BitVec.ofNat 32 (4 * e.vector)
    (∀ a k, raise e spc pc0 s ≠ .fault (.addressError a k) ∧ raise e spc pc0 s ≠ .fault (.busError a k)) ∧
    (s.ssp.toNat % 2 = 1 → raise e spc pc0 s = .fault .doubleFault) ∧
    (s.params.frameFormat = .mc68000 →
      ((∃ j < 4, s.isMapped (s.ssp - 4 + BitVec.ofNat 32 j) = false) → raise e spc pc0 s = .fault .doubleFault) ∧
      (s.storable (s.ssp - 4) .l = true → (∃ j < 2, s.isMapped (s.ssp - 6 + BitVec.ofNat 32 j) = false) →
        raise e spc pc0 s = .fault .doubleFault) ∧
      (s.frameFits = true → (∃ j < 4, s.isMapped (vector + BitVec.ofNat 32 j) = false) ∨ vector.toNat % 2 = 1 →
        raise e spc pc0 s = .fault .doubleFault))

/-- An interrupt (R321, R322): a request above the mask, or level 7 on a transition from a lower level, is taken with the
frame of R310, or of R312 with the format 0, `S` set, `T` cleared and the mask set to its level; any other request is left
pending. The request is the next of the feed, or, where the feed is empty, the one already presented: so one that has
become unmasked is taken (R323). The model's choices: that the requests to come are a list that each step reads (log 16),
and that an interrupt is vectored whatever `TRAP_MODEL` is (log 35). -/
def Obligations.InterruptEntry : Prop :=
  ∀ (s : State) (r : IrqRequest) (rs : List IrqRequest), s.params.interrupts = .external →
    s.irqFeed = r :: rs ∨ (s.irqFeed = [] ∧ r = s.irq ∧ rs = []) →
    (s.sr.i.toNat < r.level.toNat ∨ (r.level = 7 ∧ s.irq.level ≠ 7) →
      let sr : Status := { s.sr with s := true, t := false, i := r.level }
      (∀ h, s.params.frameFormat = .mc68000 → s.frameFits = true →
        (s.framed s.pc).load (s.params.vectorBase + BitVec.ofNat 32 (4 * r.vectorNumber)) .l = some h →
        s.takeIrq = .next (((((s.framed s.pc).setSsp (s.ssp - 6)).setSr sr).setPc h).setIrq r rs)) ∧
      (∀ h, s.params.frameFormat ≠ .mc68000 → s.storable (s.ssp - 2) .w = true →
        let u := (s.stored (s.ssp - 2) .w (BitVec.ofNat 16 (4 * r.vectorNumber))).setSsp (s.ssp - 2)
        u.frameFits = true →
        (u.framed s.pc).load (s.params.vectorBase + BitVec.ofNat 32 (4 * r.vectorNumber)) .l = some h →
        s.takeIrq = .next (((((u.framed s.pc).setSsp (s.ssp - 8)).setSr sr).setPc h).setIrq r rs))) ∧
    (r.level.toNat ≤ s.sr.i.toNat → r.level ≠ 7 ∨ s.irq.level = 7 → s.takeIrq = .next (s.setIrq r rs))

/-- The reset procedure (R351): supervisor mode, no trace, mask 7, `VECTOR_BASE` 0, `SSP` and `pc` from vectors 0 and 1;
nothing else of the registers, the flags and memory changes. A vector that is not mapped is the double fault; an odd
`pc` makes the first fetch an address error. That an asserted line is data in the state, and that `VECTOR_BASE` becomes 0,
is the model's reading (log 24). -/
def Obligations.ResetProcedure : Prop :=
  (∀ (s : State) (sp pc : Long), s.resetLine = true → s.load 0 .l = some sp → s.load 4 .l = some pc →
    ∃ t, step s = .next t ∧ t.sr.s = true ∧ t.sr.t = false ∧ t.sr.i = 7 ∧ t.ssp = sp ∧ t.pc = pc ∧
      t.params.vectorBase = 0 ∧ t.d = s.d ∧ t.a = s.a ∧ t.usp = s.usp ∧ t.sr.flags = s.sr.flags ∧ t.mem = s.mem ∧
      (pc.toNat % 2 = 1 → s.params.haltAddr ≠ some pc → step t = .fault (.addressError pc .fetch))) ∧
  (∀ s : State, s.resetLine = true → (∃ j < 4, s.isMapped (BitVec.ofNat 32 j) = false) →
    step s = .fault .doubleFault) ∧
  (∀ (s : State) (sp : Long), s.resetLine = true → s.load 0 .l = some sp →
    (∃ j < 4, s.isMapped (4 + BitVec.ofNat 32 j) = false) → step s = .fault .doubleFault)

/-- How a run starts. The state after reset (R351): `S` set, `T` clear, mask 7, and `SSP` and `pc` what its memory holds at
vectors 0 and 1; it is the start of a launch that supplies nothing. Under `RESET_MODEL = launch_state` (R350) a run starts
with what its caller supplies, `SR` 0x0000 unless supplied, and each byte as supplied, where memory is, else as `memFill`
says; under `vector_fetch` (R351, R40) the reset procedure takes `SSP` and `pc` from the supplied memory and leaves the rest.
The model's choices, no rules of the spec: a register that is not supplied holds 0, the five flags of a `SR` that is not
supplied among them, where R350 says they hold no value (log 2; the clause on `SR` and the one on the empty launch rest on
it); what an empty memory reads as, and the vectors so read (log 3, 4); under `vector_fetch` the supplied registers and
memory are the power-on contents, and a `pc` that is odd is taken as it is (log 36). -/
def Obligations.ResetState : Prop :=
  (State.reset.sr.s = true ∧ State.reset.sr.t = false ∧ State.reset.sr.i = 7 ∧
    State.reset.load 0 .l = some State.reset.ssp ∧ State.reset.load 4 .l = some State.reset.pc ∧
    State.start .empty = .next State.reset) ∧
  (∀ l : Launch, l.params.resetModel = .launchState →
    ∃ t, State.start l = .next t ∧ t.params = l.params ∧ t.pc = l.pc ∧ (l.sr = none → t.sr.word = 0) ∧
      (∀ w, l.sr = some w → t.sr.word = w &&& 0xA71F) ∧ (∀ (n : Fin 8) v, l.d[n] = some v → t.d[n] = v) ∧
      (∀ (n : Fin 7) v, l.a[n] = some v → t.a[n] = v) ∧ (∀ v, l.usp = some v → t.usp = v) ∧
      (∀ v, l.ssp = some v → t.ssp = v) ∧ t.Inv ∧
      (∀ c ∈ l.mem, t.isMapped c.1 = true → (∀ e ∈ l.mem, t.phys e.1 = t.phys c.1 → e.2 = c.2) →
        t.readByte c.1 = some c.2) ∧
      ∀ b : Long, (∀ c ∈ l.mem, t.phys c.1 ≠ t.phys b) → t.readByte b = l.params.memFill) ∧
  ∀ (l : Launch) (sp pc : Long), l.params.resetModel = .vectorFetch →
    (State.launched l).load 0 .l = some sp → (State.launched l).load 4 .l = some pc →
    ∃ t, State.start l = .next t ∧ t.sr.s = true ∧ t.sr.t = false ∧ t.sr.i = 7 ∧ t.ssp = sp ∧ t.pc = pc ∧
      t.params.vectorBase = 0 ∧ (∀ (n : Fin 8) v, l.d[n] = some v → t.d[n] = v) ∧
      (∀ (n : Fin 7) v, l.a[n] = some v → t.a[n] = v) ∧ (∀ v, l.usp = some v → t.usp = v) ∧
      t.mem = (State.launched l).mem

/-! ## Whole-machine rules -/

/-- The invariant holds after reset. -/
def Obligations.ResetHasInvariant : Prop := State.reset.Inv

/-- Every step keeps the invariant: memory's canonical form, and only bytes at mapped physical addresses listed (R52,
R57, R58). -/
def Obligations.StepKeepsInvariant : Prop := ∀ s t : State, s.Inv → step s = .next t → t.Inv

/-- No step changes a byte of the program (R84). -/
def Obligations.StepKeepsProgram : Prop :=
  ∀ s t : State, step s = .next t → ∀ b : Long, s.isCode b = true → t.readByte b = s.readByte b

/-- Under `TRAP_MODEL = fault`, with no interrupts and no reset, a machine in user mode stays in user mode, and `SSP`, the
interrupt mask and `T` are out of its reach (R331, R332). -/
def Obligations.UserModeIsKept : Prop :=
  ∀ s t : State, s.params.trapModel = .fault → s.params.interrupts = .none → s.resetLine = false → s.sr.s = false →
    step s = .next t → t.sr.s = false ∧ t.ssp = s.ssp ∧ t.sr.i = s.sr.i ∧ t.sr.t = s.sr.t

/-- No step changes a launch parameter, but that the reset procedure starts from `VECTOR_BASE` 0 (R8, R351); holding them
in the state, and setting that one, is the model's choice (log 1, 24). -/
def Obligations.StepKeepsParameters : Prop :=
  ∀ s t : State, step s = .next t →
    t.params = if s.resetLine then { s.params with vectorBase := 0 } else s.params

/-! ## Registers and memory -/

/-- A write of a part of a data register changes that part only (R12, R21). -/
def Obligations.PartialRegisterWrite : Prop :=
  ∀ (s : State) (n : RegNum) (sz : Size) (v : BitVec sz.bits),
    (s.writeD n sz v).readD n sz = v ∧
    (∀ i, sz.bits ≤ i → ((s.writeD n sz v).dreg n).getLsbD i = (s.dreg n).getLsbD i) ∧
    ∀ m, m ≠ n → (s.writeD n sz v).dreg m = s.dreg m

/-- `A[7]` is the stack pointer that `S` selects, and a write of it leaves the other one (R24). -/
def Obligations.StackPointerView : Prop :=
  ∀ (s : State) (v : Long),
    s.readA 7 = (if s.sr.s then s.ssp else s.usp) ∧
    (s.writeA 7 v).ssp = (if s.sr.s then v else s.ssp) ∧ (s.writeA 7 v).usp = (if s.sr.s then s.usp else v) ∧
    ∀ m, m ≠ 7 → (s.writeA 7 v).readA m = s.readA m

/-- The bits of `SR` that R29 leaves unused read as 0, and a write to them has no effect. -/
def Obligations.UnusedStatusBits : Prop :=
  (∀ w : BitVec 16, (Status.ofWord w).word = w &&& 0xA71F) ∧ ∀ r : Status, Status.ofWord r.word = r

/-- A long word and a word are stored with the most significant byte at the lowest address (R54), and read back as they
were written (R56, R57). -/
def Obligations.StoreThenLoad : Prop :=
  ∀ (s t : State) (a : Long) (sz : Size) (v : BitVec sz.bits), s.Inv → s.memWrite a sz v = .next t →
    t.load a sz = some v ∧
    ∀ j < sz.bytes, t.readByte (a + BitVec.ofNat 32 j) =
      some (BitVec.ofNat 8 (v.toNat / 2 ^ (8 * (sz.bytes - 1 - j))))

/-- A store changes no byte but those of the access (R57), the addresses taken through `phys` (R52). -/
def Obligations.StoreFrame : Prop :=
  ∀ (s t : State) (a b : Long) (sz : Size) (v : BitVec sz.bits), s.memWrite a sz v = .next t →
    s.outside b a sz.bytes → t.readByte b = s.readByte b

/-- What stops an access (R56, R57, R60, R304, R305): alignment first, then mapping, then, for a write, the program (R84),
for a read and a fetch a byte that holds no value: one not listed, where the launch memory has no fill (R350). A step is so
stopped at the fetch of its operation word, where `pc` is odd or not mapped (R26, R216), or of the first extension word
that cannot be fetched (R60, R315); an instruction at the first access of its operands that stops, BSR at its push (the
exceptions of R132, R141 to R147, R161 to R163, R175, R179, R191, R213, R231, R233, R241 to R244, R265, R267, R281, R283).
ABCD looks at its digits between its reads and its write (R130). An extension word with bits 10:8 not 0, and BSR's
`d8 = 0xFF`, are refused before any access where a launch parameter says so, which is the model's choice (log 14, 15). -/
def Obligations.AccessFaults : Prop :=
  (∀ (s : State) (a : Long) (sz : Size) (v : BitVec sz.bits) (k : AccessKind),
    (sz ≠ .b → a.toNat % 2 = 1 →
      s.memRead a sz k = .fault (.addressError a k) ∧ s.memWrite a sz v = .fault (.addressError a .write)) ∧
    (sz = .b ∨ a.toNat % 2 = 0 → (∃ j < sz.bytes, s.isMapped (a + BitVec.ofNat 32 j) = false) →
      s.memRead a sz k = .fault (.busError a k) ∧ s.memWrite a sz v = .fault (.busError a .write)) ∧
    (sz = .b ∨ a.toNat % 2 = 0 → (∀ j < sz.bytes, s.isMapped (a + BitVec.ofNat 32 j) = true) →
      ((∃ j < sz.bytes, s.isCode (a + BitVec.ofNat 32 j) = true) →
        s.memWrite a sz v = .refused (.writeIntoProgram a)) ∧
      (s.params.memFill = none →
        (∃ j < sz.bytes, ∀ c ∈ s.mem, c.1 ≠ s.phys (a + BitVec.ofNat 32 j)) →
        s.memRead a sz k = .fault (.readOfUnsetState a)))) ∧
  (∀ (s : State) (a : Long),
    (a.toNat % 2 = 1 → s.fetch16 a = .fault (.addressError a .fetch)) ∧
    (a.toNat % 2 = 0 → s.isMapped a = false ∨ s.isMapped (a + 1) = false → s.fetch16 a = .fault (.busError a .fetch))) ∧
  (∀ (s : State) (f : Fault), s.resetLine = false → s.params.haltAddr ≠ some s.pc → s.fetch16 s.pc = .fault f →
    step s = .fault f) ∧
  (∀ (i : Instr) (s : State) (k : Nat) (f : Fault), i.wf = true → s.resetLine = false → s.params.haltAddr ≠ some s.pc →
    s.load s.pc .w = some i.opcode → (isPrivileged i = true → s.sr.s = true) → 1 ≤ k → k < i.words →
    (∀ j, 1 ≤ j → j < k → ∃ w, s.load (s.pc + BitVec.ofNat 32 (2 * j)) .w = some w) →
    s.fetch16 (s.pc + BitVec.ofNat 32 (2 * k)) = .fault f → step s = .fault f) ∧
  (∀ (i : Instr) (s : State), (∀ ea, i.ea = some ea → s.briefRefused ea = false) →
    (∀ d, i = .bsr d → s.branchRefused d = false) → exec i s ≠ .refused .nonDecimalDigit →
    (∀ f, s.accessAll (s.accesses i) = .fault f → exec i s = .fault f) ∧
    ∀ r, s.accessAll (s.accesses i) = .refused r → exec i s = .refused r) ∧
  ∀ (i : Instr) (s : State) (ea : EA), i.ea = some ea → s.briefRefused ea = true → exec i s = .refused .extensionWord

/-- `(An)+` gives the old value of `An` and adds the operand's size, `-(An)` subtracts it and gives the new value; a byte
on `A7` counts as 2 (R68, R69). Nothing else changes, the inactive stack pointer among it (R24). -/
def Obligations.PostincrementPredecrement : Prop :=
  ∀ (s : State) (sz : Size) (n : RegNum) (ext : Long),
    let k : Long := if sz = .b ∧ n = 7 then 2 else BitVec.ofNat 32 sz.bytes
    (∃ t, s.eaAddr sz (.postinc n) ext = .next (s.readA n, t) ∧ t.readA n = s.readA n + k ∧
      (∀ m, m ≠ n → t.readA m = s.readA m) ∧ s.sameInactive t ∧ t = { s with a := t.a, usp := t.usp, ssp := t.ssp }) ∧
    (∃ t, s.eaAddr sz (.predec n) ext = .next (s.readA n - k, t) ∧ t.readA n = s.readA n - k ∧
      (∀ m, m ≠ n → t.readA m = s.readA m) ∧ s.sameInactive t ∧ t = { s with a := t.a, usp := t.usp, ssp := t.ssp })

/-- The addresses of the modes without a side effect (R67, R70 to R73), the index of R65 and R96 among them: `ext` is the
address of the extension word, the base of the PC-relative modes. An extension word with bits 10:8 not 0 is refused
where the launch says so (R71, R96). That another value of the parameter has those bits ignored is the model's choice
(log 14). -/
def Obligations.EffectiveAddresses : Prop :=
  ∀ (s : State) (sz : Size) (n : RegNum) (d16 : BitVec 16) (x : BriefExt) (addr ext : Long),
    let xn : Long := if x.isAddr then s.readA x.reg else s.dreg x.reg
    let index : Long := if x.isLong then xn else (xn.setWidth 16).signExtend 32
    s.eaAddr sz (.ind n) ext = .next (s.readA n, s) ∧
    s.eaAddr sz (.disp n d16) ext = .next (s.readA n + d16.signExtend 32, s) ∧
    s.eaAddr sz (.absW d16) ext = .next (d16.signExtend 32, s) ∧
    s.eaAddr sz (.absL addr) ext = .next (addr, s) ∧
    s.eaAddr sz (.pcDisp d16) ext = .next (ext + d16.signExtend 32, s) ∧
    (x.scale = 0 ∨ s.params.briefBits = .ignore →
      s.eaAddr sz (.index n x) ext = .next (s.readA n + index + x.d8.signExtend 32, s) ∧
      s.eaAddr sz (.pcIndex x) ext = .next (ext + index + x.d8.signExtend 32, s)) ∧
    (x.scale ≠ 0 → s.params.briefBits = .refuse →
      s.eaAddr sz (.index n x) ext = .refused .extensionWord ∧ s.eaAddr sz (.pcIndex x) ext = .refused .extensionWord)

/-! ## Flags -/

/-- `V` and `C` of an addition say that the signed, the unsigned sum does not fit (R33); `X` copies `C`, `N` and `Z` are
those of the result. -/
def Obligations.AdditionFlags : Prop :=
  ∀ (sz : Size) (s d : BitVec sz.bits) (x : Bool),
    let f := addFlags s d x
    let sum := d.toInt + s.toInt + x.toNat
    let r := d + s + BitVec.ofNat sz.bits x.toNat
    (f.v = true ↔ sum < -(2 ^ (sz.bits - 1)) ∨ 2 ^ (sz.bits - 1) ≤ sum) ∧
    (f.c = true ↔ 2 ^ sz.bits ≤ d.toNat + s.toNat + x.toNat) ∧ f.x = f.c ∧ f.n = r.msb ∧ (f.z = true ↔ r = 0)

/-- The conditions after a compare of destination `d` with source `s` (R247). -/
def Obligations.ConditionsAfterCompare : Prop :=
  ∀ (sz : Size) (s d : BitVec sz.bits) (x : Bool),
    let f := subFlags s d x
    (condHolds .eq f = true ↔ d = s) ∧ (condHolds .ne f = true ↔ d ≠ s) ∧
    (condHolds .hi f = true ↔ s.toNat < d.toNat) ∧ (condHolds .ls f = true ↔ d.toNat ≤ s.toNat) ∧
    (condHolds .cc f = true ↔ s.toNat ≤ d.toNat) ∧ (condHolds .cs f = true ↔ d.toNat < s.toNat) ∧
    (condHolds .gt f = true ↔ s.toInt < d.toInt) ∧ (condHolds .ge f = true ↔ s.toInt ≤ d.toInt) ∧
    (condHolds .lt f = true ↔ d.toInt < s.toInt) ∧ (condHolds .le f = true ↔ d.toInt ≤ s.toInt) ∧
    (condHolds .mi f = true ↔ (d - s).msb = true) ∧ (condHolds .pl f = true ↔ (d - s).msb = false) ∧
    (condHolds .vs f = true ↔
      d.toInt - s.toInt < -(2 ^ (sz.bits - 1)) ∨ 2 ^ (sz.bits - 1) ≤ d.toInt - s.toInt) ∧
    (condHolds .vc f = true ↔
      -(2 ^ (sz.bits - 1)) ≤ d.toInt - s.toInt ∧ d.toInt - s.toInt < 2 ^ (sz.bits - 1))

/-- `asl` is `c` single places: the value, the last bit moved out in `C` and `X`, and `V` if the top bit changed at any
of them (R172). -/
def Obligations.AslIsRepeatedPlaces : Prop :=
  ∀ (sz : Size) (v : BitVec sz.bits) (c : Nat) (x : Bool),
    let p := Nat.repeat ShiftState.left c ⟨v, false, false⟩
    let f := aslFlags v c x
    aslResult v c = p.value ∧ f.c = p.last ∧ f.v = p.changed ∧ f.x = (if c = 0 then x else p.last) ∧
      f.n = p.value.msb ∧ f.z = (p.value == 0)

/-- `asr` is `c` single places: the value, the last bit moved out in `C` and `X`. With the sign kept `V` is 0, since the
top bit never changes; with a 0 moved in, `ASR_FILL = zero`, `V` is free but for a count of 0 (R176). -/
def Obligations.AsrIsRepeatedPlaces : Prop :=
  ∀ (fill : AsrFill) (sz : Size) (v : BitVec sz.bits) (c : Nat) (x free : Bool),
    let p := Nat.repeat (ShiftState.right (fill == .sign && v.msb)) c ⟨v, false, false⟩
    let f := asrFlags fill v c x free
    asrResult fill v c = p.value ∧ f.c = p.last ∧ f.x = (if c = 0 then x else p.last) ∧ f.n = p.value.msb ∧
      f.z = (p.value == 0) ∧ (fill = .sign → f.v = false ∧ p.changed = false) ∧
      (fill = .zero → f.v = (if c = 0 then false else free))

/-! ## Results: addition -/

/-- ADD `<ea>,Dn` (R141). -/
def Obligations.AddToDataRegister : Prop :=
  ∀ (sz : Size) (ea : EA) (n : RegNum) (s : State) (v : BitVec sz.bits), s.operand sz ea (s.extAt 0) = some v →
    exec (.addEaDn sz ea n) s =
      .next ((((s.eaUpdate sz ea).writeD n sz (s.readD n sz + v)).setFlags (addFlags v (s.readD n sz) false)).advance
        (2 + 2 * ea.extCount sz))

/-- ADD `Dn,<ea>` (R142). -/
def Obligations.AddToMemory : Prop :=
  ∀ (sz : Size) (ea : EA) (n : RegNum) (s : State) (d : BitVec sz.bits), ea.kind.isMemAlterable = true →
    s.operand sz ea (s.extAt 0) = some d → s.canPut sz ea (s.extAt 0) = true →
    exec (.addDnEa sz n ea) s =
      .next (((s.put sz ea (s.extAt 0) (d + s.readD n sz)).setFlags (addFlags (s.readD n sz) d false)).advance
        (2 + 2 * ea.extCount sz))

/-- ADDI and ADDQ into a data register or memory (R102, R144, R145): the ADDQ data field 000 is 8. -/
def Obligations.AddImmediate : Prop :=
  (∀ (sz : Size) (imm : Long) (ea : EA) (s : State) (d : BitVec sz.bits),
    s.operand sz ea (s.extAt sz.immCount) = some d → s.canPut sz ea (s.extAt sz.immCount) = true →
    exec (.addi sz imm ea) s =
      .next (((s.put sz ea (s.extAt sz.immCount) (d + imm.setWidth sz.bits)).setFlags
        (addFlags (imm.setWidth sz.bits) d false)).advance (2 + 2 * sz.immCount + 2 * ea.extCount sz))) ∧
  (∀ (sz : Size) (data : Fin 8) (ea : EA) (s : State) (d : BitVec sz.bits),
    s.operand sz ea (s.extAt 0) = some d → s.canPut sz ea (s.extAt 0) = true →
    let q : BitVec sz.bits := BitVec.ofNat sz.bits (if data = 0 then 8 else data.val)
    exec (.addq sz data ea) s =
      .next (((s.put sz ea (s.extAt 0) (d + q)).setFlags (addFlags q d false)).advance (2 + 2 * ea.extCount sz)))

/-- ADDA, and ADDQ into an address register (R143, R145): all 32 bits take part, a word source is sign-extended, and
under `ADDA_CCR = unaffected` no flag changes, under `per_source` the flags are those of the 32-bit sum. The model's
reading: those flags are of `An` as it stands after the source's side effect (log 31), and ADDQ follows `ADDA_CCR` on all
32 bits for both sizes (log 30). -/
def Obligations.AddToAddressRegister : Prop :=
  (∀ (ea : EA) (n : RegNum) (s : State) (v : BitVec 16), s.operand .w ea (s.extAt 0) = some v →
    let u := s.eaUpdate .w ea
    ∃ f k,
      exec (.addaW ea n) s =
        .next ((((u.writeA n (u.readA n + v.signExtend 32)).setFlags f).drawn k).advance (2 + 2 * ea.extCount .w)) ∧
      (s.params.addaCcr = .unaffected → f = s.flags ∧ k = 0) ∧
      (s.params.addaCcr = .perSource → f = addFlags (v.signExtend 32) (u.readA n) false ∧ k = 0)) ∧
  (∀ (ea : EA) (n : RegNum) (s : State) (v : Long), s.operand .l ea (s.extAt 0) = some v →
    let u := s.eaUpdate .l ea
    ∃ f k,
      exec (.addaL ea n) s =
        .next ((((u.writeA n (u.readA n + v)).setFlags f).drawn k).advance (2 + 2 * ea.extCount .l)) ∧
      (s.params.addaCcr = .unaffected → f = s.flags ∧ k = 0) ∧
      (s.params.addaCcr = .perSource → f = addFlags v (u.readA n) false ∧ k = 0)) ∧
  (∀ (sz : Size) (data : Fin 8) (n : RegNum) (s : State),
    let q : Long := BitVec.ofNat 32 (if data = 0 then 8 else data.val)
    ∃ f k,
      exec (.addq sz data (.an n)) s = .next ((((s.writeA n (s.readA n + q)).setFlags f).drawn k).advance 2) ∧
      (s.params.addaCcr = .unaffected → f = s.flags ∧ k = 0) ∧
      (s.params.addaCcr = .perSource → f = addFlags q (s.readA n) false ∧ k = 0))

/-- ADDX of registers and of memory (R146, R147, R149): source plus destination plus `X`; under `XZ_STICKY` a result of 0
leaves `Z`, any other clears it. In memory the source's predecrement comes first (R77). -/
def Obligations.AddExtended : Prop :=
  (∀ (sz : Size) (y x : RegNum) (s : State),
    let r := s.readD x sz + s.readD y sz + BitVec.ofNat sz.bits s.sr.x.toNat
    exec (.addxReg sz y x) s =
      .next (((s.writeD x sz r).setFlags
        { addFlags (s.readD y sz) (s.readD x sz) s.sr.x with
          z := if s.params.xzSticky then s.sr.z && r == 0 else r == 0 }).advance 2)) ∧
  (∀ (sz : Size) (y x : RegNum) (s : State) (v d : BitVec sz.bits),
    let u := s.eaUpdate sz (.predec y)
    s.operand sz (.predec y) (s.extAt 0) = some v → u.operand sz (.predec x) (s.extAt 0) = some d →
    u.canPut sz (.predec x) (s.extAt 0) = true →
    let r := d + v + BitVec.ofNat sz.bits s.sr.x.toNat
    exec (.addxMem sz y x) s =
      .next (((u.put sz (.predec x) (s.extAt 0) r).setFlags
        { addFlags v d s.sr.x with z := if s.params.xzSticky then s.sr.z && r == 0 else r == 0 }).advance 2))

/-- ABCD of registers (R130, R131): on decimal digits the result byte and the carry are the decimal sum of source,
destination and `X`; `X` and `C` are the carry, `Z` is sticky, `N` and `V` are free. On other digits everything the sum
gives is free under `BCD_INVALID = draw`, and `refuse` stops. -/
def Obligations.AbcdRegisters : Prop :=
  ∀ (y x : RegNum) (s : State),
    (isBcd (s.readD y .b) = true → isBcd (s.readD x .b) = true →
      ∃ (r : Byte) (c n v : Bool) (k : Nat),
        isBcd r = true ∧
        bcdValue r + (if c then 100 else 0) = bcdValue (s.readD x .b) + bcdValue (s.readD y .b) + s.sr.x.toNat ∧
        exec (.abcdReg y x) s =
          .next ((((s.writeD x .b r).setFlags
            ⟨c, n, if s.params.xzSticky then s.sr.z && r == 0 else r == 0, v, c⟩).drawn k).advance 2)) ∧
    (s.params.bcdInvalid = .draw →
      ∃ (r : Byte) (c n v : Bool) (k : Nat),
        exec (.abcdReg y x) s =
          .next ((((s.writeD x .b r).setFlags
            ⟨c, n, if s.params.xzSticky then s.sr.z && r == 0 else r == 0, v, c⟩).drawn k).advance 2)) ∧
    (s.params.bcdInvalid = .refuse → isBcd (s.readD y .b) = false ∨ isBcd (s.readD x .b) = false →
      exec (.abcdReg y x) s = .refused .nonDecimalDigit)

/-- ABCD in memory (R130, R132): the source's predecrement first, then the destination's; the sum as in registers. -/
def Obligations.AbcdMemory : Prop :=
  ∀ (y x : RegNum) (s : State) (src dst : Byte),
    let u := s.eaUpdate .b (.predec y)
    s.operand .b (.predec y) (s.extAt 0) = some src → u.operand .b (.predec x) (s.extAt 0) = some dst →
    (isBcd src = true → isBcd dst = true → u.canPut .b (.predec x) (s.extAt 0) = true →
      ∃ (r : Byte) (c n v : Bool) (k : Nat),
        isBcd r = true ∧ bcdValue r + (if c then 100 else 0) = bcdValue dst + bcdValue src + s.sr.x.toNat ∧
        exec (.abcdMem y x) s =
          .next ((((u.put .b (.predec x) (s.extAt 0) r).setFlags
            ⟨c, n, if s.params.xzSticky then s.sr.z && r == 0 else r == 0, v, c⟩).drawn k).advance 2)) ∧
    (s.params.bcdInvalid = .draw → u.canPut .b (.predec x) (s.extAt 0) = true →
      ∃ (r : Byte) (c n v : Bool) (k : Nat),
        exec (.abcdMem y x) s =
          .next ((((u.put .b (.predec x) (s.extAt 0) r).setFlags
            ⟨c, n, if s.params.xzSticky then s.sr.z && r == 0 else r == 0, v, c⟩).drawn k).advance 2)) ∧
    (s.params.bcdInvalid = .refuse → isBcd src = false ∨ isBcd dst = false →
      exec (.abcdMem y x) s = .refused .nonDecimalDigit)

/-! ## Results: logic, the status register -/

/-- AND `<ea>,Dn` (R161, R35). -/
def Obligations.AndToDataRegister : Prop :=
  ∀ (sz : Size) (ea : EA) (n : RegNum) (s : State) (v : BitVec sz.bits), s.operand sz ea (s.extAt 0) = some v →
    let r := v &&& s.readD n sz
    exec (.andEaDn sz ea n) s =
      .next ((((s.eaUpdate sz ea).writeD n sz r).setFlags ⟨s.sr.x, r.msb, r == 0, false, false⟩).advance
        (2 + 2 * ea.extCount sz))

/-- AND `Dn,<ea>`, ANDI, EOR, EORI (R162, R163, R281, R283): the flags of R35. -/
def Obligations.LogicToDestination : Prop :=
  (∀ (sz : Size) (n : RegNum) (ea : EA) (s : State) (d : BitVec sz.bits), ea.kind.isMemAlterable = true →
    s.operand sz ea (s.extAt 0) = some d → s.canPut sz ea (s.extAt 0) = true →
    let r := s.readD n sz &&& d
    exec (.andDnEa sz n ea) s =
      .next (((s.put sz ea (s.extAt 0) r).setFlags ⟨s.sr.x, r.msb, r == 0, false, false⟩).advance
        (2 + 2 * ea.extCount sz))) ∧
  (∀ (sz : Size) (n : RegNum) (ea : EA) (s : State) (d : BitVec sz.bits),
    s.operand sz ea (s.extAt 0) = some d → s.canPut sz ea (s.extAt 0) = true →
    let r := s.readD n sz ^^^ d
    exec (.eor sz n ea) s =
      .next (((s.put sz ea (s.extAt 0) r).setFlags ⟨s.sr.x, r.msb, r == 0, false, false⟩).advance
        (2 + 2 * ea.extCount sz))) ∧
  (∀ (sz : Size) (imm : Long) (ea : EA) (s : State) (d : BitVec sz.bits),
    s.operand sz ea (s.extAt sz.immCount) = some d → s.canPut sz ea (s.extAt sz.immCount) = true →
    let r := imm.setWidth sz.bits &&& d
    let q := imm.setWidth sz.bits ^^^ d
    exec (.andi sz imm ea) s =
      .next (((s.put sz ea (s.extAt sz.immCount) r).setFlags ⟨s.sr.x, r.msb, r == 0, false, false⟩).advance
        (2 + 2 * sz.immCount + 2 * ea.extCount sz)) ∧
    exec (.eori sz imm ea) s =
      .next (((s.put sz ea (s.extAt sz.immCount) q).setFlags ⟨s.sr.x, q.msb, q == 0, false, false⟩).advance
        (2 + 2 * sz.immCount + 2 * ea.extCount sz)))

/-- ANDI to SR and EORI to SR in supervisor mode (R164, R284): the whole of `SR` is combined with the immediate, its
unused bits staying 0 (R29). -/
def Obligations.StatusImmediate : Prop :=
  ∀ (imm : BitVec 16) (s : State), s.sr.s = true →
    (∃ r : Status, exec (.andiToSr imm) s = .next ((s.setSr r).setPc (s.pc + 4)) ∧ r.word = s.sr.word &&& imm) ∧
    (∃ r : Status, exec (.eoriToSr imm) s = .next ((s.setSr r).setPc (s.pc + 4)) ∧
      r.word = (s.sr.word ^^^ imm) &&& 0xA71F)

/-! ## Results: shifts, bits -/

/-- ASL (R171, R173 to R175): an immediate count, 000 read by `SHIFT_IMM0`, which may refuse it; a register count modulo
64; a memory word by one place. -/
def Obligations.AslForms : Prop :=
  (∀ (sz : Size) (d : RegNum) (s : State), s.params.shiftImm0 = .refuse →
    exec (.aslImm sz 0 d) s = .refused .shiftCountZero) ∧
  (∀ (sz : Size) (count : Fin 8) (d : RegNum) (s : State) (c : Nat),
    c = (if count = 0 then (if s.params.shiftImm0 = .zero then 0 else 8) else count.val) →
    (count = 0 → s.params.shiftImm0 ≠ .refuse) →
    exec (.aslImm sz count d) s =
      .next (((s.writeD d sz (aslResult (s.readD d sz) c)).setFlags (aslFlags (s.readD d sz) c s.sr.x)).advance 2)) ∧
  (∀ (sz : Size) (n d : RegNum) (s : State),
    let c := (s.dreg n).toNat % 64
    exec (.aslReg sz n d) s =
      .next (((s.writeD d sz (aslResult (s.readD d sz) c)).setFlags (aslFlags (s.readD d sz) c s.sr.x)).advance 2)) ∧
  (∀ (ea : EA) (s : State) (v : BitVec 16), ea.kind.isMemAlterable = true → s.operand .w ea (s.extAt 0) = some v →
    s.canPut .w ea (s.extAt 0) = true →
    exec (.aslMem ea) s =
      .next (((s.put .w ea (s.extAt 0) (aslResult v 1)).setFlags (aslFlags v 1 s.sr.x)).advance (2 + 2 * ea.extCount .w)))

/-- ASR (R171, R177 to R179); under `ASR_FILL = zero` `V` is free (U9). -/
def Obligations.AsrForms : Prop :=
  (∀ (sz : Size) (d : RegNum) (s : State), s.params.shiftImm0 = .refuse →
    exec (.asrImm sz 0 d) s = .refused .shiftCountZero) ∧
  (∀ (sz : Size) (count : Fin 8) (d : RegNum) (s : State) (c : Nat),
    c = (if count = 0 then (if s.params.shiftImm0 = .zero then 0 else 8) else count.val) →
    (count = 0 → s.params.shiftImm0 ≠ .refuse) →
    ∃ free k,
      exec (.asrImm sz count d) s =
        .next ((((s.writeD d sz (asrResult s.params.asrFill (s.readD d sz) c)).setFlags
          (asrFlags s.params.asrFill (s.readD d sz) c s.sr.x free)).drawn k).advance 2)) ∧
  (∀ (sz : Size) (n d : RegNum) (s : State),
    let c := (s.dreg n).toNat % 64
    ∃ free k,
      exec (.asrReg sz n d) s =
        .next ((((s.writeD d sz (asrResult s.params.asrFill (s.readD d sz) c)).setFlags
          (asrFlags s.params.asrFill (s.readD d sz) c s.sr.x free)).drawn k).advance 2)) ∧
  (∀ (ea : EA) (s : State) (v : BitVec 16), ea.kind.isMemAlterable = true → s.operand .w ea (s.extAt 0) = some v →
    s.canPut .w ea (s.extAt 0) = true →
    ∃ free k,
      exec (.asrMem ea) s =
        .next ((((s.put .w ea (s.extAt 0) (asrResult s.params.asrFill v 1)).setFlags
          (asrFlags s.params.asrFill v 1 s.sr.x free)).drawn k).advance (2 + 2 * ea.extCount .w)))

/-- BCHG, BCLR, BSET (R191 to R194), the bit number from a register or from the low byte of the word that follows
(R104): bit `number mod 32` of a data register, bit `number mod 8` of a memory byte; the bit is complemented, cleared,
set, every other bit is as before, and `Z` alone of the flags is the complement of the old bit. -/
def Obligations.BitChange : Prop :=
  ∀ p ∈ ([(Instr.bchgDyn, Instr.bchgStatic, fun b => !b), (Instr.bclrDyn, Instr.bclrStatic, fun _ => false),
      (Instr.bsetDyn, Instr.bsetStatic, fun _ => true)] :
      List ((RegNum → EA → Instr) × (BitVec 16 → EA → Instr) × (Bool → Bool))),
    ∀ (i : Instr) (raw own : Nat) (ea : EA) (s : State),
      (∃ n, i = p.1 n ea ∧ raw = (s.dreg n).toNat ∧ own = 0) ∨
        (∃ w : BitVec 16, i = p.2.1 w ea ∧ raw = w.toNat % 256 ∧ own = 1) →
      (∀ d, ea = .dn d →
        ∃ r : Long, (∀ j < 32, r.getLsbD j = if j = raw % 32 then p.2.2 ((s.dreg d).getLsbD j) else (s.dreg d).getLsbD j) ∧
          exec i s = .next (((s.setD d r).setFlags
            { s.flags with z := !(s.dreg d).getLsbD (raw % 32) }).advance (2 + 2 * own))) ∧
      (∀ v : Byte, ea.kind.isMem = true → s.operand .b ea (s.extAt own) = some v → s.canPut .b ea (s.extAt own) = true →
        ∃ r : Byte, (∀ j < 8, r.getLsbD j = if j = raw % 8 then p.2.2 (v.getLsbD j) else v.getLsbD j) ∧
          exec i s = .next (((s.put .b ea (s.extAt own) r).setFlags
            { s.flags with z := !v.getLsbD (raw % 8) }).advance (2 + 2 * own + 2 * ea.extCount .b)))

/-- BTST (R191, R195, R104): only `Z` and the addressing mode's register change. -/
def Obligations.BitTest : Prop :=
  ∀ (i : Instr) (raw own : Nat) (ea : EA) (s : State),
    (∃ n, i = .btstDyn n ea ∧ raw = (s.dreg n).toNat ∧ own = 0) ∨
      (∃ w : BitVec 16, i = .btstStatic w ea ∧ raw = w.toNat % 256 ∧ own = 1) →
    (∀ d, ea = .dn d →
      exec i s = .next ((s.setFlags { s.flags with z := !(s.dreg d).getLsbD (raw % 32) }).advance (2 + 2 * own))) ∧
    (∀ v : Byte, ea.kind.isData = true → ea.kind ≠ .dn → s.operand .b ea (s.extAt own) = some v →
      exec i s = .next (((s.eaUpdate .b ea).setFlags
        { s.flags with z := !v.getLsbD (raw % 8) }).advance (2 + 2 * own + 2 * ea.extCount .b)))

/-! ## Results: control flow -/

/-- BRA and Bcc (R210 to R212, R108): to the address of the instruction plus 2 plus the displacement if the condition
holds, else to the next instruction; nothing else changes. That a launch parameter has the form `d8 = 0xFF` refused,
whether or not the branch is taken, is the model's choice (log 15): R217 gives the baseline -1. -/
def Obligations.ConditionalBranches : Prop :=
  ∀ p ∈ ([(Instr.bra, .t), (Instr.bhi, .hi), (Instr.bls, .ls), (Instr.bcc, .cc), (Instr.bcs, .cs), (Instr.bne, .ne),
      (Instr.beq, .eq), (Instr.bvc, .vc), (Instr.bvs, .vs), (Instr.bpl, .pl), (Instr.bmi, .mi), (Instr.bge, .ge),
      (Instr.blt, .lt), (Instr.bgt, .gt), (Instr.ble, .le)] : List ((Disp → Instr) × Cond)),
    ∀ (d : Disp) (s : State),
      (s.params.branchFF = .baseline ∨ d ≠ .byte 0xFF →
        exec (p.1 d) s =
          .next (s.setPc (if condHolds p.2 s.flags then s.pc + 2 + dispValue d
            else s.pc + 2 + BitVec.ofNat 32 (2 * d.extCount)))) ∧
      (s.params.branchFF = .refuse → d = .byte 0xFF → exec (p.1 d) s = .refused .branchFF)

/-- BSR (R213): the address of the next instruction is pushed as a long word on the active stack, then the branch is
made. The form `d8 = 0xFF` is refused where the launch says so, with nothing pushed: the model's choice (log 15), as for
the other branches (R217). -/
def Obligations.BranchToSubroutine : Prop :=
  ∀ (d : Disp) (s : State),
    (s.params.branchFF = .baseline ∨ d ≠ .byte 0xFF → s.storable (s.readA 7 - 4) .l = true →
      exec (.bsr d) s =
        .next (((s.writeA 7 (s.readA 7 - 4)).stored (s.readA 7 - 4) .l
          (s.pc + 2 + BitVec.ofNat 32 (2 * d.extCount))).setPc (s.pc + 2 + dispValue d))) ∧
    (s.params.branchFF = .refuse → d = .byte 0xFF → exec (.bsr d) s = .refused .branchFF)

/-- DBcc (R261, R108): nothing if the condition holds; else the low word of the register is decremented, and the branch
is made unless it has become -1. -/
def Obligations.DecrementAndBranch : Prop :=
  ∀ p ∈ ([(Instr.dbt, .t), (Instr.dbf, .f), (Instr.dbhi, .hi), (Instr.dbls, .ls), (Instr.dbcc, .cc), (Instr.dbcs, .cs),
      (Instr.dbne, .ne), (Instr.dbeq, .eq), (Instr.dbvc, .vc), (Instr.dbvs, .vs), (Instr.dbpl, .pl), (Instr.dbmi, .mi),
      (Instr.dbge, .ge), (Instr.dblt, .lt), (Instr.dbgt, .gt), (Instr.dble, .le)] :
      List ((RegNum → BitVec 16 → Instr) × Cond)),
    ∀ (n : RegNum) (d16 : BitVec 16) (s : State),
      (condHolds p.2 s.flags = true → exec (p.1 n d16) s = .next (s.setPc (s.pc + 4))) ∧
      (condHolds p.2 s.flags = false →
        exec (p.1 n d16) s =
          .next ((s.writeD n .w (s.readD n .w - 1)).setPc
            (if s.readD n .w = 0 then s.pc + 4 else s.pc + 2 + d16.signExtend 32)))

/-! ## Results: CHK, CLR, compare, divide, exchange, extend -/

/-- CHK (R231, R307, vector 6): the low word of the register in bounds, `X` is unchanged and `N`, `Z`, `V`, `C` are free; out of
bounds, the exception is raised with the address of the next instruction, `N` set below 0 and clear above the bound. -/
def Obligations.CheckBounds : Prop :=
  Exc.chk.vector = 6 ∧
  ∀ (ea : EA) (n : RegNum) (s : State) (bound : BitVec 16), s.operand .w ea (s.extAt 0) = some bound →
    (0 ≤ (s.readD n .w).toInt → (s.readD n .w).toInt ≤ bound.toInt →
      ∃ (neg z v c : Bool) (k : Nat),
        exec (.chk ea n) s =
          .next ((((s.eaUpdate .w ea).setFlags ⟨s.sr.x, neg, z, v, c⟩).drawn k).advance (2 + 2 * ea.extCount .w))) ∧
    ((s.readD n .w).toInt < 0 ∨ bound.toInt < (s.readD n .w).toInt →
      ∃ (z v c : Bool) (k : Nat),
        exec (.chk ea n) s =
          raise .chk (s.pc + BitVec.ofNat 32 (2 + 2 * ea.extCount .w)) s.pc
            (((s.eaUpdate .w ea).setFlags ⟨s.sr.x, decide ((s.readD n .w).toInt < 0), z, v, c⟩).drawn k))

/-- CLR (R233): 0 is put into the operand, `N`, `V`, `C` are 0, `Z` is 1, `X` is unchanged; memory is not read. -/
def Obligations.ClearOperand : Prop :=
  ∀ (sz : Size) (ea : EA) (s : State), s.canPut sz ea (s.extAt 0) = true →
    exec (.clr sz ea) s =
      .next (((s.put sz ea (s.extAt 0) 0).setFlags ⟨s.sr.x, false, true, false, false⟩).advance (2 + 2 * ea.extCount sz))

/-- CMP, CMPA, CMPI, CMPM (R240 to R244): only flags and the addressing modes' registers change. -/
def Obligations.CompareForms : Prop :=
  (∀ (sz : Size) (ea : EA) (n : RegNum) (s : State) (v : BitVec sz.bits), s.operand sz ea (s.extAt 0) = some v →
    exec (.cmp sz ea n) s =
      .next (((s.eaUpdate sz ea).setFlags (subFlags v (s.readD n sz) s.sr.x)).advance (2 + 2 * ea.extCount sz))) ∧
  (∀ (ea : EA) (n : RegNum) (s : State) (v : BitVec 16), s.operand .w ea (s.extAt 0) = some v →
    let u := s.eaUpdate .w ea
    exec (.cmpaW ea n) s =
      .next ((u.setFlags (subFlags (v.signExtend 32) (u.readA n) s.sr.x)).advance (2 + 2 * ea.extCount .w))) ∧
  (∀ (ea : EA) (n : RegNum) (s : State) (v : Long), s.operand .l ea (s.extAt 0) = some v →
    let u := s.eaUpdate .l ea
    exec (.cmpaL ea n) s = .next ((u.setFlags (subFlags v (u.readA n) s.sr.x)).advance (2 + 2 * ea.extCount .l))) ∧
  (∀ (sz : Size) (imm : Long) (ea : EA) (s : State) (d : BitVec sz.bits),
    s.operand sz ea (s.extAt sz.immCount) = some d →
    exec (.cmpi sz imm ea) s =
      .next (((s.eaUpdate sz ea).setFlags (subFlags (imm.setWidth sz.bits) d s.sr.x)).advance
        (2 + 2 * sz.immCount + 2 * ea.extCount sz))) ∧
  (∀ (sz : Size) (y x : RegNum) (s : State) (v d : BitVec sz.bits),
    let u := s.eaUpdate sz (.postinc y)
    s.operand sz (.postinc y) (s.extAt 0) = some v → u.operand sz (.postinc x) (s.extAt 0) = some d →
    exec (.cmpm sz y x) s = .next (((u.eaUpdate sz (.postinc x)).setFlags (subFlags v d s.sr.x)).advance 2))

/-- DIVU and DIVS by a divisor that is not 0 (R265 to R267). A quotient that fits goes to the low word, the remainder to
the high word, with the relations of R266; `N` and `Z` are the quotient's, `V` and `C` 0. One that does not fit sets `V`,
clears `C`, leaves `N` and `Z` free and the register as it was. -/
def Obligations.DivideResults : Prop :=
  ∀ (ea : EA) (n : RegNum) (s : State) (v : BitVec 16), s.operand .w ea (s.extAt 0) = some v → v ≠ 0 →
    ((s.dreg n).toNat / v.toNat ≤ 0xFFFF →
      ∃ q r : BitVec 16, (s.dreg n).toNat = q.toNat * v.toNat + r.toNat ∧ r.toNat < v.toNat ∧
        exec (.divu ea n) s =
          .next ((((s.eaUpdate .w ea).setD n (r ++ q)).setFlags ⟨s.sr.x, q.msb, q == 0, false, false⟩).advance
            (2 + 2 * ea.extCount .w))) ∧
    (-32768 ≤ (s.dreg n).toInt.tdiv v.toInt → (s.dreg n).toInt.tdiv v.toInt ≤ 32767 →
      ∃ q r : BitVec 16, (s.dreg n).toInt = q.toInt * v.toInt + r.toInt ∧ r.toInt.natAbs < v.toInt.natAbs ∧
        (r.toInt = 0 ∨ (r.toInt < 0 ↔ (s.dreg n).toInt < 0)) ∧
        exec (.divs ea n) s =
          .next ((((s.eaUpdate .w ea).setD n (r ++ q)).setFlags ⟨s.sr.x, q.msb, q == 0, false, false⟩).advance
            (2 + 2 * ea.extCount .w))) ∧
    (0xFFFF < (s.dreg n).toNat / v.toNat →
      ∃ (neg z : Bool) (k : Nat), exec (.divu ea n) s =
        .next ((((s.eaUpdate .w ea).setFlags ⟨s.sr.x, neg, z, true, false⟩).drawn k).advance (2 + 2 * ea.extCount .w))) ∧
    ((s.dreg n).toInt.tdiv v.toInt < -32768 ∨ 32767 < (s.dreg n).toInt.tdiv v.toInt →
      ∃ (neg z : Bool) (k : Nat), exec (.divs ea n) s =
        .next ((((s.eaUpdate .w ea).setFlags ⟨s.sr.x, neg, z, true, false⟩).drawn k).advance (2 + 2 * ea.extCount .w)))

/-- A zero divisor (R306), after it has been read: the exception of vector 5 with the address of the next instruction,
`C` 0, `N`, `Z`, `V` free, `X` and the register unchanged. -/
def Obligations.ZeroDivisor : Prop :=
  Exc.zeroDivide.vector = 5 ∧
  ∀ (i : Instr) (ea : EA) (n : RegNum) (s : State), i = .divu ea n ∨ i = .divs ea n →
    s.operand .w ea (s.extAt 0) = some 0 →
    ∃ (neg z o : Bool) (k : Nat), exec i s =
      raise .zeroDivide (s.pc + BitVec.ofNat 32 (2 + 2 * ea.extCount .w)) s.pc
        (((s.eaUpdate .w ea).setFlags ⟨s.sr.x, neg, z, o, false⟩).drawn k)

/-- EXG (R286): the two registers exchange all 32 bits; nothing else but `pc` changes, the inactive stack pointer (R24)
and every flag among it. -/
def Obligations.ExchangeRegisters : Prop :=
  ∀ (x y : RegNum) (s : State),
    (∃ t, exec (.exgDd x y) s = .next t ∧ t.dreg x = s.dreg y ∧ t.dreg y = s.dreg x ∧
      (∀ m, m ≠ x → m ≠ y → t.dreg m = s.dreg m) ∧ t = { s with d := t.d, pc := s.pc + 2 }) ∧
    (∃ t, exec (.exgAa x y) s = .next t ∧ t.readA x = s.readA y ∧ t.readA y = s.readA x ∧
      (∀ m, m ≠ x → m ≠ y → t.readA m = s.readA m) ∧ s.sameInactive t ∧
      t = { s with a := t.a, usp := t.usp, ssp := t.ssp, pc := s.pc + 2 }) ∧
    (∃ t, exec (.exgDa x y) s = .next t ∧ t.dreg x = s.readA y ∧ t.readA y = s.dreg x ∧
      (∀ m, m ≠ x → t.dreg m = s.dreg m) ∧ (∀ m, m ≠ y → t.readA m = s.readA m) ∧ s.sameInactive t ∧
      t = { s with d := t.d, a := t.a, usp := t.usp, ssp := t.ssp, pc := s.pc + 2 })

/-- EXT (R288): byte to word, the upper word unchanged; word to long word; the flags of R35. -/
def Obligations.SignExtension : Prop :=
  ∀ (n : RegNum) (s : State),
    (∃ t, exec (.extW n) s = .next t ∧ (t.readD n .w).toInt = (s.readD n .b).toInt ∧
      (∀ i, 16 ≤ i → (t.dreg n).getLsbD i = (s.dreg n).getLsbD i) ∧ (∀ m, m ≠ n → t.dreg m = s.dreg m) ∧
      t.flags = ⟨s.sr.x, (s.readD n .b).msb, s.readD n .b == 0, false, false⟩ ∧
      t = { s with d := t.d, sr := s.sr.withFlags t.flags, pc := s.pc + 2 }) ∧
    (∃ t, exec (.extL n) s = .next t ∧ (t.dreg n).toInt = (s.readD n .w).toInt ∧
      (∀ m, m ≠ n → t.dreg m = s.dreg m) ∧
      t.flags = ⟨s.sr.x, (s.readD n .w).msb, s.readD n .w == 0, false, false⟩ ∧
      t = { s with d := t.d, sr := s.sr.withFlags t.flags, pc := s.pc + 2 })

/-! ## Frames, over every instruction -/

/-- No instruction changes a data register but its destination, or an address register but its destination, those its
addressing modes update and `A7` for BSR; the stack pointers change only so, or, the supervisor's, by an exception
the instruction takes. -/
def Obligations.FrameOfRegisters : Prop :=
  ∀ (i : Instr) (s t : State), exec i s = .next t →
    (∀ n, n ∉ i.destD → t.dreg n = s.dreg n) ∧
    (∀ n : RegNum, n ≠ 7 → n ∉ i.destA → t.readA n = s.readA n) ∧
    (7 ∉ i.destA → t.usp = s.usp ∧ (trapOf i s = none → t.ssp = s.ssp)) ∧
    (s.sr.s = true → t.usp = s.usp) ∧ (s.sr.s = false → trapOf i s = none → t.ssp = s.ssp)

/-- An instruction that takes no exception changes no byte of memory but those it stores: none for a form that stores
nothing. -/
def Obligations.FrameOfMemory : Prop :=
  ∀ (i : Instr) (s t : State), exec i s = .next t → trapOf i s = none →
    (storeTo i s = none → ∀ b : Long, t.readByte b = s.readByte b) ∧
    (∀ a k, storeTo i s = some (a, k) → ∀ b : Long, s.outside b a k → t.readByte b = s.readByte b)

/-- An instruction that takes no exception changes `T`, `S` and the mask only if it is ANDI or EORI to SR (R331), and of
the flags only those the spec names for it: none for the branches, DBcc, EXG and additions into an address register
(where `ADDA_CCR` leaves them), `Z` alone for the bit instructions, all but `X` for logic, compare, clear, check,
divide and extend. -/
def Obligations.FrameOfStatus : Prop :=
  ∀ (i : Instr) (s t : State), exec i s = .next t → trapOf i s = none → writesSr i = false →
    t.sr.t = s.sr.t ∧ t.sr.s = s.sr.s ∧ t.sr.i = s.sr.i ∧
    (keepsFlags i s = true → t.sr = s.sr) ∧ (onlyZ i = true → t.sr = { s.sr with z := t.sr.z }) ∧
    (keepsX i = true → t.sr.x = s.sr.x)

/-- No instruction changes what the platform presents or the launch parameters; an exception one takes is entered with
`S` set, `T` cleared and the mask kept (R310). -/
def Obligations.FrameOfPlatform : Prop :=
  ∀ (i : Instr) (s t : State), exec i s = .next t →
    t.params = s.params ∧ t.irq = s.irq ∧ t.irqFeed = s.irqFeed ∧ t.resetLine = s.resetLine ∧
    (trapOf i s ≠ none → t.sr.s = true ∧ t.sr.t = false ∧ t.sr.i = s.sr.i)
end

