-- ==== Sys2Proof/Laws/State.lean ====
section
/-! SUPPORT. The fields of a state after each update: one lemma per field per update. -/

namespace Sys2Proof.Machine

open Sys2Proof

/-- Two states with equal fields are equal. -/
theorem State.eq_of_fields {u v : State} (hd : u.d = v.d) (ha : u.a = v.a) (husp : u.usp = v.usp) (hssp : u.ssp = v.ssp)
    (hpc : u.pc = v.pc) (hsr : u.sr = v.sr) (hmem : u.mem = v.mem) (hirq : u.irq = v.irq)
    (hfeed : u.irqFeed = v.irqFeed) (hline : u.resetLine = v.resetLine) (hparams : u.params = v.params)
    (hcount : u.freeCount = v.freeCount) : u = v := by
  cases u; cases v; simp_all

/-! ## setSsp -/

@[simp] theorem setSsp_d (s : State) (v : Long) : (s.setSsp v).d = s.d := rfl
@[simp] theorem setSsp_a (s : State) (v : Long) : (s.setSsp v).a = s.a := rfl
@[simp] theorem setSsp_usp (s : State) (v : Long) : (s.setSsp v).usp = s.usp := rfl
@[simp] theorem setSsp_ssp (s : State) (v : Long) : (s.setSsp v).ssp = v := rfl
@[simp] theorem setSsp_pc (s : State) (v : Long) : (s.setSsp v).pc = s.pc := rfl
@[simp] theorem setSsp_sr (s : State) (v : Long) : (s.setSsp v).sr = s.sr := rfl
@[simp] theorem setSsp_mem (s : State) (v : Long) : (s.setSsp v).mem = s.mem := rfl
@[simp] theorem setSsp_irq (s : State) (v : Long) : (s.setSsp v).irq = s.irq := rfl
@[simp] theorem setSsp_irqFeed (s : State) (v : Long) : (s.setSsp v).irqFeed = s.irqFeed := rfl
@[simp] theorem setSsp_resetLine (s : State) (v : Long) : (s.setSsp v).resetLine = s.resetLine := rfl
@[simp] theorem setSsp_params (s : State) (v : Long) : (s.setSsp v).params = s.params := rfl
@[simp] theorem setSsp_freeCount (s : State) (v : Long) : (s.setSsp v).freeCount = s.freeCount := rfl

/-! ## setSr -/

@[simp] theorem setSr_d (s : State) (v : Status) : (s.setSr v).d = s.d := rfl
@[simp] theorem setSr_a (s : State) (v : Status) : (s.setSr v).a = s.a := rfl
@[simp] theorem setSr_usp (s : State) (v : Status) : (s.setSr v).usp = s.usp := rfl
@[simp] theorem setSr_ssp (s : State) (v : Status) : (s.setSr v).ssp = s.ssp := rfl
@[simp] theorem setSr_pc (s : State) (v : Status) : (s.setSr v).pc = s.pc := rfl
@[simp] theorem setSr_sr (s : State) (v : Status) : (s.setSr v).sr = v := rfl
@[simp] theorem setSr_mem (s : State) (v : Status) : (s.setSr v).mem = s.mem := rfl
@[simp] theorem setSr_irq (s : State) (v : Status) : (s.setSr v).irq = s.irq := rfl
@[simp] theorem setSr_irqFeed (s : State) (v : Status) : (s.setSr v).irqFeed = s.irqFeed := rfl
@[simp] theorem setSr_resetLine (s : State) (v : Status) : (s.setSr v).resetLine = s.resetLine := rfl
@[simp] theorem setSr_params (s : State) (v : Status) : (s.setSr v).params = s.params := rfl
@[simp] theorem setSr_freeCount (s : State) (v : Status) : (s.setSr v).freeCount = s.freeCount := rfl

/-! ## setPc -/

@[simp] theorem setPc_d (s : State) (v : Long) : (s.setPc v).d = s.d := rfl
@[simp] theorem setPc_a (s : State) (v : Long) : (s.setPc v).a = s.a := rfl
@[simp] theorem setPc_usp (s : State) (v : Long) : (s.setPc v).usp = s.usp := rfl
@[simp] theorem setPc_ssp (s : State) (v : Long) : (s.setPc v).ssp = s.ssp := rfl
@[simp] theorem setPc_pc (s : State) (v : Long) : (s.setPc v).pc = v := rfl
@[simp] theorem setPc_sr (s : State) (v : Long) : (s.setPc v).sr = s.sr := rfl
@[simp] theorem setPc_mem (s : State) (v : Long) : (s.setPc v).mem = s.mem := rfl
@[simp] theorem setPc_irq (s : State) (v : Long) : (s.setPc v).irq = s.irq := rfl
@[simp] theorem setPc_irqFeed (s : State) (v : Long) : (s.setPc v).irqFeed = s.irqFeed := rfl
@[simp] theorem setPc_resetLine (s : State) (v : Long) : (s.setPc v).resetLine = s.resetLine := rfl
@[simp] theorem setPc_params (s : State) (v : Long) : (s.setPc v).params = s.params := rfl
@[simp] theorem setPc_freeCount (s : State) (v : Long) : (s.setPc v).freeCount = s.freeCount := rfl

/-! ## setIrq -/

@[simp] theorem setIrq_d (s : State) (r : IrqRequest) (rs : List IrqRequest) : (s.setIrq r rs).d = s.d := rfl
@[simp] theorem setIrq_a (s : State) (r : IrqRequest) (rs : List IrqRequest) : (s.setIrq r rs).a = s.a := rfl
@[simp] theorem setIrq_usp (s : State) (r : IrqRequest) (rs : List IrqRequest) : (s.setIrq r rs).usp = s.usp := rfl
@[simp] theorem setIrq_ssp (s : State) (r : IrqRequest) (rs : List IrqRequest) : (s.setIrq r rs).ssp = s.ssp := rfl
@[simp] theorem setIrq_pc (s : State) (r : IrqRequest) (rs : List IrqRequest) : (s.setIrq r rs).pc = s.pc := rfl
@[simp] theorem setIrq_sr (s : State) (r : IrqRequest) (rs : List IrqRequest) : (s.setIrq r rs).sr = s.sr := rfl
@[simp] theorem setIrq_mem (s : State) (r : IrqRequest) (rs : List IrqRequest) : (s.setIrq r rs).mem = s.mem := rfl
@[simp] theorem setIrq_irq (s : State) (r : IrqRequest) (rs : List IrqRequest) : (s.setIrq r rs).irq = r := rfl
@[simp] theorem setIrq_irqFeed (s : State) (r : IrqRequest) (rs : List IrqRequest) : (s.setIrq r rs).irqFeed = rs := rfl
@[simp] theorem setIrq_resetLine (s : State) (r : IrqRequest) (rs : List IrqRequest) : (s.setIrq r rs).resetLine = s.resetLine := rfl
@[simp] theorem setIrq_params (s : State) (r : IrqRequest) (rs : List IrqRequest) : (s.setIrq r rs).params = s.params := rfl
@[simp] theorem setIrq_freeCount (s : State) (r : IrqRequest) (rs : List IrqRequest) : (s.setIrq r rs).freeCount = s.freeCount := rfl

/-! ## setD -/

@[simp] theorem setD_d (s : State) (n : RegNum) (v : Long) : (s.setD n v).d = s.d.set n.val v := rfl
@[simp] theorem setD_a (s : State) (n : RegNum) (v : Long) : (s.setD n v).a = s.a := rfl
@[simp] theorem setD_usp (s : State) (n : RegNum) (v : Long) : (s.setD n v).usp = s.usp := rfl
@[simp] theorem setD_ssp (s : State) (n : RegNum) (v : Long) : (s.setD n v).ssp = s.ssp := rfl
@[simp] theorem setD_pc (s : State) (n : RegNum) (v : Long) : (s.setD n v).pc = s.pc := rfl
@[simp] theorem setD_sr (s : State) (n : RegNum) (v : Long) : (s.setD n v).sr = s.sr := rfl
@[simp] theorem setD_mem (s : State) (n : RegNum) (v : Long) : (s.setD n v).mem = s.mem := rfl
@[simp] theorem setD_irq (s : State) (n : RegNum) (v : Long) : (s.setD n v).irq = s.irq := rfl
@[simp] theorem setD_irqFeed (s : State) (n : RegNum) (v : Long) : (s.setD n v).irqFeed = s.irqFeed := rfl
@[simp] theorem setD_resetLine (s : State) (n : RegNum) (v : Long) : (s.setD n v).resetLine = s.resetLine := rfl
@[simp] theorem setD_params (s : State) (n : RegNum) (v : Long) : (s.setD n v).params = s.params := rfl
@[simp] theorem setD_freeCount (s : State) (n : RegNum) (v : Long) : (s.setD n v).freeCount = s.freeCount := rfl

/-! ## writeD -/

@[simp] theorem writeD_d (s : State) (n : RegNum) (sz : Size) (v : BitVec sz.bits) : (s.writeD n sz v).d = s.d.set n.val (mergeLow (s.dreg n) v) := rfl
@[simp] theorem writeD_a (s : State) (n : RegNum) (sz : Size) (v : BitVec sz.bits) : (s.writeD n sz v).a = s.a := rfl
@[simp] theorem writeD_usp (s : State) (n : RegNum) (sz : Size) (v : BitVec sz.bits) : (s.writeD n sz v).usp = s.usp := rfl
@[simp] theorem writeD_ssp (s : State) (n : RegNum) (sz : Size) (v : BitVec sz.bits) : (s.writeD n sz v).ssp = s.ssp := rfl
@[simp] theorem writeD_pc (s : State) (n : RegNum) (sz : Size) (v : BitVec sz.bits) : (s.writeD n sz v).pc = s.pc := rfl
@[simp] theorem writeD_sr (s : State) (n : RegNum) (sz : Size) (v : BitVec sz.bits) : (s.writeD n sz v).sr = s.sr := rfl
@[simp] theorem writeD_mem (s : State) (n : RegNum) (sz : Size) (v : BitVec sz.bits) : (s.writeD n sz v).mem = s.mem := rfl
@[simp] theorem writeD_irq (s : State) (n : RegNum) (sz : Size) (v : BitVec sz.bits) : (s.writeD n sz v).irq = s.irq := rfl
@[simp] theorem writeD_irqFeed (s : State) (n : RegNum) (sz : Size) (v : BitVec sz.bits) : (s.writeD n sz v).irqFeed = s.irqFeed := rfl
@[simp] theorem writeD_resetLine (s : State) (n : RegNum) (sz : Size) (v : BitVec sz.bits) : (s.writeD n sz v).resetLine = s.resetLine := rfl
@[simp] theorem writeD_params (s : State) (n : RegNum) (sz : Size) (v : BitVec sz.bits) : (s.writeD n sz v).params = s.params := rfl
@[simp] theorem writeD_freeCount (s : State) (n : RegNum) (sz : Size) (v : BitVec sz.bits) : (s.writeD n sz v).freeCount = s.freeCount := rfl

/-! ## advance -/

@[simp] theorem advance_d (s : State) (k : Nat) : (s.advance k).d = s.d := rfl
@[simp] theorem advance_a (s : State) (k : Nat) : (s.advance k).a = s.a := rfl
@[simp] theorem advance_usp (s : State) (k : Nat) : (s.advance k).usp = s.usp := rfl
@[simp] theorem advance_ssp (s : State) (k : Nat) : (s.advance k).ssp = s.ssp := rfl
@[simp] theorem advance_pc (s : State) (k : Nat) : (s.advance k).pc = s.pc + BitVec.ofNat 32 k := rfl
@[simp] theorem advance_sr (s : State) (k : Nat) : (s.advance k).sr = s.sr := rfl
@[simp] theorem advance_mem (s : State) (k : Nat) : (s.advance k).mem = s.mem := rfl
@[simp] theorem advance_irq (s : State) (k : Nat) : (s.advance k).irq = s.irq := rfl
@[simp] theorem advance_irqFeed (s : State) (k : Nat) : (s.advance k).irqFeed = s.irqFeed := rfl
@[simp] theorem advance_resetLine (s : State) (k : Nat) : (s.advance k).resetLine = s.resetLine := rfl
@[simp] theorem advance_params (s : State) (k : Nat) : (s.advance k).params = s.params := rfl
@[simp] theorem advance_freeCount (s : State) (k : Nat) : (s.advance k).freeCount = s.freeCount := rfl

/-! ## drawn -/

@[simp] theorem drawn_d (s : State) (k : Nat) : (s.drawn k).d = s.d := rfl
@[simp] theorem drawn_a (s : State) (k : Nat) : (s.drawn k).a = s.a := rfl
@[simp] theorem drawn_usp (s : State) (k : Nat) : (s.drawn k).usp = s.usp := rfl
@[simp] theorem drawn_ssp (s : State) (k : Nat) : (s.drawn k).ssp = s.ssp := rfl
@[simp] theorem drawn_pc (s : State) (k : Nat) : (s.drawn k).pc = s.pc := rfl
@[simp] theorem drawn_sr (s : State) (k : Nat) : (s.drawn k).sr = s.sr := rfl
@[simp] theorem drawn_mem (s : State) (k : Nat) : (s.drawn k).mem = s.mem := rfl
@[simp] theorem drawn_irq (s : State) (k : Nat) : (s.drawn k).irq = s.irq := rfl
@[simp] theorem drawn_irqFeed (s : State) (k : Nat) : (s.drawn k).irqFeed = s.irqFeed := rfl
@[simp] theorem drawn_resetLine (s : State) (k : Nat) : (s.drawn k).resetLine = s.resetLine := rfl
@[simp] theorem drawn_params (s : State) (k : Nat) : (s.drawn k).params = s.params := rfl
@[simp] theorem drawn_freeCount (s : State) (k : Nat) : (s.drawn k).freeCount = s.freeCount + k := rfl

/-! ## setFlags -/

@[simp] theorem setFlags_d (s : State) (f : Flags) : (s.setFlags f).d = s.d := rfl
@[simp] theorem setFlags_a (s : State) (f : Flags) : (s.setFlags f).a = s.a := rfl
@[simp] theorem setFlags_usp (s : State) (f : Flags) : (s.setFlags f).usp = s.usp := rfl
@[simp] theorem setFlags_ssp (s : State) (f : Flags) : (s.setFlags f).ssp = s.ssp := rfl
@[simp] theorem setFlags_pc (s : State) (f : Flags) : (s.setFlags f).pc = s.pc := rfl
@[simp] theorem setFlags_sr (s : State) (f : Flags) : (s.setFlags f).sr = s.sr.withFlags f := rfl
@[simp] theorem setFlags_mem (s : State) (f : Flags) : (s.setFlags f).mem = s.mem := rfl
@[simp] theorem setFlags_irq (s : State) (f : Flags) : (s.setFlags f).irq = s.irq := rfl
@[simp] theorem setFlags_irqFeed (s : State) (f : Flags) : (s.setFlags f).irqFeed = s.irqFeed := rfl
@[simp] theorem setFlags_resetLine (s : State) (f : Flags) : (s.setFlags f).resetLine = s.resetLine := rfl
@[simp] theorem setFlags_params (s : State) (f : Flags) : (s.setFlags f).params = s.params := rfl
@[simp] theorem setFlags_freeCount (s : State) (f : Flags) : (s.setFlags f).freeCount = s.freeCount := rfl

/-! ## writeByte -/

@[simp] theorem writeByte_d (s : State) (a : Long) (b : Byte) : (s.writeByte a b).d = s.d := rfl
@[simp] theorem writeByte_a (s : State) (a : Long) (b : Byte) : (s.writeByte a b).a = s.a := rfl
@[simp] theorem writeByte_usp (s : State) (a : Long) (b : Byte) : (s.writeByte a b).usp = s.usp := rfl
@[simp] theorem writeByte_ssp (s : State) (a : Long) (b : Byte) : (s.writeByte a b).ssp = s.ssp := rfl
@[simp] theorem writeByte_pc (s : State) (a : Long) (b : Byte) : (s.writeByte a b).pc = s.pc := rfl
@[simp] theorem writeByte_sr (s : State) (a : Long) (b : Byte) : (s.writeByte a b).sr = s.sr := rfl
@[simp] theorem writeByte_mem (s : State) (a : Long) (b : Byte) : (s.writeByte a b).mem = Memory.write s.params.memFill s.mem (s.phys a) b := rfl
@[simp] theorem writeByte_irq (s : State) (a : Long) (b : Byte) : (s.writeByte a b).irq = s.irq := rfl
@[simp] theorem writeByte_irqFeed (s : State) (a : Long) (b : Byte) : (s.writeByte a b).irqFeed = s.irqFeed := rfl
@[simp] theorem writeByte_resetLine (s : State) (a : Long) (b : Byte) : (s.writeByte a b).resetLine = s.resetLine := rfl
@[simp] theorem writeByte_params (s : State) (a : Long) (b : Byte) : (s.writeByte a b).params = s.params := rfl
@[simp] theorem writeByte_freeCount (s : State) (a : Long) (b : Byte) : (s.writeByte a b).freeCount = s.freeCount := rfl

/-! ## writeA -/

@[simp] theorem writeA_d (s : State) (n : RegNum) (v : Long) : (s.writeA n v).d = s.d := by
  unfold State.writeA; split <;> [rfl; (split <;> rfl)]
@[simp] theorem writeA_pc (s : State) (n : RegNum) (v : Long) : (s.writeA n v).pc = s.pc := by
  unfold State.writeA; split <;> [rfl; (split <;> rfl)]
@[simp] theorem writeA_sr (s : State) (n : RegNum) (v : Long) : (s.writeA n v).sr = s.sr := by
  unfold State.writeA; split <;> [rfl; (split <;> rfl)]
@[simp] theorem writeA_mem (s : State) (n : RegNum) (v : Long) : (s.writeA n v).mem = s.mem := by
  unfold State.writeA; split <;> [rfl; (split <;> rfl)]
@[simp] theorem writeA_irq (s : State) (n : RegNum) (v : Long) : (s.writeA n v).irq = s.irq := by
  unfold State.writeA; split <;> [rfl; (split <;> rfl)]
@[simp] theorem writeA_irqFeed (s : State) (n : RegNum) (v : Long) : (s.writeA n v).irqFeed = s.irqFeed := by
  unfold State.writeA; split <;> [rfl; (split <;> rfl)]
@[simp] theorem writeA_resetLine (s : State) (n : RegNum) (v : Long) : (s.writeA n v).resetLine = s.resetLine := by
  unfold State.writeA; split <;> [rfl; (split <;> rfl)]
@[simp] theorem writeA_params (s : State) (n : RegNum) (v : Long) : (s.writeA n v).params = s.params := by
  unfold State.writeA; split <;> [rfl; (split <;> rfl)]
@[simp] theorem writeA_freeCount (s : State) (n : RegNum) (v : Long) : (s.writeA n v).freeCount = s.freeCount := by
  unfold State.writeA; split <;> [rfl; (split <;> rfl)]

/-! ## writeBytes -/

@[simp] theorem writeBytes_d (s : State) (a : Long) (bs : List Byte) : (s.writeBytes a bs).d = s.d := by
  induction bs generalizing s a with
  | nil => rfl
  | cons b bs ih => simp [State.writeBytes, ih]
@[simp] theorem writeBytes_a (s : State) (a : Long) (bs : List Byte) : (s.writeBytes a bs).a = s.a := by
  induction bs generalizing s a with
  | nil => rfl
  | cons b bs ih => simp [State.writeBytes, ih]
@[simp] theorem writeBytes_usp (s : State) (a : Long) (bs : List Byte) : (s.writeBytes a bs).usp = s.usp := by
  induction bs generalizing s a with
  | nil => rfl
  | cons b bs ih => simp [State.writeBytes, ih]
@[simp] theorem writeBytes_ssp (s : State) (a : Long) (bs : List Byte) : (s.writeBytes a bs).ssp = s.ssp := by
  induction bs generalizing s a with
  | nil => rfl
  | cons b bs ih => simp [State.writeBytes, ih]
@[simp] theorem writeBytes_pc (s : State) (a : Long) (bs : List Byte) : (s.writeBytes a bs).pc = s.pc := by
  induction bs generalizing s a with
  | nil => rfl
  | cons b bs ih => simp [State.writeBytes, ih]
@[simp] theorem writeBytes_sr (s : State) (a : Long) (bs : List Byte) : (s.writeBytes a bs).sr = s.sr := by
  induction bs generalizing s a with
  | nil => rfl
  | cons b bs ih => simp [State.writeBytes, ih]
@[simp] theorem writeBytes_irq (s : State) (a : Long) (bs : List Byte) : (s.writeBytes a bs).irq = s.irq := by
  induction bs generalizing s a with
  | nil => rfl
  | cons b bs ih => simp [State.writeBytes, ih]
@[simp] theorem writeBytes_irqFeed (s : State) (a : Long) (bs : List Byte) : (s.writeBytes a bs).irqFeed = s.irqFeed := by
  induction bs generalizing s a with
  | nil => rfl
  | cons b bs ih => simp [State.writeBytes, ih]
@[simp] theorem writeBytes_resetLine (s : State) (a : Long) (bs : List Byte) : (s.writeBytes a bs).resetLine = s.resetLine := by
  induction bs generalizing s a with
  | nil => rfl
  | cons b bs ih => simp [State.writeBytes, ih]
@[simp] theorem writeBytes_params (s : State) (a : Long) (bs : List Byte) : (s.writeBytes a bs).params = s.params := by
  induction bs generalizing s a with
  | nil => rfl
  | cons b bs ih => simp [State.writeBytes, ih]
@[simp] theorem writeBytes_freeCount (s : State) (a : Long) (bs : List Byte) : (s.writeBytes a bs).freeCount = s.freeCount := by
  induction bs generalizing s a with
  | nil => rfl
  | cons b bs ih => simp [State.writeBytes, ih]

/-! ## eaUpdate -/

@[simp] theorem eaUpdate_d (s : State) (sz : Size) (ea : EA) : (s.eaUpdate sz ea).d = s.d := by
  cases ea <;> simp [State.eaUpdate]
@[simp] theorem eaUpdate_pc (s : State) (sz : Size) (ea : EA) : (s.eaUpdate sz ea).pc = s.pc := by
  cases ea <;> simp [State.eaUpdate]
@[simp] theorem eaUpdate_sr (s : State) (sz : Size) (ea : EA) : (s.eaUpdate sz ea).sr = s.sr := by
  cases ea <;> simp [State.eaUpdate]
@[simp] theorem eaUpdate_mem (s : State) (sz : Size) (ea : EA) : (s.eaUpdate sz ea).mem = s.mem := by
  cases ea <;> simp [State.eaUpdate]
@[simp] theorem eaUpdate_irq (s : State) (sz : Size) (ea : EA) : (s.eaUpdate sz ea).irq = s.irq := by
  cases ea <;> simp [State.eaUpdate]
@[simp] theorem eaUpdate_irqFeed (s : State) (sz : Size) (ea : EA) : (s.eaUpdate sz ea).irqFeed = s.irqFeed := by
  cases ea <;> simp [State.eaUpdate]
@[simp] theorem eaUpdate_resetLine (s : State) (sz : Size) (ea : EA) : (s.eaUpdate sz ea).resetLine = s.resetLine := by
  cases ea <;> simp [State.eaUpdate]
@[simp] theorem eaUpdate_params (s : State) (sz : Size) (ea : EA) : (s.eaUpdate sz ea).params = s.params := by
  cases ea <;> simp [State.eaUpdate]
@[simp] theorem eaUpdate_freeCount (s : State) (sz : Size) (ea : EA) : (s.eaUpdate sz ea).freeCount = s.freeCount := by
  cases ea <;> simp [State.eaUpdate]

/-! ## stored -/

@[simp] theorem stored_d (s : State) (a : Long) (sz : Size) (v : BitVec sz.bits) : (s.stored a sz v).d = s.d := by
  simp [State.stored]
@[simp] theorem stored_a (s : State) (a : Long) (sz : Size) (v : BitVec sz.bits) : (s.stored a sz v).a = s.a := by
  simp [State.stored]
@[simp] theorem stored_usp (s : State) (a : Long) (sz : Size) (v : BitVec sz.bits) : (s.stored a sz v).usp = s.usp := by
  simp [State.stored]
@[simp] theorem stored_ssp (s : State) (a : Long) (sz : Size) (v : BitVec sz.bits) : (s.stored a sz v).ssp = s.ssp := by
  simp [State.stored]
@[simp] theorem stored_pc (s : State) (a : Long) (sz : Size) (v : BitVec sz.bits) : (s.stored a sz v).pc = s.pc := by
  simp [State.stored]
@[simp] theorem stored_sr (s : State) (a : Long) (sz : Size) (v : BitVec sz.bits) : (s.stored a sz v).sr = s.sr := by
  simp [State.stored]
@[simp] theorem stored_irq (s : State) (a : Long) (sz : Size) (v : BitVec sz.bits) : (s.stored a sz v).irq = s.irq := by
  simp [State.stored]
@[simp] theorem stored_irqFeed (s : State) (a : Long) (sz : Size) (v : BitVec sz.bits) : (s.stored a sz v).irqFeed = s.irqFeed := by
  simp [State.stored]
@[simp] theorem stored_resetLine (s : State) (a : Long) (sz : Size) (v : BitVec sz.bits) : (s.stored a sz v).resetLine = s.resetLine := by
  simp [State.stored]
@[simp] theorem stored_params (s : State) (a : Long) (sz : Size) (v : BitVec sz.bits) : (s.stored a sz v).params = s.params := by
  simp [State.stored]
@[simp] theorem stored_freeCount (s : State) (a : Long) (sz : Size) (v : BitVec sz.bits) : (s.stored a sz v).freeCount = s.freeCount := by
  simp [State.stored]

/-! ## The status register -/

@[simp] theorem withFlags_t (r : Status) (f : Flags) : (r.withFlags f).t = r.t := rfl
@[simp] theorem withFlags_s (r : Status) (f : Flags) : (r.withFlags f).s = r.s := rfl
@[simp] theorem withFlags_i (r : Status) (f : Flags) : (r.withFlags f).i = r.i := rfl
@[simp] theorem withFlags_x (r : Status) (f : Flags) : (r.withFlags f).x = f.x := rfl
@[simp] theorem withFlags_n (r : Status) (f : Flags) : (r.withFlags f).n = f.n := rfl
@[simp] theorem withFlags_z (r : Status) (f : Flags) : (r.withFlags f).z = f.z := rfl
@[simp] theorem withFlags_v (r : Status) (f : Flags) : (r.withFlags f).v = f.v := rfl
@[simp] theorem withFlags_c (r : Status) (f : Flags) : (r.withFlags f).c = f.c := rfl
@[simp] theorem withFlags_flags (r : Status) (f : Flags) : (r.withFlags f).flags = f := rfl
@[simp] theorem withFlags_self (r : Status) : r.withFlags r.flags = r := rfl
@[simp] theorem withFlags_withFlags (r : Status) (f g : Flags) : (r.withFlags f).withFlags g = r.withFlags g := rfl

end Sys2Proof.Machine
end

