-- ==== Sys2Proof/Laws/Memory.lean ====
section
/-! SUPPORT. Memory: reads after writes, the canonical form kept, and the bytes of wider values. -/

namespace Sys2Proof.Machine

open Sys2Proof

/-! ## One cell -/

theorem lookup_insert (cs : List Host.Cell) (a x : Nat) (b : Byte) :
    Memory.lookup (Memory.insert cs a b) x = if a = x then some b else Memory.lookup cs x := by
  induction cs with
  | nil => simp [Memory.insert, Memory.lookup]
  | cons c cs ih =>
    obtain ⟨k, v⟩ := c
    simp only [Memory.insert]
    split
    · simp [Memory.lookup]
    · split
      · subst a; by_cases h : k = x <;> simp [Memory.lookup, h]
      · by_cases h : k = x <;> simp [Memory.lookup, h, ih]
        omega

theorem lookup_erase_other (cs : List Host.Cell) {a x : Nat} (h : a ≠ x) :
    Memory.lookup (Memory.erase cs a) x = Memory.lookup cs x := by
  induction cs with
  | nil => rfl
  | cons c cs ih =>
    obtain ⟨k, v⟩ := c
    simp only [Memory.erase]
    split
    · rfl
    · split
      · subst a; simp [Memory.lookup, h]
      · simp [Memory.lookup, ih]

theorem lookup_of_ne {cs : List Host.Cell} {a : Nat} (h : ∀ c ∈ cs, c.1 ≠ a) : Memory.lookup cs a = none := by
  induction cs with
  | nil => rfl
  | cons c cs ih =>
    rw [Memory.lookup, if_neg (h c (List.mem_cons_self ..))]
    exact ih fun e he => h e (List.mem_cons_of_mem _ he)

theorem lookup_of_lt {cs : List Host.Cell} {a : Nat} (h : ∀ c ∈ cs, a < c.1) : Memory.lookup cs a = none := by
  induction cs with
  | nil => rfl
  | cons c cs ih =>
    obtain ⟨k, v⟩ := c
    have := h (k, v) (by simp)
    simp only [Memory.lookup]
    rw [if_neg (by omega)]
    exact ih fun c hc => h c (by simp [hc])

theorem lookup_erase_self {cs : List Host.Cell} (a : Nat) (h : cs.Pairwise fun p q => p.1 < q.1) :
    Memory.lookup (Memory.erase cs a) a = none := by
  induction cs with
  | nil => rfl
  | cons c cs ih =>
    obtain ⟨k, v⟩ := c
    simp only [List.pairwise_cons] at h
    simp only [Memory.erase]
    split
    · exact lookup_of_lt fun c hc => by
        rcases List.mem_cons.mp hc with rfl | hc
        · assumption
        · have := h.1 c hc; omega
    · split
      · subst a; exact lookup_of_lt h.1
      · rw [Memory.lookup, if_neg (by omega)]; exact ih h.2

theorem read_write_other (fill : Option Byte) (cs : List Host.Cell) {a x : Nat} (b : Byte) (h : a ≠ x) :
    Memory.read fill (Memory.write fill cs a b) x = Memory.read fill cs x := by
  unfold Memory.read Memory.write
  cases fill with
  | none => simp [lookup_insert, h]
  | some f =>
    by_cases hb : b = f
    · simp [hb, lookup_erase_other cs h]
    · simp [hb, lookup_insert, h]

theorem read_write_self {fill : Option Byte} {cs : List Host.Cell} (a : Nat) (b : Byte) (h : Memory.wf fill cs) :
    Memory.read fill (Memory.write fill cs a b) a = some b := by
  unfold Memory.read Memory.write
  cases fill with
  | none => simp [lookup_insert]
  | some f =>
    by_cases hb : b = f
    · simp [hb, lookup_erase_self a h.1]
    · simp [hb, lookup_insert]

/-! ## The canonical form is kept -/

theorem mem_insert {cs : List Host.Cell} {a : Nat} {b : Byte} {c : Host.Cell} (h : c ∈ Memory.insert cs a b) :
    c = (a, b) ∨ c ∈ cs := by
  induction cs with
  | nil => simpa [Memory.insert] using h
  | cons d cs ih =>
    obtain ⟨k, v⟩ := d
    simp only [Memory.insert] at h
    split at h
    · simpa using h
    · split at h
      · rcases List.mem_cons.mp h with h | h <;> simp [h]
      · rcases List.mem_cons.mp h with h | h
        · simp [h]
        · rcases ih h with h | h <;> simp [h]

theorem mem_erase {cs : List Host.Cell} {a : Nat} {c : Host.Cell} (h : c ∈ Memory.erase cs a) : c ∈ cs := by
  induction cs with
  | nil => simp [Memory.erase] at h
  | cons d cs ih =>
    obtain ⟨k, v⟩ := d
    simp only [Memory.erase] at h
    split at h
    · exact h
    · split at h
      · simp [h]
      · rcases List.mem_cons.mp h with h | h
        · simp [h]
        · simp [ih h]

theorem mem_write {fill : Option Byte} {cs : List Host.Cell} {a : Nat} {b : Byte} {c : Host.Cell}
    (h : c ∈ Memory.write fill cs a b) : c = (a, b) ∨ c ∈ cs := by
  unfold Memory.write at h
  cases fill with
  | none => exact mem_insert h
  | some f =>
    simp only at h
    split at h
    · exact .inr (mem_erase h)
    · exact mem_insert h

theorem insert_sorted {cs : List Host.Cell} (a : Nat) (b : Byte) (h : cs.Pairwise fun p q => p.1 < q.1) :
    (Memory.insert cs a b).Pairwise fun p q => p.1 < q.1 := by
  induction cs with
  | nil => simp [Memory.insert]
  | cons c cs ih =>
    obtain ⟨k, v⟩ := c
    simp only [Memory.insert]
    split
    · refine List.pairwise_cons.mpr ⟨fun c hc => ?_, h⟩
      rcases List.mem_cons.mp hc with rfl | hc
      · assumption
      · have := (List.pairwise_cons.mp h).1 c hc; dsimp only at *; omega
    · split
      · subst a; exact List.pairwise_cons.mpr ⟨(List.pairwise_cons.mp h).1, (List.pairwise_cons.mp h).2⟩
      · refine List.pairwise_cons.mpr ⟨fun c hc => ?_, ih (List.pairwise_cons.mp h).2⟩
        rcases mem_insert hc with rfl | hc
        · dsimp only; omega
        · exact (List.pairwise_cons.mp h).1 c hc

theorem erase_sorted {cs : List Host.Cell} (a : Nat) (h : cs.Pairwise fun p q => p.1 < q.1) :
    (Memory.erase cs a).Pairwise fun p q => p.1 < q.1 := by
  induction cs with
  | nil => simp [Memory.erase]
  | cons c cs ih =>
    obtain ⟨k, v⟩ := c
    simp only [Memory.erase]
    split
    · exact h
    · split
      · exact (List.pairwise_cons.mp h).2
      · exact List.pairwise_cons.mpr
          ⟨fun c hc => (List.pairwise_cons.mp h).1 c (mem_erase hc), ih (List.pairwise_cons.mp h).2⟩

theorem write_wf {fill : Option Byte} {cs : List Host.Cell} (a : Nat) (b : Byte) (h : Memory.wf fill cs) :
    Memory.wf fill (Memory.write fill cs a b) := by
  unfold Memory.write
  cases fill with
  | none => exact ⟨insert_sorted a b h.1, by simp⟩
  | some f =>
    simp only
    split
    · exact ⟨erase_sorted a h.1, fun p hp => h.2 p (mem_erase hp)⟩
    · refine ⟨insert_sorted a b h.1, fun p hp => ?_⟩
      rcases mem_insert hp with rfl | hp
      · simpa using ‹¬b = f›
      · exact h.2 p hp

/-! ## Bytes of wider values (R54) -/

@[simp] theorem beBytes_length (k v : Nat) : (beBytes k v).length = k := by
  induction k with
  | zero => rfl
  | succ k ih => simp [beBytes, ih]

theorem beValue_beBytes (k v : Nat) : beValue (beBytes k v) = v % 256 ^ k := by
  induction k with
  | zero => simp [beBytes, beValue, Nat.mod_one]
  | succ k ih =>
    have hp : 0 < 256 ^ k := Nat.pow_pos (by decide)
    simp only [beBytes, beValue, beBytes_length, ih, BitVec.toNat_ofNat]
    rw [show (2 : Nat) ^ 8 = 256 from rfl, Nat.pow_succ, Nat.mod_mul (x := v)]
    rw [Nat.mul_comm, Nat.add_comm]

theorem beValue_lt (bs : List Byte) : beValue bs < 256 ^ bs.length := by
  induction bs with
  | nil => simp [beValue]
  | cons b bs ih =>
    have := b.isLt
    simp only [beValue, List.length_cons, Nat.pow_succ]
    have h : b.toNat * 256 ^ bs.length ≤ 255 * 256 ^ bs.length := Nat.mul_le_mul_right _ (by omega)
    omega

/-- A value's bytes give the value back. -/
@[simp] theorem ofNat_beValue_beBytes (sz : Size) (v : BitVec sz.bits) :
    BitVec.ofNat sz.bits (beValue (beBytes sz.bytes v.toNat)) = v := by
  apply BitVec.eq_of_toNat_eq
  have := v.isLt
  rw [beValue_beBytes, BitVec.toNat_ofNat]
  cases sz <;> simp [Size.bytes, Size.bits] at * <;> omega

/-! ## One byte of a state -/

theorem readByte_writeByte_other (s : State) {a x : Long} (b : Byte) (h : s.phys a ≠ s.phys x) :
    (s.writeByte a b).readByte x = s.readByte x := read_write_other _ _ b h

theorem readByte_writeByte_self (s : State) (a : Long) (b : Byte) (h : Memory.wf s.params.memFill s.mem) :
    (s.writeByte a b).readByte a = some b := read_write_self _ b h

theorem phys_eq_of_params {s t : State} (h : t.params = s.params) (a : Long) : t.phys a = s.phys a := by
  simp [State.phys, h]

@[simp] theorem phys_writeByte (s : State) (a : Long) (b : Byte) (x : Long) : (s.writeByte a b).phys x = s.phys x := rfl

@[simp] theorem phys_writeBytes (s : State) (a : Long) (bs : List Byte) (x : Long) :
    (s.writeBytes a bs).phys x = s.phys x := phys_eq_of_params (by simp) x

theorem readByte_writeBytes_outside (s : State) (a x : Long) (bs : List Byte) (h : s.outside x a bs.length) :
    (s.writeBytes a bs).readByte x = s.readByte x := by
  induction bs generalizing s a with
  | nil => rfl
  | cons b bs ih =>
    rw [State.writeBytes, ih]
    · exact readByte_writeByte_other s b fun e => h 0 (by simp) (by simpa using e.symm)
    · intro j hj
      have := h (j + 1) (by simpa using hj)
      rw [phys_writeByte, phys_writeByte]
      convert this using 2
      apply BitVec.eq_of_toNat_eq
      simp [BitVec.toNat_add]
      omega

/-- The memory after a write depends on the memory and the parameters alone. -/
theorem writeBytes_mem_congr {s t : State} (hp : t.params = s.params) (hm : t.mem = s.mem) (a : Long) (bs : List Byte) :
    (t.writeBytes a bs).mem = (s.writeBytes a bs).mem := by
  induction bs generalizing s t a with
  | nil => exact hm
  | cons b bs ih =>
    have h : (t.writeByte a b).mem = (s.writeByte a b).mem := by simp [hp, hm, State.phys]
    exact ih (s := s.writeByte a b) (t := t.writeByte a b) hp h (a + 1)

theorem stored_mem_congr {s t : State} (hp : t.params = s.params) (hm : t.mem = s.mem) (a : Long) (sz : Size)
    (v : BitVec sz.bits) : (t.stored a sz v).mem = (s.stored a sz v).mem := writeBytes_mem_congr hp hm a _

theorem writeBytes_wf (s : State) (a : Long) (bs : List Byte) (h : Memory.wf s.params.memFill s.mem) :
    Memory.wf s.params.memFill (s.writeBytes a bs).mem := by
  induction bs generalizing s a with
  | nil => exact h
  | cons b bs ih => exact ih (s.writeByte a b) (a + 1) (write_wf _ b h)

/-- Two addresses less than 2^24 apart are two bytes (R52). -/
theorem phys_add_ne (s : State) (a : Long) {j : Nat} (h0 : 0 < j) (h : j < 2 ^ 24) :
    s.phys a ≠ s.phys (a + BitVec.ofNat 32 j) := by
  have := a.isLt
  unfold State.phys
  cases s.params.addrBits <;> simp only [AddrBits.count, BitVec.toNat_add, BitVec.toNat_ofNat] <;> omega

theorem add_ofNat_succ (a : Long) (j : Nat) : a + BitVec.ofNat 32 (j + 1) = a + 1 + BitVec.ofNat 32 j := by
  apply BitVec.eq_of_toNat_eq
  simp [BitVec.toNat_add]
  omega

@[simp] theorem add_ofNat_zero (a : Long) : a + BitVec.ofNat 32 0 = a := BitVec.add_zero a

theorem readBytes_congr {s t : State} (a : Long) (k : Nat)
    (h : ∀ j < k, t.readByte (a + BitVec.ofNat 32 j) = s.readByte (a + BitVec.ofNat 32 j)) :
    t.readBytes a k = s.readBytes a k := by
  induction k generalizing a with
  | zero => rfl
  | succ k ih =>
    have h0 := h 0 (by omega)
    simp only [State.readBytes]
    rw [ih (a + 1) fun j hj => by rw [← add_ofNat_succ]; exact h (j + 1) (by omega)]
    rw [add_ofNat_zero] at h0
    rw [h0]

/-- Bytes written are read back (R54). -/
theorem readBytes_writeBytes (s : State) (a : Long) (bs : List Byte) (hk : bs.length < 2 ^ 24)
    (h : Memory.wf s.params.memFill s.mem) : (s.writeBytes a bs).readBytes a bs.length = some bs := by
  induction bs generalizing s a with
  | nil => rfl
  | cons b bs ih =>
    have hl : bs.length < 2 ^ 24 := by simp at hk; omega
    simp only [List.length_cons, State.readBytes, State.writeBytes]
    rw [ih (s.writeByte a b) (a + 1) hl (write_wf _ b h), readByte_writeBytes_outside, readByte_writeByte_self s a b h]
    intro j hj
    rw [← add_ofNat_succ]
    simp at hk
    exact phys_add_ne _ a (by omega) (by omega)

/-- A byte that is written lies at one of the addresses of the access. -/
theorem mem_writeBytes {s : State} {a : Long} {bs : List Byte} {c : Host.Cell} (h : c ∈ (s.writeBytes a bs).mem) :
    c ∈ s.mem ∨ ∃ j < bs.length, c.1 = s.phys (a + BitVec.ofNat 32 j) := by
  induction bs generalizing s a with
  | nil => exact .inl h
  | cons b bs ih =>
    rcases ih h with h | ⟨j, hj, e⟩
    · rcases mem_write h with rfl | h
      · exact .inr ⟨0, by simp, by rw [add_ofNat_zero]⟩
      · exact .inl h
    · exact .inr ⟨j + 1, by simpa using hj, by rw [add_ofNat_succ]; exact e⟩

theorem allBytes_iff (p : Long → Bool) (a : Long) (k : Nat) :
    allBytes p a k = true ↔ ∀ j < k, p (a + BitVec.ofNat 32 j) = true := by
  induction k generalizing a with
  | zero => simp [allBytes]
  | succ k ih =>
    simp only [allBytes, Bool.and_eq_true, ih]
    constructor
    · rintro ⟨h0, h⟩ j hj
      rcases j with _ | j
      · rw [add_ofNat_zero]; exact h0
      · rw [add_ofNat_succ]; exact h j (by omega)
    · intro h
      exact ⟨by have := h 0 (by omega); rwa [add_ofNat_zero] at this,
        fun j hj => by rw [← add_ofNat_succ]; exact h (j + 1) (by omega)⟩

/-- A step of writes of bytes of mapped addresses keeps the invariant. -/
theorem writeBytes_inv {s : State} {a : Long} {bs : List Byte} (h : s.Inv) (hm : allBytes s.isMapped a bs.length = true) :
    (s.writeBytes a bs).Inv := by
  refine ⟨by simpa using writeBytes_wf s a bs h.1, fun c hc => ?_⟩
  rcases mem_writeBytes hc with hc | ⟨j, hj, e⟩
  · simpa using h.2 c hc
  · have := (allBytes_iff _ _ _).mp hm j hj
    simp only [writeBytes_params, e]
    exact ⟨Nat.mod_lt _ (Nat.pow_pos (by decide)), this⟩

end Sys2Proof.Machine
end

