-- ==== Sys2Proof/Laws/Ops.lean ====
section
/-! SUPPORT. What the shared operations can do, said once: sequencing, register reads after writes, accesses, operands,
destinations, exceptions. -/

namespace Sys2Proof.Machine

open Sys2Proof

/-! ## Sequencing -/

@[simp] theorem andThen_next {α β : Type} (a : α) (f : α → Res β) : andThen (.next a) f = f a := rfl
@[simp] theorem andThen_fault {α β : Type} (r : Fault) (f : α → Res β) : andThen (.fault r) f = .fault r := rfl
@[simp] theorem andThen_refused {α β : Type} (r : Refusal) (f : α → Res β) : andThen (.refused r) f = .refused r := rfl

theorem andThen_assoc {α β γ : Type} (x : Res α) (f : α → Res β) (g : β → Res γ) :
    andThen (andThen x f) g = andThen x fun a => andThen (f a) g := by cases x <;> rfl

theorem andThen_eq_next {α β : Type} {x : Res α} {f : α → Res β} {b : β} :
    andThen x f = .next b ↔ ∃ a, x = .next a ∧ f a = .next b := by
  cases x <;> simp [andThen]

theorem thenAdvance_eq_next {x : Res State} {k : Nat} {t : State} :
    thenAdvance x k = .next t ↔ ∃ u, x = .next u ∧ t = u.advance k := by
  simp only [thenAdvance, andThen_eq_next, Host.Outcome.next.injEq, eq_comm (a := t)]

@[simp] theorem thenAdvance_next (u : State) (k : Nat) : thenAdvance (.next u) k = .next (u.advance k) := rfl

theorem asDoubleFault_eq_next {α : Type} {x : Res α} {a : α} : asDoubleFault x = .next a ↔ x = .next a := by
  unfold asDoubleFault; split <;> simp_all

/-! ## Registers -/

@[simp] theorem dreg_setD_self (s : State) (n : RegNum) (v : Long) : (s.setD n v).dreg n = v := by
  simp [State.dreg, State.setD]

theorem dreg_setD_other (s : State) {n m : RegNum} (v : Long) (h : n ≠ m) : (s.setD n v).dreg m = s.dreg m := by
  have : n.val ≠ m.val := fun e => h (Fin.ext e)
  simp [State.dreg, State.setD, Vector.getElem_set_ne, this]

theorem dreg_congr {s t : State} (h : t.d = s.d) (n : RegNum) : t.dreg n = s.dreg n := by simp [State.dreg, h]

theorem readD_congr {s t : State} (h : t.d = s.d) (n : RegNum) (sz : Size) : t.readD n sz = s.readD n sz := by
  simp [State.readD, dreg_congr h]

theorem readA_congr {s t : State} (ha : t.a = s.a) (hu : t.usp = s.usp) (hs : t.ssp = s.ssp) (hr : t.sr.s = s.sr.s)
    (n : RegNum) : t.readA n = s.readA n := by
  simp [State.readA, State.a7, ha, hu, hs, hr]

@[simp] theorem readA_setD (s : State) (n m : RegNum) (v : Long) : (s.setD n v).readA m = s.readA m := rfl
@[simp] theorem readA_writeD (s : State) (n m : RegNum) (sz : Size) (v : BitVec sz.bits) :
    (s.writeD n sz v).readA m = s.readA m := rfl
@[simp] theorem readA_setFlags (s : State) (m : RegNum) (f : Flags) : (s.setFlags f).readA m = s.readA m := rfl
@[simp] theorem readA_advance (s : State) (m : RegNum) (k : Nat) : (s.advance k).readA m = s.readA m := rfl
@[simp] theorem readA_drawn (s : State) (m : RegNum) (k : Nat) : (s.drawn k).readA m = s.readA m := rfl
@[simp] theorem readA_writeBytes (s : State) (m : RegNum) (a : Long) (bs : List Byte) :
    (s.writeBytes a bs).readA m = s.readA m := readA_congr (by simp) (by simp) (by simp) (by simp) m
@[simp] theorem readA_stored (s : State) (m : RegNum) (a : Long) (sz : Size) (v : BitVec sz.bits) :
    (s.stored a sz v).readA m = s.readA m := by simp [State.stored]

@[simp] theorem readA_writeA_self (s : State) (n : RegNum) (v : Long) : (s.writeA n v).readA n = v := by
  unfold State.writeA State.readA State.a7
  split
  · simp
  · split <;> simp_all

theorem readA_writeA_other (s : State) {n m : RegNum} (v : Long) (h : n ≠ m) : (s.writeA n v).readA m = s.readA m := by
  have : n.val ≠ m.val := fun e => h (Fin.ext e)
  have := m.isLt
  unfold State.writeA
  split
  · unfold State.readA State.a7
    split
    · simp [Vector.getElem_set_ne, *]
    · rfl
  · have hm : m.val < 7 := by omega
    split <;> simp [State.readA, hm]

/-- A write of an address register leaves the stack pointer that is not active (R24). -/
theorem writeA_inactive (s : State) (n : RegNum) (v : Long) : s.sameInactive (s.writeA n v) := by
  unfold State.sameInactive State.writeA
  split
  · simp
  · split <;> simp_all

theorem State.sameInactive.trans {s t u : State} (h : s.sameInactive t) (h' : t.sameInactive u) (hr : t.sr.s = s.sr.s) :
    s.sameInactive u :=
  ⟨fun e => (h'.1 (hr.trans e)).trans (h.1 e), fun e => (h'.2 (hr.trans e)).trans (h.2 e)⟩

theorem readD_writeD_self (s : State) (n : RegNum) (sz : Size) (v : BitVec sz.bits) : (s.writeD n sz v).readD n sz = v := by
  simp only [State.readD, State.writeD, dreg_setD_self, mergeLow]
  apply BitVec.eq_of_getLsbD_eq
  intro i hi
  have : sz.bits ≤ 32 := by cases sz <;> decide
  simp [hi, show i < 32 by omega]

theorem dreg_writeD_other (s : State) {n m : RegNum} (sz : Size) (v : BitVec sz.bits) (h : n ≠ m) :
    (s.writeD n sz v).dreg m = s.dreg m := dreg_setD_other s _ h

/-- The upper bits of a partly written register keep their value (R21). -/
theorem writeD_upper (s : State) (n : RegNum) (sz : Size) (v : BitVec sz.bits) (i : Nat) (h : sz.bits ≤ i) :
    ((s.writeD n sz v).dreg n).getLsbD i = (s.dreg n).getLsbD i := by
  simp only [State.writeD, dreg_setD_self, mergeLow]
  by_cases hi : i < 32
  · simp [hi, show ¬ i < sz.bits by omega, BitVec.getLsbD_of_ge v i h, show sz.bits + (i - sz.bits) = i by omega]
  · rw [BitVec.getLsbD_of_ge _ i (by omega), BitVec.getLsbD_of_ge _ i (by omega)]

/-! ## Accesses -/

/-- Two states with the same memory and the same parameters read alike. -/
theorem readByte_congr {s t : State} (hp : t.params = s.params) (hm : t.mem = s.mem) (a : Long) :
    t.readByte a = s.readByte a := by simp [State.readByte, State.phys, hp, hm]

theorem isMapped_congr {s t : State} (hp : t.params = s.params) : t.isMapped = s.isMapped := by
  funext a; simp [State.isMapped, State.phys, hp]

theorem isCode_congr {s t : State} (hp : t.params = s.params) : t.isCode = s.isCode := by
  funext a; simp [State.isCode, State.phys, hp]

theorem load_congr {s t : State} (hp : t.params = s.params) (hm : t.mem = s.mem) (a : Long) (sz : Size) :
    t.load a sz = s.load a sz := by
  unfold State.load
  rw [isMapped_congr hp, readBytes_congr a sz.bytes fun j _ => readByte_congr hp hm _]

theorem storable_congr {s t : State} (hp : t.params = s.params) (a : Long) (sz : Size) :
    t.storable a sz = s.storable a sz := by
  unfold State.storable
  rw [isMapped_congr hp, isCode_congr hp]

@[simp] theorem load_eaUpdate (s : State) (sz sz' : Size) (ea : EA) (a : Long) :
    (s.eaUpdate sz ea).load a sz' = s.load a sz' := load_congr (by simp) (by simp) a sz'

@[simp] theorem storable_eaUpdate (s : State) (sz sz' : Size) (ea : EA) (a : Long) :
    (s.eaUpdate sz ea).storable a sz' = s.storable a sz' := storable_congr (by simp) a sz'

/-- A byte of an access that holds no value. -/
theorem readBytes_eq_none {s : State} {a : Long} {k : Nat} (h : ∃ j < k, s.readByte (a + BitVec.ofNat 32 j) = none) :
    s.readBytes a k = none := by
  induction k generalizing a with
  | zero => obtain ⟨j, hj, -⟩ := h; omega
  | succ k ih =>
    obtain ⟨j, hj, h⟩ := h
    unfold State.readBytes
    cases j with
    | zero => rw [add_ofNat_zero] at h; rw [h]
    | succ j =>
      rw [ih ⟨j, by omega, by rw [← add_ofNat_succ]; exact h⟩]
      split <;> simp_all

theorem accessFault_eq_none {s : State} {a : Long} {k : Nat} {kind : AccessKind} :
    s.accessFault a k kind = none ↔ aligned a k = true ∧ allBytes s.isMapped a k = true := by
  unfold State.accessFault; split <;> [simp_all; (split <;> simp_all)]

/-- `MemRead` answers exactly where `load` gives a value, and that value. -/
theorem memRead_eq_next {s : State} {a : Long} {sz : Size} {kind : AccessKind} {v : BitVec sz.bits} :
    s.memRead a sz kind = .next v ↔ s.load a sz = some v := by
  unfold State.memRead State.load
  cases hf : s.accessFault a sz.bytes kind with
  | none =>
    obtain ⟨h1, h2⟩ := accessFault_eq_none.mp hf
    cases hb : s.readBytes a sz.bytes <;> simp [h1, h2]
  | some f =>
    have : ¬(aligned a sz.bytes = true ∧ allBytes s.isMapped a sz.bytes = true) := fun h => by
      simp [accessFault_eq_none.mpr h] at hf
    simp [this]

/-- `MemWrite` answers exactly where the address is storable, and then has stored the value. -/
theorem memWrite_eq_next {s t : State} {a : Long} {sz : Size} {v : BitVec sz.bits} :
    s.memWrite a sz v = .next t ↔ s.storable a sz = true ∧ t = s.stored a sz v := by
  unfold State.memWrite State.storable
  cases hf : s.accessFault a sz.bytes .write with
  | none =>
    obtain ⟨h1, h2⟩ := accessFault_eq_none.mp hf
    simp only [h1, h2, Bool.true_and]
    split
    · rename_i h
      simp only [Host.Outcome.next.injEq, h, true_and, State.stored, eq_comm]
    · rename_i h
      simp [h]
  | some f =>
    have : ¬(aligned a sz.bytes = true ∧ allBytes s.isMapped a sz.bytes = true) := fun h => by
      simp [accessFault_eq_none.mpr h] at hf
    simp only [reduceCtorEq, Bool.and_eq_true, false_iff]
    exact fun h => this h.1.1

/-- A store leaves every byte outside it. -/
theorem readByte_stored_outside (s : State) (a x : Long) (sz : Size) (v : BitVec sz.bits)
    (h : s.outside x a sz.bytes) : (s.stored a sz v).readByte x = s.readByte x :=
  readByte_writeBytes_outside s a x _ (by simpa using h)

theorem stored_wf (s : State) (a : Long) (sz : Size) (v : BitVec sz.bits) (h : Memory.wf s.params.memFill s.mem) :
    Memory.wf s.params.memFill (s.stored a sz v).mem := writeBytes_wf s a _ h

theorem readBytes_stored (s : State) (a : Long) (sz : Size) (v : BitVec sz.bits)
    (h : Memory.wf s.params.memFill s.mem) : (s.stored a sz v).readBytes a sz.bytes = some (beBytes sz.bytes v.toNat) := by
  have := readBytes_writeBytes s a (beBytes sz.bytes v.toNat) (by cases sz <;> simp [Size.bytes]) h
  simpa [State.stored] using this

theorem stored_inv {s : State} {a : Long} {sz : Size} (v : BitVec sz.bits) (h : s.Inv) (hs : s.storable a sz = true) :
    (s.stored a sz v).Inv := by
  simp only [State.storable, Bool.and_eq_true] at hs
  exact writeBytes_inv h (by simpa using hs.1.2)

/-- A store meets no byte of the program (R84). -/
theorem storable_outside {s : State} {a x : Long} {sz : Size} (hs : s.storable a sz = true) (hx : s.isCode x = true) :
    s.outside x a sz.bytes := by
  intro j hj e
  simp only [State.storable, Bool.and_eq_true] at hs
  have := (allBytes_iff _ _ _).mp hs.2 j hj
  simp only [State.isCode] at this hx
  simp [← e, hx] at this

/-! ## Updates of one register and of memory commute -/

theorem writeBytes_with {s t : State} (hp : t.params = s.params) (hm : t.mem = s.mem) (a : Long) (bs : List Byte) :
    t.writeBytes a bs = { t with mem := (s.writeBytes a bs).mem } := by
  apply State.eq_of_fields <;> simp
  exact writeBytes_mem_congr hp hm a bs

@[simp] theorem stored_setSsp (s : State) (x : Long) (a : Long) (sz : Size) (v : BitVec sz.bits) :
    (s.setSsp x).stored a sz v = (s.stored a sz v).setSsp x := by
  apply State.eq_of_fields <;> simp
  exact stored_mem_congr (s := s) (t := s.setSsp x) rfl rfl a sz v
@[simp] theorem load_setSsp (s : State) (x : Long) (a : Long) (sz : Size) : (s.setSsp x).load a sz = s.load a sz :=
  load_congr (s := s) (t := s.setSsp x) rfl rfl a sz
@[simp] theorem storable_setSsp (s : State) (x : Long) (a : Long) (sz : Size) :
    (s.setSsp x).storable a sz = s.storable a sz := storable_congr (s := s) (t := s.setSsp x) rfl a sz
@[simp] theorem setSsp_setSsp (s : State) (x y : Long) : (s.setSsp x).setSsp y = s.setSsp y := rfl
@[simp] theorem stored_setSr (s : State) (x : Status) (a : Long) (sz : Size) (v : BitVec sz.bits) :
    (s.setSr x).stored a sz v = (s.stored a sz v).setSr x := by
  apply State.eq_of_fields <;> simp
  exact stored_mem_congr (s := s) (t := s.setSr x) rfl rfl a sz v
@[simp] theorem load_setSr (s : State) (x : Status) (a : Long) (sz : Size) : (s.setSr x).load a sz = s.load a sz :=
  load_congr (s := s) (t := s.setSr x) rfl rfl a sz
@[simp] theorem storable_setSr (s : State) (x : Status) (a : Long) (sz : Size) :
    (s.setSr x).storable a sz = s.storable a sz := storable_congr (s := s) (t := s.setSr x) rfl a sz
@[simp] theorem setSr_setSr (s : State) (x y : Status) : (s.setSr x).setSr y = s.setSr y := rfl
@[simp] theorem stored_setPc (s : State) (x : Long) (a : Long) (sz : Size) (v : BitVec sz.bits) :
    (s.setPc x).stored a sz v = (s.stored a sz v).setPc x := by
  apply State.eq_of_fields <;> simp
  exact stored_mem_congr (s := s) (t := s.setPc x) rfl rfl a sz v
@[simp] theorem load_setPc (s : State) (x : Long) (a : Long) (sz : Size) : (s.setPc x).load a sz = s.load a sz :=
  load_congr (s := s) (t := s.setPc x) rfl rfl a sz
@[simp] theorem storable_setPc (s : State) (x : Long) (a : Long) (sz : Size) :
    (s.setPc x).storable a sz = s.storable a sz := storable_congr (s := s) (t := s.setPc x) rfl a sz
@[simp] theorem setPc_setPc (s : State) (x y : Long) : (s.setPc x).setPc y = s.setPc y := rfl
@[simp] theorem stored_setIrq (s : State) (r : IrqRequest) (rs : List IrqRequest) (a : Long) (sz : Size)
    (v : BitVec sz.bits) : (s.setIrq r rs).stored a sz v = (s.stored a sz v).setIrq r rs := by
  apply State.eq_of_fields <;> simp
  exact stored_mem_congr (s := s) (t := s.setIrq r rs) rfl rfl a sz v
@[simp] theorem load_setIrq (s : State) (r : IrqRequest) (rs : List IrqRequest) (a : Long) (sz : Size) :
    (s.setIrq r rs).load a sz = s.load a sz := load_congr (s := s) (t := s.setIrq r rs) rfl rfl a sz
@[simp] theorem storable_setIrq (s : State) (r : IrqRequest) (rs : List IrqRequest) (a : Long) (sz : Size) :
    (s.setIrq r rs).storable a sz = s.storable a sz := storable_congr (s := s) (t := s.setIrq r rs) rfl a sz
@[simp] theorem setSr_setIrq (s : State) (r : IrqRequest) (rs : List IrqRequest) (x : Status) :
    (s.setIrq r rs).setSr x = (s.setSr x).setIrq r rs := rfl
@[simp] theorem setSsp_setIrq (s : State) (r : IrqRequest) (rs : List IrqRequest) (x : Long) :
    (s.setIrq r rs).setSsp x = (s.setSsp x).setIrq r rs := rfl
@[simp] theorem setPc_setIrq (s : State) (r : IrqRequest) (rs : List IrqRequest) (x : Long) :
    (s.setIrq r rs).setPc x = (s.setPc x).setIrq r rs := rfl
@[simp] theorem storable_stored (s : State) (a b : Long) (sz sz' : Size) (v : BitVec sz.bits) :
    (s.stored a sz v).storable b sz' = s.storable b sz' := storable_congr (by simp) b sz'
@[simp] theorem setSr_setSsp (s : State) (x : Long) (r : Status) : (s.setSsp x).setSr r = (s.setSr r).setSsp x := rfl
@[simp] theorem setSsp_setPc (s : State) (x y : Long) : (s.setPc x).setSsp y = (s.setSsp y).setPc x := rfl
@[simp] theorem setSr_setPc (s : State) (x : Long) (r : Status) : (s.setPc x).setSr r = (s.setSr r).setPc x := rfl

/-- A push on the supervisor stack (R310). -/
theorem pushSsp_of_storable {s : State} {sz : Size} (v : BitVec sz.bits) (sp : Long)
    (he : s.ssp - BitVec.ofNat 32 sz.bytes = sp) (h : s.storable sp sz = true) :
    s.pushSsp sz v = .next ((s.stored sp sz v).setSsp sp) := by
  subst he
  rw [State.pushSsp, memWrite_eq_next]
  simp [h]

/-! ## Operands -/

@[simp] theorem extAt_eaUpdate (s : State) (sz : Size) (ea : EA) (own : Nat) :
    (s.eaUpdate sz ea).extAt own = s.extAt own := by simp [State.extAt]

theorem eaAddr_eq_next {s : State} {sz : Size} {ea : EA} {ext : Long} {p : Long × State} :
    s.eaAddr sz ea ext = .next p ↔
      ea.kind.isMem = true ∧ s.briefRefused ea = false ∧ p = (s.eaAddress sz ea ext, s.eaUpdate sz ea) := by
  unfold State.eaAddr
  cases ea.kind.isMem <;> cases s.briefRefused ea <;> simp [eq_comm]

theorem operand_mem {s : State} {sz : Size} {ea : EA} {ext : Long} (h : ea.kind.isMem = true) :
    s.operand sz ea ext = if s.briefRefused ea then none else s.load (s.eaAddress sz ea ext) sz := by
  cases ea <;> first | rfl | simp [EA.kind, EAKind.isMem] at h

/-- Reading an operand answers exactly where the operand holds a value, and updates the mode's register. -/
theorem readEA_eq_next {s : State} {sz : Size} {ea : EA} {ext : Long} {p : BitVec sz.bits × State} :
    s.readEA sz ea ext = .next p ↔ s.operand sz ea ext = some p.1 ∧ p.2 = s.eaUpdate sz ea := by
  obtain ⟨v, t⟩ := p
  have key (hm : ea.kind.isMem = true) :
      (andThen (s.eaAddr sz ea ext) fun p => andThen (p.2.memRead p.1 sz .read) fun v => .next (v, p.2)) = .next (v, t) ↔
        s.operand sz ea ext = some v ∧ t = s.eaUpdate sz ea := by
    rw [operand_mem hm]
    simp only [andThen_eq_next, eaAddr_eq_next, memRead_eq_next]
    constructor
    · rintro ⟨p, ⟨-, hb, rfl⟩, w, hw, h⟩
      simp only [Host.Outcome.next.injEq, Prod.mk.injEq] at h
      obtain ⟨rfl, rfl⟩ := h
      simpa [hb] using hw
    · rintro ⟨h, rfl⟩
      split at h
      · cases h
      · exact ⟨_, ⟨hm, by simp_all, rfl⟩, v, by simpa using h, rfl⟩
  cases ea
  case dn n => simp [State.readEA, State.operand, State.eaUpdate, eq_comm]
  case an n => simp [State.readEA, State.operand, State.eaUpdate, eq_comm]
  case imm n => simp [State.readEA, State.operand, State.eaUpdate, eq_comm]
  all_goals exact key rfl

theorem readEA_of_operand {s : State} {sz : Size} {ea : EA} {ext : Long} {v : BitVec sz.bits}
    (h : s.operand sz ea ext = some v) : s.readEA sz ea ext = .next (v, s.eaUpdate sz ea) := readEA_eq_next.mpr ⟨h, rfl⟩

theorem canPut_mem {s : State} {sz : Size} {ea : EA} {ext : Long} (h : ea.kind.isMem = true) :
    s.canPut sz ea ext = (!s.briefRefused ea && s.storable (s.eaAddress sz ea ext) sz) := by
  cases ea <;> first | rfl | simp [EA.kind, EAKind.isMem] at h

theorem put_mem' {s : State} {sz : Size} {ea : EA} {ext : Long} {r : BitVec sz.bits} (h : ea.kind.isMem = true) :
    s.put sz ea ext r = (s.eaUpdate sz ea).stored (s.eaAddress sz ea ext) sz r := by
  cases ea <;> first | rfl | simp [EA.kind, EAKind.isMem] at h

@[simp] theorem put_sr (s : State) (sz : Size) (ea : EA) (ext : Long) (r : BitVec sz.bits) :
    (s.put sz ea ext r).sr = s.sr := by cases ea <;> simp [State.put]
@[simp] theorem put_params (s : State) (sz : Size) (ea : EA) (ext : Long) (r : BitVec sz.bits) :
    (s.put sz ea ext r).params = s.params := by cases ea <;> simp [State.put]
@[simp] theorem put_pc (s : State) (sz : Size) (ea : EA) (ext : Long) (r : BitVec sz.bits) :
    (s.put sz ea ext r).pc = s.pc := by cases ea <;> simp [State.put]
@[simp] theorem put_freeCount (s : State) (sz : Size) (ea : EA) (ext : Long) (r : BitVec sz.bits) :
    (s.put sz ea ext r).freeCount = s.freeCount := by cases ea <;> simp [State.put]

/-- A read-modify-write of a memory operand answers exactly where the operand holds a value and takes one. -/
theorem modifyMem_eq_next {s t : State} {sz : Size} {ea : EA} {ext : Long}
    {f : BitVec sz.bits → BitVec sz.bits × Flags} :
    s.modifyMem sz ea ext f = .next t ↔ ea.kind.isMem = true ∧
      ∃ d, s.operand sz ea ext = some d ∧ s.canPut sz ea ext = true ∧
        t = (s.put sz ea ext (f d).1).setFlags (f d).2 := by
  by_cases hm : ea.kind.isMem = true
  · rw [operand_mem hm, canPut_mem hm]
    simp only [State.modifyMem, andThen_eq_next, eaAddr_eq_next, memRead_eq_next, memWrite_eq_next, put_mem' hm, hm]
    constructor
    · rintro ⟨p, ⟨-, hb, rfl⟩, d, hd, u, ⟨hs, rfl⟩, h⟩
      simp only [Host.Outcome.next.injEq] at h
      exact ⟨trivial, d, by simpa [hb] using hd, by simpa [hb] using hs, h.symm⟩
    · rintro ⟨-, d, hd, hs, rfl⟩
      split at hd
      · cases hd
      · simp only [Bool.and_eq_true] at hs
        exact ⟨_, ⟨trivial, by simp_all, rfl⟩, d, by simpa using hd, _, ⟨by simpa using hs.2, rfl⟩, rfl⟩
  · simp [State.modifyMem, State.eaAddr, hm]

/-- A read-modify-write of a destination answers exactly where it holds a value and takes one. -/
theorem modifyEA_eq_next {s t : State} {sz : Size} {ea : EA} {ext : Long}
    {f : BitVec sz.bits → BitVec sz.bits × Flags} :
    s.modifyEA sz ea ext f = .next t ↔
      ∃ d, s.operand sz ea ext = some d ∧ s.canPut sz ea ext = true ∧
        t = (s.put sz ea ext (f d).1).setFlags (f d).2 := by
  cases ea
  case dn n => simp [State.modifyEA, State.operand, State.canPut, State.put, eq_comm]
  case an n => simp [State.modifyEA, modifyMem_eq_next, EA.kind, EAKind.isMem, State.canPut]
  case imm n => simp [State.modifyEA, modifyMem_eq_next, EA.kind, EAKind.isMem, State.canPut]
  all_goals simp [State.modifyEA, modifyMem_eq_next, EA.kind, EAKind.isMem]

theorem modifyMem_of_operand {s : State} {sz : Size} {ea : EA} {ext : Long} {d : BitVec sz.bits}
    (f : BitVec sz.bits → BitVec sz.bits × Flags) (hm : ea.kind.isMem = true) (hd : s.operand sz ea ext = some d)
    (hs : s.canPut sz ea ext = true) :
    s.modifyMem sz ea ext f = .next ((s.put sz ea ext (f d).1).setFlags (f d).2) :=
  modifyMem_eq_next.mpr ⟨hm, d, hd, hs, rfl⟩

theorem modifyEA_of_operand {s : State} {sz : Size} {ea : EA} {ext : Long} {d : BitVec sz.bits}
    (f : BitVec sz.bits → BitVec sz.bits × Flags) (hd : s.operand sz ea ext = some d) (hs : s.canPut sz ea ext = true) :
    s.modifyEA sz ea ext f = .next ((s.put sz ea ext (f d).1).setFlags (f d).2) :=
  modifyEA_eq_next.mpr ⟨d, hd, hs, rfl⟩

end Sys2Proof.Machine
end

