-- ==== Sys2Proof/Laws/Access.lean ====
section
/-! SUPPORT. The accesses an instruction makes of its operands: what stops the first of them stops the instruction. -/

namespace Sys2Proof.Machine

open Sys2Proof

/-- What stops `x` stops `y` in the same way. -/
structure StopsAs (x : Res Unit) {α : Type} (y : Res α) : Prop where
  fault : ∀ f, x = .fault f → y = .fault f
  refused : ∀ r, x = .refused r → y = .refused r

namespace StopsAs

variable {α β : Type}

theorem of_next (y : Res α) : StopsAs (.next ()) y := ⟨fun _ h => (nomatch h), fun _ h => (nomatch h)⟩

/-- What follows does not matter once an operation has stopped. -/
theorem andThen {x : Res Unit} {y : Res α} (h : StopsAs x y) (g : α → Res β) : StopsAs x (andThen y g) :=
  ⟨fun f e => by rw [h.fault f e, andThen_fault], fun r e => by rw [h.refused r e, andThen_refused]⟩

/-- The same operation on both sides, then the rest. -/
theorem seq (m : Res β) {g : β → Res Unit} {k : β → Res α} (h : ∀ b, m = .next b → StopsAs (g b) (k b)) :
    StopsAs (Machine.andThen m g) (Machine.andThen m k) := by
  cases m with
  | next b => exact h b rfl
  | fault f => exact ⟨fun _ e => by cases e; rfl, fun _ e => (nomatch e)⟩
  | refused r => exact ⟨fun _ e => (nomatch e), fun _ e => by cases e; rfl⟩

end StopsAs

theorem memRead_congr {s t : State} (hp : t.params = s.params) (hm : t.mem = s.mem) (a : Long) (sz : Size)
    (kind : AccessKind) : t.memRead a sz kind = s.memRead a sz kind := by
  unfold State.memRead State.accessFault
  rw [isMapped_congr hp, readBytes_congr a sz.bytes fun j _ => readByte_congr hp hm _]

@[simp] theorem memRead_eaUpdate (s : State) (sz sz' : Size) (ea : EA) (a : Long) (kind : AccessKind) :
    (s.eaUpdate sz ea).memRead a sz' kind = s.memRead a sz' kind := memRead_congr (by simp) (by simp) a sz' kind

/-- What stops accesses depends on the parameters and the memory alone. -/
theorem accessAll_congr {s t : State} (hp : t.params = s.params) (hm : t.mem = s.mem) (xs : List Access) :
    t.accessAll xs = s.accessAll xs := by
  induction xs with
  | nil => rfl
  | cons x xs ih =>
    simp only [State.accessAll, ih]
    congr 1
    unfold State.access
    split
    · unfold State.memWrite State.accessFault
      rw [isMapped_congr hp, isCode_congr hp]
      repeat' split
      all_goals rfl
    · rw [memRead_congr hp hm]

@[simp] theorem accessAll_eaUpdate (s : State) (sz : Size) (ea : EA) (xs : List Access) :
    (s.eaUpdate sz ea).accessAll xs = s.accessAll xs := accessAll_congr (by simp) (by simp) xs

/-- A read first: where it stops, the whole stops; else the rest is looked at. -/
theorem stopsAs_read {α : Type} {s : State} {a : Long} {sz : Size} {xs : List Access} {k : BitVec sz.bits → Res α}
    (h : ∀ v, StopsAs (s.accessAll xs) (k v)) :
    StopsAs (s.accessAll (⟨.read, a, sz⟩ :: xs)) (andThen (s.memRead a sz .read) k) := by
  show StopsAs (andThen (andThen (s.memRead a sz .read) fun _ => .next ()) _) _
  cases e : s.memRead a sz .read with
  | next v => exact h v
  | fault f => exact ⟨fun _ e => by cases e; rfl, fun _ e => (nomatch e)⟩
  | refused r => exact ⟨fun _ e => (nomatch e), fun _ e => by cases e; rfl⟩

/-- A write last: what stops it depends on the parameters alone. -/
theorem stopsAs_write {α : Type} {s t : State} (hp : t.params = s.params) {a : Long} {sz : Size} {v : BitVec sz.bits}
    {k : State → Res α} : StopsAs (s.accessAll [⟨.write, a, sz⟩]) (andThen (t.memWrite a sz v) k) := by
  show StopsAs (andThen (andThen (s.memWrite a sz 0) fun _ => .next ()) _) _
  unfold State.memWrite State.accessFault
  rw [isMapped_congr hp, isCode_congr hp]
  repeat' split
  all_goals exact ⟨fun _ e => by cases e <;> rfl, fun _ e => by cases e <;> rfl⟩

/-! ## Operands -/

theorem operandAccesses_mem {s : State} {sz : Size} {ea : EA} {own : Nat} {ks : List AccessKind}
    (h : ea.kind.isMem = true) :
    s.operandAccesses sz ea own ks = ks.map fun k => ⟨k, s.eaAddress sz ea (s.extAt own), sz⟩ := by
  simp [State.operandAccesses, h]

theorem operandAccesses_not_mem {s : State} {sz : Size} {ea : EA} {own : Nat} {ks : List AccessKind}
    (h : ea.kind.isMem = false) : s.operandAccesses sz ea own ks = [] := by
  simp [State.operandAccesses, h]

theorem eaAddr_mem {s : State} {sz : Size} {ea : EA} {ext : Long} (h : ea.kind.isMem = true)
    (hb : s.briefRefused ea = false) : s.eaAddr sz ea ext = .next (s.eaAddress sz ea ext, s.eaUpdate sz ea) :=
  eaAddr_eq_next.mpr ⟨h, hb, rfl⟩

/-- A memory operand is read at its address, and the mode's side effect follows. -/
theorem readEA_mem {s : State} {sz : Size} {ea : EA} {ext : Long} (h : ea.kind.isMem = true)
    (hb : s.briefRefused ea = false) :
    s.readEA sz ea ext =
      andThen (s.memRead (s.eaAddress sz ea ext) sz .read) fun v => .next (v, s.eaUpdate sz ea) := by
  cases ea <;> first | (simp [EA.kind, EAKind.isMem] at h; done) | simp [State.readEA, eaAddr_mem h hb]

/-- A memory operand is read and written at its address. -/
theorem modifyMem_mem {s : State} {sz : Size} {ea : EA} {ext : Long} (h : ea.kind.isMem = true)
    (hb : s.briefRefused ea = false) (f : BitVec sz.bits → BitVec sz.bits × Flags) :
    s.modifyMem sz ea ext f =
      andThen (s.memRead (s.eaAddress sz ea ext) sz .read) fun d =>
      andThen ((s.eaUpdate sz ea).memWrite (s.eaAddress sz ea ext) sz (f d).1) fun t => .next (t.setFlags (f d).2) := by
  simp [State.modifyMem, eaAddr_mem h hb]

theorem modifyEA_mem {s : State} {sz : Size} {ea : EA} {ext : Long} (h : ea.kind.isMem = true)
    (f : BitVec sz.bits → BitVec sz.bits × Flags) : s.modifyEA sz ea ext f = s.modifyMem sz ea ext f := by
  cases ea <;> first | (simp [EA.kind, EAKind.isMem] at h; done) | rfl

/-- What stops the access of an operand that is read stops the reading. -/
theorem readEA_stopsAs {s : State} {sz : Size} {ea : EA} {own : Nat} (hb : s.briefRefused ea = false) :
    StopsAs (s.accessAll (s.operandAccesses sz ea own [.read])) (s.readEA sz ea (s.extAt own)) := by
  cases h : ea.kind.isMem with
  | false => rw [operandAccesses_not_mem h]; exact .of_next _
  | true => rw [operandAccesses_mem h, readEA_mem h hb]; exact stopsAs_read fun _ => .of_next _

/-- What stops the two accesses of a destination stops its modification. -/
theorem modifyMem_stopsAs {s : State} {sz : Size} {ea : EA} {own : Nat} (hb : s.briefRefused ea = false)
    (f : BitVec sz.bits → BitVec sz.bits × Flags) :
    StopsAs (s.accessAll (s.operandAccesses sz ea own [.read, .write])) (s.modifyMem sz ea (s.extAt own) f) := by
  cases h : ea.kind.isMem with
  | false => rw [operandAccesses_not_mem h]; exact .of_next _
  | true => rw [operandAccesses_mem h, modifyMem_mem h hb]; exact stopsAs_read fun _ => stopsAs_write (by simp)

theorem modifyEA_stopsAs {s : State} {sz : Size} {ea : EA} {own : Nat} (hb : s.briefRefused ea = false)
    (f : BitVec sz.bits → BitVec sz.bits × Flags) :
    StopsAs (s.accessAll (s.operandAccesses sz ea own [.read, .write])) (s.modifyEA sz ea (s.extAt own) f) := by
  cases h : ea.kind.isMem with
  | false => rw [operandAccesses_not_mem h]; exact .of_next _
  | true => rw [modifyEA_mem h]; exact modifyMem_stopsAs hb f

/-- An extension word the launch refuses is refused before any access. -/
theorem readEA_briefRefused {s : State} {sz : Size} {ea : EA} {ext : Long} (hb : s.briefRefused ea = true) :
    s.readEA sz ea ext = .refused .extensionWord := by
  cases ea <;> first | (simp [State.briefRefused] at hb; done) |
    simp [State.readEA, State.eaAddr, EA.kind, EAKind.isMem, hb]

theorem modifyMem_briefRefused {s : State} {sz : Size} {ea : EA} {ext : Long} (hb : s.briefRefused ea = true)
    (f : BitVec sz.bits → BitVec sz.bits × Flags) : s.modifyMem sz ea ext f = .refused .extensionWord := by
  cases ea <;> first | (simp [State.briefRefused] at hb; done) |
    simp [State.modifyMem, State.eaAddr, EA.kind, EAKind.isMem, hb]

theorem modifyEA_briefRefused {s : State} {sz : Size} {ea : EA} {ext : Long} (hb : s.briefRefused ea = true)
    (f : BitVec sz.bits → BitVec sz.bits × Flags) : s.modifyEA sz ea ext f = .refused .extensionWord := by
  cases ea <;> first | (simp [State.briefRefused] at hb; done) | exact modifyMem_briefRefused hb f

end Sys2Proof.Machine
end

