-- ==== Sys2Proof/Laws/Decode.lean ====
section
/-! SUPPORT. The decoder's and the encoder's pieces, each undoing the other: the fields of an operation word, extension
words, operands, and words as bytes. -/

namespace Sys2Proof

/-! ## Fields of an operation word -/

theorem opWord_toNat (line : Nat) (h : line < 16) (r o m x : Fin 8) :
    (opWord line r o m x).toNat = line * 4096 + r.val * 512 + o.val * 64 + m.val * 8 + x.val := by
  simp only [opWord, BitVec.toNat_ofNat]; omega

@[simp] theorem opLine_opWord (line : Nat) (h : line < 16) (r o m x : Fin 8) : opLine (opWord line r o m x) = line := by
  rw [opLine, opWord_toNat line h]; omega

@[simp] theorem opField_9 (line : Nat) (h : line < 16) (r o m x : Fin 8) : opField (opWord line r o m x) 9 = r := by
  apply Fin.ext; simp only [opField, opWord_toNat line h, Fin.val_ofNat]; omega

@[simp] theorem opField_6 (line : Nat) (h : line < 16) (r o m x : Fin 8) : opField (opWord line r o m x) 6 = o := by
  apply Fin.ext; simp only [opField, opWord_toNat line h, Fin.val_ofNat]; omega

@[simp] theorem opField_3 (line : Nat) (h : line < 16) (r o m x : Fin 8) : opField (opWord line r o m x) 3 = m := by
  apply Fin.ext; simp only [opField, opWord_toNat line h, Fin.val_ofNat]; omega

@[simp] theorem opField_0 (line : Nat) (h : line < 16) (r o m x : Fin 8) : opField (opWord line r o m x) 0 = x := by
  apply Fin.ext; simp only [opField, opWord_toNat line h, Fin.val_ofNat]; omega

/-- Mode 111 with any register, from the same word with register 000. -/
theorem opWord_add (line : Nat) (h : line < 16) (r o x : Fin 8) :
    opWord line r o 7 0 + BitVec.ofNat 16 x.val = opWord line r o 7 x := by
  apply BitVec.eq_of_toNat_eq
  rw [BitVec.toNat_add, opWord_toNat line h, opWord_toNat line h, BitVec.toNat_ofNat]
  have := x.isLt
  have := r.isLt
  have := o.isLt
  simp
  omega

/-- An operation word is its line and its four fields. -/
theorem opWord_fields (w : Word16) :
    opWord (opLine w) (opField w 9) (opField w 6) (opField w 3) (opField w 0) = w := by
  apply BitVec.eq_of_toNat_eq
  have h := w.isLt
  rw [opWord_toNat _ (by unfold opLine; omega)]
  simp only [opLine, opField, Fin.val_ofNat]; omega

/-! ## Extension words -/

theorem takeLong_longWords (v : Long) (rest : List Word16) : takeLong (longWords v ++ rest) = .ok (v, rest) := by
  have := v.isLt
  simp only [longWords, List.cons_append, List.nil_append, takeLong, BitVec.toNat_ofNat]
  congr 2
  apply BitVec.eq_of_toNat_eq
  simp only [BitVec.toNat_ofNat]; omega

theorem takeLong_ok {ws rest : List Word16} {v : Long} (h : takeLong ws = .ok (v, rest)) : ws = longWords v ++ rest := by
  unfold takeLong at h
  split at h
  · rename_i hi lo ws
    cases h
    have := hi.isLt
    have := lo.isLt
    simp only [longWords, List.cons_append, List.nil_append, BitVec.toNat_ofNat]
    congr 1 <;> [skip; congr 1] <;> apply BitVec.eq_of_toNat_eq <;> simp only [BitVec.toNat_ofNat] <;> omega
  · cases h

theorem takeImm_immWords {sz : Size} {v : Long} (h : immFits sz v = true) (rest : List Word16) :
    takeImm sz (immWords sz v ++ rest) = .ok (v, rest) := by
  cases sz
  case l => exact takeLong_longWords v rest
  all_goals
    have h : v.toNat < 65536 := by simpa [immFits] using h
    have := v.isLt
    simp only [immWords, takeImm, List.cons_append, List.nil_append, takeWord]
    congr 2
    apply BitVec.eq_of_toNat_eq
    simp only [BitVec.toNat_ofNat]; omega

theorem takeImm_ok {sz : Size} {ws rest : List Word16} {v : Long} (h : takeImm sz ws = .ok (v, rest)) :
    immFits sz v = true ∧ ws = immWords sz v ++ rest := by
  cases sz
  case l => exact ⟨rfl, takeLong_ok h⟩
  all_goals
    cases ws with
    | nil => cases h
    | cons w ws =>
      cases h
      have := w.isLt
      refine ⟨by simp [immFits]; omega, ?_⟩
      simp only [immWords, List.cons_append, List.nil_append]
      congr 1
      apply BitVec.eq_of_toNat_eq
      simp only [BitVec.toNat_ofNat]; omega

theorem encodeBrief_toNat (x : BriefExt) :
    (encodeBrief x).toNat =
      x.isAddr.toNat * 32768 + x.reg.val * 4096 + x.isLong.toNat * 2048 + x.scale.toNat * 256 + x.d8.toNat := by
  have := x.reg.isLt
  have := x.scale.isLt
  have := x.d8.isLt
  have : x.isAddr.toNat ≤ 1 := Bool.toNat_le _
  have : x.isLong.toNat ≤ 1 := Bool.toNat_le _
  simp only [encodeBrief, BitVec.toNat_ofNat]; omega

theorem decodeBrief_encodeBrief (x : BriefExt) : decodeBrief (encodeBrief x) = x := by
  have h := encodeBrief_toNat x
  obtain ⟨a, r, l, c, d⟩ := x
  have := r.isLt
  have := c.isLt
  have := d.isLt
  simp only at h
  simp only [decodeBrief, h, BriefExt.mk.injEq]
  refine ⟨?_, ?_, ?_, ?_, ?_⟩
  · cases a <;> cases l <;> simp <;> omega
  · apply Fin.ext; simp only [Fin.val_ofNat]; cases a <;> cases l <;> simp <;> omega
  · cases a <;> cases l <;> simp <;> omega
  · apply BitVec.eq_of_toNat_eq; simp only [BitVec.toNat_ofNat]; cases a <;> cases l <;> simp <;> omega
  · apply BitVec.eq_of_toNat_eq; simp only [BitVec.toNat_ofNat]; cases a <;> cases l <;> simp <;> omega

theorem encodeBrief_decodeBrief (w : Word16) : encodeBrief (decodeBrief w) = w := by
  apply BitVec.eq_of_toNat_eq
  have := w.isLt
  have b1 : (w.toNat / 32768 == 1).toNat = w.toNat / 32768 := by
    rcases (by omega : w.toNat / 32768 = 0 ∨ w.toNat / 32768 = 1) with h | h <;> simp [h]
  have b2 : (w.toNat / 2048 % 2 == 1).toNat = w.toNat / 2048 % 2 := by
    rcases (by omega : w.toNat / 2048 % 2 = 0 ∨ w.toNat / 2048 % 2 = 1) with h | h <;> simp [h]
  rw [encodeBrief_toNat]
  simp only [decodeBrief, b1, b2, Fin.val_ofNat, BitVec.toNat_ofNat]; omega

/-! ## Operands -/

@[simp] theorem decodeKind_mode (ea : EA) : decodeKind ea.mode ea.reg = some ea.kind := by cases ea <;> rfl

/-- The register field of a mode that names a register. -/
theorem decodeKind_some {m x : Fin 8} {k : EAKind} (h : decodeKind m x = some k) :
    ∀ ea : EA, ea.kind = k → (k ∈ [EAKind.dn, .an, .ind, .postinc, .predec, .disp, .index] → ea.reg = x) →
      ea.mode = m ∧ ea.reg = x := by
  intro ea hk hx
  subst hk
  cases ea
  case absW | absL | pcDisp | pcIndex | imm =>
    clear hx
    simp only [EA.kind, EA.mode, EA.reg] at h ⊢
    revert h; revert m x; decide
  all_goals
    have hr := hx (by simp [EA.kind])
    refine ⟨?_, hr⟩
    clear hx hr
    simp only [EA.kind, EA.mode] at h ⊢
    revert h; revert m x; decide

theorem decodeOperand_ext {sz : Size} {ea : EA} (h : ea.rawFits sz = true) (rest : List Word16) :
    decodeOperand ea.kind sz ea.reg (ea.ext sz ++ rest) = .ok (ea, rest) := by
  cases ea <;> simp only [EA.kind, EA.reg, EA.ext, decodeOperand, List.nil_append, List.cons_append, takeWord,
    Except.map, decodeBrief_encodeBrief, takeLong_longWords]
  rw [takeImm_immWords h]

/-- A decoded operand is of the mode, its raw words fit, and the words read are its extension words. -/
theorem decodeOperand_ok {k : EAKind} {sz : Size} {x : RegNum} {ws rest : List Word16} {ea : EA}
    (h : decodeOperand k sz x ws = .ok (ea, rest)) :
    ea.kind = k ∧ ea.rawFits sz = true ∧ ws = ea.ext sz ++ rest ∧
      (k ∈ [EAKind.dn, .an, .ind, .postinc, .predec, .disp, .index] → ea.reg = x) := by
  cases k
  case imm =>
    simp only [decodeOperand] at h
    cases hi : takeImm sz ws with
    | error e => rw [hi] at h; cases h
    | ok p =>
      rw [hi] at h
      cases h
      obtain ⟨h1, h2⟩ := takeImm_ok hi
      exact ⟨rfl, h1, h2, by simp⟩
  case absL =>
    simp only [decodeOperand] at h
    cases hi : takeLong ws with
    | error e => rw [hi] at h; cases h
    | ok p =>
      rw [hi] at h
      cases h
      exact ⟨rfl, rfl, takeLong_ok hi, by simp⟩
  case dn | an | ind | postinc | predec => cases h; exact ⟨rfl, rfl, rfl, fun _ => rfl⟩
  all_goals
    cases ws with
    | nil => cases h
    | cons w ws => cases h; simp [EA.kind, EA.rawFits, EA.ext, EA.reg, encodeBrief_decodeBrief]

theorem decodeEA_ext {cat : EAKind → Bool} {bad : EAKind → DecodeError} {sz : Size} {ea : EA} (h : ea.ok cat sz = true)
    (rest : List Word16) : decodeEA cat bad sz ea.mode ea.reg (ea.ext sz ++ rest) = .ok (ea, rest) := by
  simp only [EA.ok, Bool.and_eq_true] at h
  simp [decodeEA, h.1, decodeOperand_ext h.2]

theorem decodeEA_ok {cat : EAKind → Bool} {bad : EAKind → DecodeError} {sz : Size} {m x : Fin 8} {ws rest : List Word16}
    {ea : EA} (h : decodeEA cat bad sz m x ws = .ok (ea, rest)) :
    ea.ok cat sz = true ∧ ea.mode = m ∧ ea.reg = x ∧ ws = ea.ext sz ++ rest := by
  unfold decodeEA at h
  split at h
  · cases h
  · rename_i k hk
    split at h
    · rename_i hc
      obtain ⟨h1, h2, h3, h4⟩ := decodeOperand_ok h
      obtain ⟨h5, h6⟩ := decodeKind_some hk ea h1 h4
      exact ⟨by simp [EA.ok, h1, hc, h2], h5, h6, h3⟩
    · cases h

theorem withEA_ext {cat : EAKind → Bool} {bad : EAKind → DecodeError} {sz : Size} {ea : EA} (mk : EA → Instr)
    (h : ea.ok cat sz = true) (rest : List Word16) :
    withEA cat bad sz ea.mode ea.reg mk (ea.ext sz ++ rest) = .ok (mk ea, rest) := by
  simp [withEA, decodeEA_ext h, Except.map]

theorem withImmEA_ext {bad : EAKind → DecodeError} {sz : Size} {imm : Long} {ea : EA} (mk : Long → EA → Instr)
    (hi : immFits sz imm = true) (h : ea.ok (·.isDataAlterable) sz = true) (rest : List Word16) :
    withImmEA bad sz ea.mode ea.reg mk (immWords sz imm ++ (ea.ext sz ++ rest)) = .ok (mk imm ea, rest) := by
  simp only [EA.ok, Bool.and_eq_true] at h
  simp [withImmEA, h.1, takeImm_immWords hi, decodeOperand_ext h.2, Except.map]

theorem withBitEA_ext {cat : EAKind → Bool} {bit : BitVec 16} {ea : EA} (mk : BitVec 16 → EA → Instr)
    (h : ea.ok cat .b = true) (rest : List Word16) :
    withBitEA cat ea.mode ea.reg mk (bit :: (ea.ext .b ++ rest)) = .ok (mk bit ea, rest) := by
  simp only [EA.ok, Bool.and_eq_true] at h
  simp [withBitEA, h.1, takeWord, decodeOperand_ext h.2, Except.map]

theorem takeWord_ok {α : Type} {f : Word16 × List Word16 → α} {ws : List Word16} {r : α}
    (h : (takeWord ws).map f = .ok r) : ∃ w rest, ws = w :: rest ∧ r = f (w, rest) := by
  cases ws with
  | nil => cases h
  | cons w ws => cases h; exact ⟨w, ws, rfl, rfl⟩

theorem withEA_ok {cat : EAKind → Bool} {bad : EAKind → DecodeError} {sz : Size} {m x : Fin 8} {mk : EA → Instr}
    {ws rest : List Word16} {i : Instr} (h : withEA cat bad sz m x mk ws = .ok (i, rest)) :
    ∃ ea : EA, ea.ok cat sz = true ∧ ea.mode = m ∧ ea.reg = x ∧ ws = ea.ext sz ++ rest ∧ i = mk ea := by
  unfold withEA at h
  cases hd : decodeEA cat bad sz m x ws with
  | error e => rw [hd] at h; cases h
  | ok p =>
    rw [hd] at h
    cases h
    obtain ⟨h1, h2, h3, h4⟩ := decodeEA_ok hd
    exact ⟨p.1, h1, h2, h3, h4, rfl⟩

theorem withImmEA_ok {bad : EAKind → DecodeError} {sz : Size} {m x : Fin 8} {mk : Long → EA → Instr}
    {ws rest : List Word16} {i : Instr} (h : withImmEA bad sz m x mk ws = .ok (i, rest)) :
    ∃ (imm : Long) (ea : EA), immFits sz imm = true ∧ ea.ok (·.isDataAlterable) sz = true ∧ ea.mode = m ∧ ea.reg = x ∧
      ws = immWords sz imm ++ (ea.ext sz ++ rest) ∧ i = mk imm ea := by
  unfold withImmEA at h
  split at h
  · cases h
  · rename_i k hk
    split at h
    · rename_i hc
      split at h
      · rename_i v ws' hi
        obtain ⟨h1, rfl⟩ := takeImm_ok hi
        cases hd : decodeOperand k sz x ws' with
        | error e => rw [hd] at h; cases h
        | ok p =>
          rw [hd] at h
          cases h
          obtain ⟨h2, h3, h4, h5⟩ := decodeOperand_ok hd
          obtain ⟨h6, h7⟩ := decodeKind_some hk p.1 h2 h5
          exact ⟨v, p.1, h1, by simp [EA.ok, h2, hc, h3], h6, h7, by rw [h4], rfl⟩
      · cases h
    · cases h

theorem withBitEA_ok {cat : EAKind → Bool} {m x : Fin 8} {mk : BitVec 16 → EA → Instr}
    {ws rest : List Word16} {i : Instr} (h : withBitEA cat m x mk ws = .ok (i, rest)) :
    ∃ (bit : BitVec 16) (ea : EA), ea.ok cat .b = true ∧ ea.mode = m ∧ ea.reg = x ∧
      ws = bit :: (ea.ext .b ++ rest) ∧ i = mk bit ea := by
  unfold withBitEA at h
  split at h
  · cases h
  · rename_i k hk
    split at h
    · rename_i hc
      cases ws with
      | nil => cases h
      | cons b ws =>
        cases hd : decodeOperand k .b x ws with
        | error e => simp [takeWord, hd, Except.map] at h
        | ok p =>
          simp only [takeWord, hd, Except.map, Except.ok.injEq, Prod.mk.injEq] at h
          obtain ⟨rfl, rfl⟩ := h
          obtain ⟨h2, h3, h4, h5⟩ := decodeOperand_ok hd
          obtain ⟨h6, h7⟩ := decodeKind_some hk p.1 h2 h5
          exact ⟨b, p.1, by simp [EA.ok, h2, hc, h3], h6, h7, by rw [h4], rfl⟩
    · cases h

/-! ## Operands that are none: mode 111 with a register above 100, and modes outside the category -/

theorem withEA_none {cat : EAKind → Bool} {bad : EAKind → DecodeError} {sz : Size} {m x : Fin 8} {mk : EA → Instr}
    {ws : List Word16} (h : decodeKind m x = none) : withEA cat bad sz m x mk ws = .error .illegalInstruction := by
  simp [withEA, decodeEA, h, Except.map]

theorem withEA_outside {cat : EAKind → Bool} {bad : EAKind → DecodeError} {sz : Size} {m x : Fin 8} {mk : EA → Instr}
    {ws : List Word16} {k : EAKind} (h : decodeKind m x = some k) (hc : cat k = false) :
    withEA cat bad sz m x mk ws = .error (bad k) := by
  simp [withEA, decodeEA, h, hc, Except.map]

theorem withImmEA_none {bad : EAKind → DecodeError} {sz : Size} {m x : Fin 8} {mk : Long → EA → Instr}
    {ws : List Word16} (h : decodeKind m x = none) : withImmEA bad sz m x mk ws = .error .illegalInstruction := by
  simp [withImmEA, h]

theorem withImmEA_outside {bad : EAKind → DecodeError} {sz : Size} {m x : Fin 8} {mk : Long → EA → Instr}
    {ws : List Word16} {k : EAKind} (h : decodeKind m x = some k) (hc : k.isDataAlterable = false) :
    withImmEA bad sz m x mk ws = .error (bad k) := by
  simp [withImmEA, h, hc]

theorem withBitEA_none {cat : EAKind → Bool} {m x : Fin 8} {mk : BitVec 16 → EA → Instr} {ws : List Word16}
    (h : decodeKind m x = none) : withBitEA cat m x mk ws = .error .illegalInstruction := by
  simp [withBitEA, h]

theorem withBitEA_outside {cat : EAKind → Bool} {m x : Fin 8} {mk : BitVec 16 → EA → Instr} {ws : List Word16}
    {k : EAKind} (h : decodeKind m x = some k) (hc : cat k = false) :
    withBitEA cat m x mk ws = .error (eaOutside k) := by
  simp [withBitEA, h, hc]

/-- A size field is the code of its size. -/
theorem sizeField_some {ss : Nat} {sz : Size} (h : sizeField ss = some sz) : ss = sz.code := by
  unfold sizeField at h
  split at h <;> cases h <;> rfl

theorem sizeField_none {ss : Nat} (h : sizeField ss = none) : 3 ≤ ss := by
  match ss with
  | 0 | 1 | 2 => cases h
  | _ + 3 => omega

theorem low_of_sizeField {o : Fin 8} {sz : Size} (h : sizeField (o.val % 4) = some sz) (h4 : o.val < 4) : sz.low = o := by
  have := sizeField_some h
  apply Fin.ext
  cases sz <;> simp only [Size.low, Size.code, Fin.val_ofNat] at * <;> omega

theorem high_of_sizeField {o : Fin 8} {sz : Size} (h : sizeField (o.val % 4) = some sz) (h4 : ¬o.val < 4) :
    sz.high = o := by
  have := sizeField_some h
  have := o.isLt
  apply Fin.ext
  cases sz <;> simp only [Size.high, Size.code, Fin.val_ofNat] at * <;> omega

/-! ## Lengths -/

theorem immWords_length (sz : Size) (v : Long) : (immWords sz v).length = sz.immCount := by cases sz <;> rfl

theorem ext_length (sz : Size) (ea : EA) : (ea.ext sz).length = ea.extCount sz := by
  cases ea <;> first | rfl | exact immWords_length sz _

/-! ## Words as bytes -/

theorem pairWords_wordBytes (ws : List Word16) : pairWords (ws.flatMap wordBytes) = ws := by
  induction ws with
  | nil => rfl
  | cons w ws ih =>
    simp only [List.flatMap_cons, wordBytes, List.cons_append, List.nil_append, pairWords, List.cons.injEq]
    refine ⟨?_, ih⟩
    have := w.isLt
    apply BitVec.eq_of_toNat_eq
    simp only [BitVec.toNat_ofNat]; omega

end Sys2Proof
end

