-- ==== Sys2Proof/Laws/Frame.lean ====
section
/-! SUPPORT. What the shared operations leave unchanged, closed under sequencing: `Frame dl al dest s t` says that from
`s` to `t` at most the data registers `dl`, the address registers `al`, the memory bytes of `dest`, the flags, `pc` and
the count of free values have changed, and that what every step keeps has been kept. -/

namespace Sys2Proof.Machine

open Sys2Proof

structure Frame (dl al : List RegNum) (dest : Option (Long × Nat)) (s t : State) : Prop where
  d         : ∀ n, n ∉ dl → t.dreg n = s.dreg n
  a         : ∀ n : RegNum, n ≠ 7 → n ∉ al → t.readA n = s.readA n
  sp        : 7 ∉ al → t.usp = s.usp ∧ t.ssp = s.ssp
  usp       : s.sr.s = true → t.usp = s.usp
  ssp       : s.sr.s = false → t.ssp = s.ssp
  trace     : t.sr.t = s.sr.t
  super     : t.sr.s = s.sr.s
  mask      : t.sr.i = s.sr.i
  params    : t.params = s.params
  irq       : t.irq = s.irq
  irqFeed   : t.irqFeed = s.irqFeed
  resetLine : t.resetLine = s.resetLine
  mem       : ∀ b : Long, (∀ a k, dest = some (a, k) → s.outside b a k) → t.readByte b = s.readByte b
  inv       : s.Inv → t.Inv
  code      : ∀ b : Long, s.isCode b = true → t.readByte b = s.readByte b

theorem Inv_congr {s t : State} (hp : t.params = s.params) (hm : t.mem = s.mem) (h : s.Inv) : t.Inv := by
  unfold State.Inv at *; rw [hp, hm]; exact h

namespace Frame

variable {dl al : List RegNum} {dest : Option (Long × Nat)} {s u : State}

theorem refl : Frame dl al dest s s := by constructor <;> simp

theorem setD (h : Frame dl al dest s u) {n : RegNum} (hn : n ∈ dl) (v : Long) : Frame dl al dest s (u.setD n v) :=
  { h with
    d := fun m hm => (dreg_setD_other u v (show n ≠ m from fun e => hm (e ▸ hn))).trans (h.d m hm)
    mem := fun b hb => (readByte_congr (by simp) (by simp) b).trans (h.mem b hb)
    inv := fun hi => Inv_congr (by simp) (by simp) (h.inv hi)
    code := fun b hb => (readByte_congr (by simp) (by simp) b).trans (h.code b hb) }

theorem writeD (h : Frame dl al dest s u) {n : RegNum} (hn : n ∈ dl) (sz : Size) (v : BitVec sz.bits) :
    Frame dl al dest s (u.writeD n sz v) := h.setD hn _

theorem writeA (h : Frame dl al dest s u) {n : RegNum} (hn : n ∈ al) (v : Long) : Frame dl al dest s (u.writeA n v) where
  d m hm := (dreg_congr (by simp) m).trans (h.d m hm)
  a m h7 hm := (readA_writeA_other u v (show n ≠ m from fun e => hm (e ▸ hn))).trans (h.a m h7 hm)
  sp h7 := by
    have hne : n ≠ 7 := fun e => h7 (e ▸ hn)
    have hlt : n.val < 7 := by have := n.isLt; have : n.val ≠ 7 := fun e => hne (Fin.ext e); omega
    simpa [State.writeA, hlt] using h.sp h7
  usp hs := ((writeA_inactive u n v).1 (h.super.trans hs)).trans (h.usp hs)
  ssp hs := ((writeA_inactive u n v).2 (h.super.trans hs)).trans (h.ssp hs)
  trace := by simpa using h.trace
  super := by simpa using h.super
  mask := by simpa using h.mask
  params := by simpa using h.params
  irq := by simpa using h.irq
  irqFeed := by simpa using h.irqFeed
  resetLine := by simpa using h.resetLine
  mem b hb := (readByte_congr (by simp) (by simp) b).trans (h.mem b hb)
  inv hi := Inv_congr (by simp) (by simp) (h.inv hi)
  code b hb := (readByte_congr (by simp) (by simp) b).trans (h.code b hb)

theorem setFlags (h : Frame dl al dest s u) (f : Flags) : Frame dl al dest s (u.setFlags f) :=
  { h with
    mem := fun b hb => (readByte_congr (by simp) (by simp) b).trans (h.mem b hb)
    inv := fun hi => Inv_congr (by simp) (by simp) (h.inv hi)
    code := fun b hb => (readByte_congr (by simp) (by simp) b).trans (h.code b hb) }

theorem setPc (h : Frame dl al dest s u) (v : Long) : Frame dl al dest s (u.setPc v) :=
  { h with
    mem := fun b hb => (readByte_congr (by simp) (by simp) b).trans (h.mem b hb)
    inv := fun hi => Inv_congr (by simp) (by simp) (h.inv hi)
    code := fun b hb => (readByte_congr (by simp) (by simp) b).trans (h.code b hb) }

theorem advance (h : Frame dl al dest s u) (k : Nat) : Frame dl al dest s (u.advance k) := h.setPc _

theorem drawn (h : Frame dl al dest s u) (k : Nat) : Frame dl al dest s (u.drawn k) :=
  { h with
    mem := fun b hb => (readByte_congr (by simp) (by simp) b).trans (h.mem b hb)
    inv := fun hi => Inv_congr (by simp) (by simp) (h.inv hi)
    code := fun b hb => (readByte_congr (by simp) (by simp) b).trans (h.code b hb) }

theorem eaUpdate (h : Frame dl al dest s u) (sz : Size) {ea : EA} (hn : ∀ n ∈ ea.sideA, n ∈ al) :
    Frame dl al dest s (u.eaUpdate sz ea) := by
  cases ea <;> first | exact h | exact h.writeA (hn _ (by simp [EA.sideA])) _

theorem stored (h : Frame dl al dest s u) {a : Long} {sz : Size} (v : BitVec sz.bits) (hd : dest = some (a, sz.bytes))
    (hs : u.storable a sz = true) : Frame dl al dest s (u.stored a sz v) where
  d m hm := (dreg_congr (by simp) m).trans (h.d m hm)
  a m h7 hm := (readA_stored u m a sz v).trans (h.a m h7 hm)
  sp h7 := by simpa using h.sp h7
  usp hs := by simpa using h.usp hs
  ssp hs := by simpa using h.ssp hs
  trace := by simpa using h.trace
  super := by simpa using h.super
  mask := by simpa using h.mask
  params := by simpa using h.params
  irq := by simpa using h.irq
  irqFeed := by simpa using h.irqFeed
  resetLine := by simpa using h.resetLine
  mem b hb := by
    rw [readByte_stored_outside, h.mem b hb]
    intro j hj
    rw [phys_eq_of_params h.params, phys_eq_of_params h.params]
    exact hb a _ hd j hj
  inv hi := stored_inv v (h.inv hi) hs
  code b hb := by
    rw [readByte_stored_outside, h.code b hb]
    exact storable_outside hs (by rw [isCode_congr h.params]; exact hb)

theorem put (h : Frame dl al dest s u) {sz : Size} {ea : EA} {ext : Long} (r : BitVec sz.bits)
    (hc : u.canPut sz ea ext = true) (hd : ∀ n ∈ ea.destD, n ∈ dl) (hn : ∀ n ∈ ea.sideA, n ∈ al)
    (hm : ea.kind.isMem = true → dest = some (u.eaAddress sz ea ext, sz.bytes)) :
    Frame dl al dest s (u.put sz ea ext r) := by
  by_cases hk : ea.kind.isMem = true
  · rw [put_mem' hk]
    rw [canPut_mem hk] at hc
    simp only [Bool.and_eq_true] at hc
    exact (h.eaUpdate sz hn).stored r (hm hk) (by simpa using hc.2)
  · cases ea <;> simp [State.canPut, EA.kind, EAKind.isMem] at hk hc
    exact h.writeD (hd _ (by simp [EA.destD])) sz r

end Frame

end Sys2Proof.Machine
end

