-- ==== Sys2Proof/Laws/Exceptions.lean ====
section
/-! SUPPORT. What taking an exception or an interrupt, and the reset procedure, leave unchanged: `Entered s t` says that
from `s` to `t` at most `SSP`, `SR`, `pc` and the memory the supervisor stack takes have changed. -/

namespace Sys2Proof.Machine

open Sys2Proof

structure Entered (s t : State) : Prop where
  d         : t.d = s.d
  a         : t.a = s.a
  usp       : t.usp = s.usp
  params    : t.params = s.params
  irq       : t.irq = s.irq
  irqFeed   : t.irqFeed = s.irqFeed
  resetLine : t.resetLine = s.resetLine
  freeCount : t.freeCount = s.freeCount
  inv       : s.Inv → t.Inv
  code      : ∀ b : Long, s.isCode b = true → t.readByte b = s.readByte b

theorem Entered.refl (s : State) : Entered s s := by constructor <;> simp

theorem Entered.trans {s t u : State} (h : Entered s t) (k : Entered t u) : Entered s u where
  d := k.d.trans h.d
  a := k.a.trans h.a
  usp := k.usp.trans h.usp
  params := k.params.trans h.params
  irq := k.irq.trans h.irq
  irqFeed := k.irqFeed.trans h.irqFeed
  resetLine := k.resetLine.trans h.resetLine
  freeCount := k.freeCount.trans h.freeCount
  inv i := k.inv (h.inv i)
  code b hb := (k.code b (by rw [isCode_congr h.params]; exact hb)).trans (h.code b hb)

theorem Entered.setSr (s : State) (r : Status) : Entered s (s.setSr r) where
  d := rfl
  a := rfl
  usp := rfl
  params := rfl
  irq := rfl
  irqFeed := rfl
  resetLine := rfl
  freeCount := rfl
  inv i := i
  code _ _ := rfl

theorem Entered.setPc (s : State) (v : Long) : Entered s (s.setPc v) where
  d := rfl
  a := rfl
  usp := rfl
  params := rfl
  irq := rfl
  irqFeed := rfl
  resetLine := rfl
  freeCount := rfl
  inv i := i
  code _ _ := rfl

/-- A push on the supervisor stack. -/
theorem pushSsp_entered {s t : State} {sz : Size} {v : BitVec sz.bits} (h : s.pushSsp sz v = .next t) :
    Entered s t ∧ t.sr = s.sr := by
  obtain ⟨hs, rfl⟩ := memWrite_eq_next.mp h
  refine ⟨⟨by simp, by simp, by simp, by simp, by simp, by simp, by simp, by simp, fun i => ?_, fun b hb => ?_⟩, by simp⟩
  · exact stored_inv v (s := s.setSsp _) i hs
  · rw [readByte_stored_outside _ _ _ _ _ (storable_outside hs (hb : (s.setSsp _).isCode b = true))]
    exact readByte_congr rfl rfl b

theorem pushFormat_entered {s t : State} {v : Nat} {long : Bool} {pc0 : Long} (h : s.pushFormat v long pc0 = .next t) :
    Entered s t ∧ t.sr = s.sr := by
  unfold State.pushFormat at h
  split at h
  · cases h; exact ⟨.refl s, rfl⟩
  · exact pushSsp_entered h
  · split at h
    · obtain ⟨u, h1, h2⟩ := andThen_eq_next.mp h
      have k1 := pushSsp_entered h1
      have k2 := pushSsp_entered h2
      exact ⟨k1.1.trans k2.1, k2.2.trans k1.2⟩
    · exact pushSsp_entered h

/-- Entering a vector changes `SSP`, `SR`, `pc` and memory only, and `SR` becomes what the entry says. -/
theorem enterVector_entered {s t : State} {v : Nat} {long : Bool} {sr : Status} {spc pc0 : Long}
    (h : s.enterVector v long sr spc pc0 = .next t) : Entered s t ∧ t.sr = sr := by
  obtain ⟨s1, h1, h⟩ := andThen_eq_next.mp (asDoubleFault_eq_next.mp h)
  obtain ⟨s2, h2, h⟩ := andThen_eq_next.mp h
  obtain ⟨s3, h3, h⟩ := andThen_eq_next.mp h
  obtain ⟨hd, -, h⟩ := andThen_eq_next.mp h
  cases h
  have k1 := pushFormat_entered h1
  have k2 := pushSsp_entered h2
  have k3 := pushSsp_entered h3
  exact ⟨(Entered.setSr s sr).trans (k1.1.trans (k2.1.trans (k3.1.trans (.setPc s3 hd)))), k3.2.trans (k2.2.trans k1.2)⟩

/-- An exception that is taken: `S` set, `T` cleared, everything else of `SR` kept (R310). -/
theorem raise_entered {e : Exc} {spc pc0 : Long} {s t : State} (h : raise e spc pc0 s = .next t) :
    s.params.trapModel = .vectored ∧ Entered s t ∧ t.sr = { s.sr with s := true, t := false } := by
  unfold raise at h
  split at h
  · cases h
  · rename_i hv
    exact ⟨hv, enterVector_entered h⟩

/-- The request of an instruction boundary: the next of the feed, else the one already presented. -/
theorem sampleIrq_eq {s : State} {r : IrqRequest} {rs : List IrqRequest}
    (h : s.irqFeed = r :: rs ∨ (s.irqFeed = [] ∧ r = s.irq ∧ rs = [])) : s.sampleIrq = s.setIrq r rs := by
  rcases h with h | ⟨h, rfl, rfl⟩
  · simp [State.sampleIrq, h]
  · cases s; simp_all [State.sampleIrq, State.setIrq]

/-- The interrupt check: at most what is presented and an entry change. -/
theorem takeIrq_params {s t : State} (h : s.takeIrq = .next t) :
    t.params = s.params ∧ t.d = s.d ∧ t.a = s.a ∧ t.usp = s.usp ∧ (s.Inv → t.Inv) ∧
      (∀ b : Long, s.isCode b = true → t.readByte b = s.readByte b) ∧ (s.params.interrupts = .none → t = s) := by
  have key : ∀ u : State, Entered s.sampleIrq u → u.params = s.params ∧ u.d = s.d ∧ u.a = s.a ∧ u.usp = s.usp ∧
      (s.Inv → u.Inv) ∧ ∀ b : Long, s.isCode b = true → u.readByte b = s.readByte b := by
    intro u k
    have hp : s.sampleIrq.params = s.params := by unfold State.sampleIrq; split <;> rfl
    have hm : s.sampleIrq.mem = s.mem := by unfold State.sampleIrq; split <;> rfl
    refine ⟨k.params.trans hp, k.d.trans ?_, k.a.trans ?_, k.usp.trans ?_, fun i => k.inv (Inv_congr hp hm i),
      fun b hb => (k.code b (by rw [isCode_congr hp]; exact hb)).trans (readByte_congr hp hm b)⟩ <;>
    unfold State.sampleIrq <;> split <;> rfl
  unfold State.takeIrq at h
  split at h
  · cases h; simp
  · rename_i hx
    simp only [hx, reduceCtorEq, false_implies, and_true]
    dsimp only at h
    split at h
    · exact key t (enterVector_entered h).1
    · cases h; exact key _ (.refl _)

end Sys2Proof.Machine
end

