-- ==== Sys2Proof/Laws/Fetch.lean ====
section
/-! SUPPORT. Instruction words fetched from the bytes that memory holds. -/

namespace Sys2Proof.Machine

open Sys2Proof

theorem aligned_add_two {a : Long} (h : aligned a 2 = true) : aligned (a + 2) 2 = true := by
  simp only [aligned, Nat.reduceLeDiff, decide_false, Bool.false_or, beq_iff_eq, BitVec.toNat_add,
    BitVec.reduceToNat] at *
  omega

/-- A word is fetched where its two bytes are, aligned and mapped. -/
theorem fetch16_of_bytes {s : State} {a : Long} {w : Word16} (ha : aligned a 2 = true)
    (hm : s.isMapped a = true ∧ s.isMapped (a + 1) = true)
    (h0 : s.readByte a = some (BitVec.ofNat 8 (w.toNat / 256))) (h1 : s.readByte (a + 1) = some (BitVec.ofNat 8 w.toNat)) :
    s.fetch16 a = .next w := by
  rw [State.fetch16, memRead_eq_next]
  unfold State.load
  simp only [Size.bytes, ha, allBytes, hm, Bool.and_self, if_true, State.readBytes, h0, h1, Option.map_some, beValue,
    Option.some.injEq]
  have := w.isLt
  apply BitVec.eq_of_toNat_eq
  simp [Size.bits]; omega

/-- The words fetched from an address on are those whose bytes are there. -/
theorem fetchWords_of_bytes {s : State} (ws : List Word16) {a : Long} (ha : aligned a 2 = true)
    (hm : allBytes s.isMapped a (2 * ws.length) = true)
    (hb : s.readBytes a (2 * ws.length) = some (ws.flatMap wordBytes)) : s.fetchWords a ws.length = .next ws := by
  induction ws generalizing a with
  | nil => rfl
  | cons w ws ih =>
    have e : 2 * (w :: ws).length = 2 * ws.length + 1 + 1 := by simp only [List.length_cons]; omega
    have e2 : a + 1 + 1 = a + 2 := by rw [BitVec.add_assoc]; rfl
    rw [e] at hm hb
    simp only [allBytes, Bool.and_eq_true, e2] at hm
    simp only [State.readBytes, e2, List.flatMap_cons, wordBytes, List.cons_append, List.nil_append] at hb
    split at hb
    · rename_i b bs h0 hr
      split at hr
      · rename_i c cs h1 h2
        cases hr
        simp only [Option.some.injEq, List.cons.injEq] at hb
        obtain ⟨rfl, rfl, rfl⟩ := hb
        simp only [State.fetchWords, List.length_cons, fetch16_of_bytes ha ⟨hm.1, hm.2.1⟩ h0 h1,
          ih (aligned_add_two ha) hm.2.2 h2, andThen]
      · cases hr
    · cases hb

/-- The first word that cannot be fetched ends the fetch of them all. -/
theorem fetchWords_fault {s : State} {f : Fault} (k n : Nat) (a : Long) (hk : k < n)
    (hb : ∀ j < k, ∃ w, s.fetch16 (a + BitVec.ofNat 32 (2 * j)) = .next w)
    (hf : s.fetch16 (a + BitVec.ofNat 32 (2 * k)) = .fault f) : s.fetchWords a n = .fault f := by
  have e (j : Nat) : a + BitVec.ofNat 32 (2 * (j + 1)) = a + 2 + BitVec.ofNat 32 (2 * j) := by
    rw [Nat.mul_add, Nat.add_comm, BitVec.ofNat_add, ← BitVec.add_assoc]; rfl
  induction k generalizing n a with
  | zero =>
    obtain ⟨n, rfl⟩ : ∃ m, n = m + 1 := ⟨n - 1, by omega⟩
    rw [Nat.mul_zero, add_ofNat_zero] at hf
    rw [State.fetchWords, hf, andThen_fault]
  | succ k ih =>
    obtain ⟨n, rfl⟩ : ∃ m, n = m + 1 := ⟨n - 1, by omega⟩
    obtain ⟨w, hw⟩ := hb 0 (by omega)
    rw [Nat.mul_zero, add_ofNat_zero] at hw
    rw [State.fetchWords, hw, andThen_next,
      ih n (a + 2) (by omega) (fun j hj => by rw [← e]; exact hb (j + 1) (by omega)) (by rw [← e]; exact hf) fun j => ?_]
    · rfl
    · rw [Nat.mul_add, Nat.add_comm, BitVec.ofNat_add, ← BitVec.add_assoc]; rfl

end Sys2Proof.Machine
end

