-- ==== Sys2Proof/Laws/Launch.lean ====
section
/-! SUPPORT. How a run starts: what a launch leaves in every field, and its memory byte by byte. -/

namespace Sys2Proof.Machine

open Sys2Proof

/-- One byte of the launch memory changes memory only. -/
theorem launchByte_eq (s : State) (c : Long × Byte) : ∃ m, s.launchByte c = { s with mem := m } := by
  unfold State.launchByte
  split
  · exact ⟨_, rfl⟩
  · exact ⟨s.mem, rfl⟩

theorem launchByte_inv {s : State} (c : Long × Byte) (h : s.Inv) : (s.launchByte c).Inv := by
  unfold State.launchByte
  split
  · exact writeBytes_inv (bs := [c.2]) (a := c.1) h (by simp [allBytes, *])
  · exact h

/-- The launch memory changes memory only. -/
theorem launchBytes_eq (cs : List (Long × Byte)) (s : State) : ∃ m, cs.foldl State.launchByte s = { s with mem := m } := by
  induction cs generalizing s with
  | nil => exact ⟨s.mem, rfl⟩
  | cons c cs ih =>
    obtain ⟨m, h⟩ := launchByte_eq s c
    obtain ⟨m', h'⟩ := ih (s.launchByte c)
    exact ⟨m', by rw [List.foldl_cons, h', h]⟩

theorem launchBytes_inv (cs : List (Long × Byte)) {s : State} (h : s.Inv) : (cs.foldl State.launchByte s).Inv := by
  induction cs generalizing s with
  | nil => exact h
  | cons c cs ih => exact ih (launchByte_inv c h)

/-- A byte of which the launch memory says nothing. -/
theorem launchBytes_other (cs : List (Long × Byte)) (s : State) {b : Long} (h : ∀ c ∈ cs, s.phys c.1 ≠ s.phys b) :
    (cs.foldl State.launchByte s).readByte b = s.readByte b := by
  induction cs generalizing s with
  | nil => rfl
  | cons c cs ih =>
    obtain ⟨m, he⟩ := launchByte_eq s c
    have hp : (s.launchByte c).params = s.params := by rw [he]
    rw [List.foldl_cons, ih _ fun e hm => by
      rw [phys_eq_of_params hp, phys_eq_of_params hp]; exact h e (List.mem_cons_of_mem _ hm)]
    unfold State.launchByte
    split
    · exact readByte_writeByte_other s c.2 (h c (List.mem_cons_self ..))
    · rfl

/-- A byte the launch memory supplies, once or every time alike, where the platform has memory. -/
theorem launchBytes_self (cs : List (Long × Byte)) {s : State} (hi : s.Inv) {b : Long} {v : Byte}
    (hm : s.isMapped b = true) (hc : ∃ c ∈ cs, s.phys c.1 = s.phys b) (h : ∀ c ∈ cs, s.phys c.1 = s.phys b → c.2 = v) :
    (cs.foldl State.launchByte s).readByte b = some v := by
  induction cs generalizing s with
  | nil => obtain ⟨c, hc, -⟩ := hc; cases hc
  | cons c cs ih =>
    obtain ⟨m, he⟩ := launchByte_eq s c
    have hp : (s.launchByte c).params = s.params := by rw [he]
    have hph : ∀ a, (s.launchByte c).phys a = s.phys a := phys_eq_of_params hp
    rw [List.foldl_cons]
    by_cases hin : ∃ e ∈ cs, s.phys e.1 = s.phys b
    · refine ih (launchByte_inv c hi) (by rw [isMapped_congr hp]; exact hm) ?_ fun e hm he => ?_
      · simpa only [hph] using hin
      · exact h e (List.mem_cons_of_mem _ hm) (by simpa only [hph] using he)
    · rw [launchBytes_other cs _ fun e hm => by rw [hph, hph]; exact fun he => hin ⟨e, hm, he⟩]
      have hq : s.phys c.1 = s.phys b := by
        obtain ⟨e, hme, hpe⟩ := hc
        rcases List.mem_cons.mp hme with rfl | hme
        · exact hpe
        · exact absurd ⟨e, hme, hpe⟩ hin
      have hmc : s.isMapped c.1 = true := by unfold State.isMapped at hm ⊢; rw [hq]; exact hm
      have := readByte_writeByte_self s c.1 c.2 hi.1
      rw [h c (List.mem_cons_self ..) hq] at this
      unfold State.launchByte
      rw [if_pos hmc, h c (List.mem_cons_self ..) hq]
      simp only [State.readByte, phys_writeByte, hq] at this ⊢
      exact this

theorem dregs_get (l : Launch) (n : Fin 8) : l.dregs[n] = l.d[n].getD 0 := by
  match n with
  | 0 | 1 | 2 | 3 | 4 | 5 | 6 | 7 => rfl

theorem aregs_get (l : Launch) (n : Fin 7) : l.aregs[n] = l.a[n].getD 0 := by
  match n with
  | 0 | 1 | 2 | 3 | 4 | 5 | 6 => rfl

/-- What a launch leaves in every field but memory, and the memory's form. -/
theorem launched_eq (l : Launch) :
    (∃ m, State.launched l =
      { State.reset with
        params := l.params, pc := l.pc, sr := Status.ofWord (l.sr.getD 0), d := l.dregs,
        a := l.aregs, usp := l.usp.getD 0, ssp := l.ssp.getD 0, mem := m }) ∧
      (State.launched l).Inv := by
  refine ⟨launchBytes_eq l.mem _, launchBytes_inv l.mem ⟨⟨.nil, ?_⟩, ?_⟩⟩ <;> intro c hc <;> cases hc

/-- The start of the empty launch is the state after reset. -/
theorem start_empty : State.start .empty = .next State.reset := by
  have h0 : (State.launched .empty).load 0 .l = some 0 := by decide
  have h4 : (State.launched .empty).load 4 .l = some 0 := by decide
  show (State.launched .empty).resetEntry = _
  unfold State.resetEntry
  rw [asDoubleFault_eq_next, memRead_eq_next.mpr h0, andThen_next, memRead_eq_next.mpr h4, andThen_next]
  congr 1

end Sys2Proof.Machine
end

