-- ==== Sys2Proof/Laws/PerInstr.lean ====
section
/-! SUPPORT. What holds of every instruction as syntax: one lemma per constructor. -/

namespace Sys2Proof.Laws

open Sys2Proof

/-- The encoding has as many words as `Instr.words` says, at least 1 and at most 5 (R91: 2 to 10 bytes). -/
def EncodeLength.Statement (i : Instr) : Prop := i.encode.length = i.words ∧ 1 ≤ i.words ∧ i.words ≤ 5

namespace EncodeLength

theorem extCount_le (sz : Size) (ea : EA) : ea.extCount sz ≤ 2 := by
  cases ea <;> cases sz <;> simp [EA.extCount, Size.immCount]

theorem immCount_le (sz : Size) : sz.immCount ≤ 2 := by cases sz <;> decide

/-- An operation word, `own` words of the instruction's own, and an operand. -/
theorem of_ea (line : Nat) (r o : Fin 8) (own : List Word16) (sz : Size) (ea : EA) (h : own.length ≤ 2) :
    (encodeEA line r o own sz ea).length = 1 + own.length + ea.extCount sz ∧
      1 ≤ 1 + own.length + ea.extCount sz ∧ 1 + own.length + ea.extCount sz ≤ 5 := by
  have := extCount_le sz ea
  simp only [encodeEA, List.length_cons, List.length_append, ext_length]
  omega

/-- The same with the words of an immediate as the instruction's own. -/
theorem of_imm_ea (line : Nat) (r o : Fin 8) (sz : Size) (imm : Long) (ea : EA) :
    (encodeEA line r o (immWords sz imm) sz ea).length = 1 + sz.immCount + ea.extCount sz ∧
      1 ≤ 1 + sz.immCount + ea.extCount sz ∧ 1 + sz.immCount + ea.extCount sz ≤ 5 := by
  have := of_ea line r o (immWords sz imm) sz ea (by rw [immWords_length]; exact immCount_le sz)
  rwa [immWords_length] at this

/-- A form whose number of words does not depend on its operands. -/
theorem of_fixed {n k : Nat} (h : n = k) (hk : 1 ≤ k ∧ k ≤ 5) : n = k ∧ 1 ≤ k ∧ k ≤ 5 := ⟨h, hk⟩

theorem of_branch (c : Nat) (d : Disp) :
    (encodeBranch c d).length = 1 + d.extCount ∧ 1 ≤ 1 + d.extCount ∧ 1 + d.extCount ≤ 5 := by
  cases d <;> simp [encodeBranch, Disp.extCount]

theorem abcdReg (y x : RegNum) : Statement (.abcdReg y x) := of_fixed rfl (by simp [Instr.words])
theorem abcdMem (y x : RegNum) : Statement (.abcdMem y x) := of_fixed rfl (by simp [Instr.words])
theorem addEaDn (sz : Size) (ea : EA) (n : RegNum) : Statement (.addEaDn sz ea n) := of_ea _ _ _ [] _ _ (by decide)
theorem addDnEa (sz : Size) (n : RegNum) (ea : EA) : Statement (.addDnEa sz n ea) := of_ea _ _ _ [] _ _ (by decide)
theorem addaW (ea : EA) (n : RegNum) : Statement (.addaW ea n) := of_ea _ _ _ [] _ _ (by decide)
theorem addaL (ea : EA) (n : RegNum) : Statement (.addaL ea n) := of_ea _ _ _ [] _ _ (by decide)
theorem addi (sz : Size) (imm : Long) (ea : EA) : Statement (.addi sz imm ea) := of_imm_ea _ _ _ _ _ _
theorem addq (sz : Size) (data : Fin 8) (ea : EA) : Statement (.addq sz data ea) := of_ea _ _ _ [] _ _ (by decide)
theorem addxReg (sz : Size) (y x : RegNum) : Statement (.addxReg sz y x) := of_fixed rfl (by simp [Instr.words])
theorem addxMem (sz : Size) (y x : RegNum) : Statement (.addxMem sz y x) := of_fixed rfl (by simp [Instr.words])
theorem andEaDn (sz : Size) (ea : EA) (n : RegNum) : Statement (.andEaDn sz ea n) := of_ea _ _ _ [] _ _ (by decide)
theorem andDnEa (sz : Size) (n : RegNum) (ea : EA) : Statement (.andDnEa sz n ea) := of_ea _ _ _ [] _ _ (by decide)
theorem andi (sz : Size) (imm : Long) (ea : EA) : Statement (.andi sz imm ea) := of_imm_ea _ _ _ _ _ _
theorem andiToSr (imm : BitVec 16) : Statement (.andiToSr imm) := of_fixed rfl (by simp [Instr.words])
theorem aslImm (sz : Size) (count : Fin 8) (d : RegNum) :
    Statement (.aslImm sz count d) := of_fixed rfl (by simp [Instr.words])
theorem aslReg (sz : Size) (n d : RegNum) : Statement (.aslReg sz n d) := of_fixed rfl (by simp [Instr.words])
theorem aslMem (ea : EA) : Statement (.aslMem ea) := of_ea _ _ _ [] _ _ (by decide)
theorem asrImm (sz : Size) (count : Fin 8) (d : RegNum) :
    Statement (.asrImm sz count d) := of_fixed rfl (by simp [Instr.words])
theorem asrReg (sz : Size) (n d : RegNum) : Statement (.asrReg sz n d) := of_fixed rfl (by simp [Instr.words])
theorem asrMem (ea : EA) : Statement (.asrMem ea) := of_ea _ _ _ [] _ _ (by decide)
theorem btstDyn (n : RegNum) (ea : EA) : Statement (.btstDyn n ea) := of_ea _ _ _ [] _ _ (by decide)
theorem btstStatic (bit : BitVec 16) (ea : EA) : Statement (.btstStatic bit ea) := of_ea _ _ _ [_] _ _ (by simp)
theorem bchgDyn (n : RegNum) (ea : EA) : Statement (.bchgDyn n ea) := of_ea _ _ _ [] _ _ (by decide)
theorem bchgStatic (bit : BitVec 16) (ea : EA) : Statement (.bchgStatic bit ea) := of_ea _ _ _ [_] _ _ (by simp)
theorem bclrDyn (n : RegNum) (ea : EA) : Statement (.bclrDyn n ea) := of_ea _ _ _ [] _ _ (by decide)
theorem bclrStatic (bit : BitVec 16) (ea : EA) : Statement (.bclrStatic bit ea) := of_ea _ _ _ [_] _ _ (by simp)
theorem bsetDyn (n : RegNum) (ea : EA) : Statement (.bsetDyn n ea) := of_ea _ _ _ [] _ _ (by decide)
theorem bsetStatic (bit : BitVec 16) (ea : EA) : Statement (.bsetStatic bit ea) := of_ea _ _ _ [_] _ _ (by simp)
theorem bra (d : Disp) : Statement (.bra d) := of_branch _ _
theorem bsr (d : Disp) : Statement (.bsr d) := of_branch _ _
theorem bhi (d : Disp) : Statement (.bhi d) := of_branch _ _
theorem bls (d : Disp) : Statement (.bls d) := of_branch _ _
theorem bcc (d : Disp) : Statement (.bcc d) := of_branch _ _
theorem bcs (d : Disp) : Statement (.bcs d) := of_branch _ _
theorem bne (d : Disp) : Statement (.bne d) := of_branch _ _
theorem beq (d : Disp) : Statement (.beq d) := of_branch _ _
theorem bvc (d : Disp) : Statement (.bvc d) := of_branch _ _
theorem bvs (d : Disp) : Statement (.bvs d) := of_branch _ _
theorem bpl (d : Disp) : Statement (.bpl d) := of_branch _ _
theorem bmi (d : Disp) : Statement (.bmi d) := of_branch _ _
theorem bge (d : Disp) : Statement (.bge d) := of_branch _ _
theorem blt (d : Disp) : Statement (.blt d) := of_branch _ _
theorem bgt (d : Disp) : Statement (.bgt d) := of_branch _ _
theorem ble (d : Disp) : Statement (.ble d) := of_branch _ _
theorem chk (ea : EA) (n : RegNum) : Statement (.chk ea n) := of_ea _ _ _ [] _ _ (by decide)
theorem clr (sz : Size) (ea : EA) : Statement (.clr sz ea) := of_ea _ _ _ [] _ _ (by decide)
theorem cmp (sz : Size) (ea : EA) (n : RegNum) : Statement (.cmp sz ea n) := of_ea _ _ _ [] _ _ (by decide)
theorem cmpaW (ea : EA) (n : RegNum) : Statement (.cmpaW ea n) := of_ea _ _ _ [] _ _ (by decide)
theorem cmpaL (ea : EA) (n : RegNum) : Statement (.cmpaL ea n) := of_ea _ _ _ [] _ _ (by decide)
theorem cmpi (sz : Size) (imm : Long) (ea : EA) : Statement (.cmpi sz imm ea) := of_imm_ea _ _ _ _ _ _
theorem cmpm (sz : Size) (y x : RegNum) : Statement (.cmpm sz y x) := of_fixed rfl (by simp [Instr.words])
theorem dbt (n : RegNum) (d16 : BitVec 16) : Statement (.dbt n d16) := of_fixed rfl (by simp [Instr.words])
theorem dbf (n : RegNum) (d16 : BitVec 16) : Statement (.dbf n d16) := of_fixed rfl (by simp [Instr.words])
theorem dbhi (n : RegNum) (d16 : BitVec 16) : Statement (.dbhi n d16) := of_fixed rfl (by simp [Instr.words])
theorem dbls (n : RegNum) (d16 : BitVec 16) : Statement (.dbls n d16) := of_fixed rfl (by simp [Instr.words])
theorem dbcc (n : RegNum) (d16 : BitVec 16) : Statement (.dbcc n d16) := of_fixed rfl (by simp [Instr.words])
theorem dbcs (n : RegNum) (d16 : BitVec 16) : Statement (.dbcs n d16) := of_fixed rfl (by simp [Instr.words])
theorem dbne (n : RegNum) (d16 : BitVec 16) : Statement (.dbne n d16) := of_fixed rfl (by simp [Instr.words])
theorem dbeq (n : RegNum) (d16 : BitVec 16) : Statement (.dbeq n d16) := of_fixed rfl (by simp [Instr.words])
theorem dbvc (n : RegNum) (d16 : BitVec 16) : Statement (.dbvc n d16) := of_fixed rfl (by simp [Instr.words])
theorem dbvs (n : RegNum) (d16 : BitVec 16) : Statement (.dbvs n d16) := of_fixed rfl (by simp [Instr.words])
theorem dbpl (n : RegNum) (d16 : BitVec 16) : Statement (.dbpl n d16) := of_fixed rfl (by simp [Instr.words])
theorem dbmi (n : RegNum) (d16 : BitVec 16) : Statement (.dbmi n d16) := of_fixed rfl (by simp [Instr.words])
theorem dbge (n : RegNum) (d16 : BitVec 16) : Statement (.dbge n d16) := of_fixed rfl (by simp [Instr.words])
theorem dblt (n : RegNum) (d16 : BitVec 16) : Statement (.dblt n d16) := of_fixed rfl (by simp [Instr.words])
theorem dbgt (n : RegNum) (d16 : BitVec 16) : Statement (.dbgt n d16) := of_fixed rfl (by simp [Instr.words])
theorem dble (n : RegNum) (d16 : BitVec 16) : Statement (.dble n d16) := of_fixed rfl (by simp [Instr.words])
theorem divu (ea : EA) (n : RegNum) : Statement (.divu ea n) := of_ea _ _ _ [] _ _ (by decide)
theorem divs (ea : EA) (n : RegNum) : Statement (.divs ea n) := of_ea _ _ _ [] _ _ (by decide)
theorem eor (sz : Size) (n : RegNum) (ea : EA) : Statement (.eor sz n ea) := of_ea _ _ _ [] _ _ (by decide)
theorem eori (sz : Size) (imm : Long) (ea : EA) : Statement (.eori sz imm ea) := of_imm_ea _ _ _ _ _ _
theorem eoriToSr (imm : BitVec 16) : Statement (.eoriToSr imm) := of_fixed rfl (by simp [Instr.words])
theorem exgDd (x y : RegNum) : Statement (.exgDd x y) := of_fixed rfl (by simp [Instr.words])
theorem exgAa (x y : RegNum) : Statement (.exgAa x y) := of_fixed rfl (by simp [Instr.words])
theorem exgDa (x y : RegNum) : Statement (.exgDa x y) := of_fixed rfl (by simp [Instr.words])
theorem extW (n : RegNum) : Statement (.extW n) := of_fixed rfl (by simp [Instr.words])
theorem extL (n : RegNum) : Statement (.extL n) := of_fixed rfl (by simp [Instr.words])

end EncodeLength

end Sys2Proof.Laws
end

