-- ==== Sys2Proof/Tests/Slice0.lean ====
section
/-! SUPPORT. Tests: what `Instr.wf` refuses; decoding of words written out from the spec's encodings (R106, R110 to R117,
and part 4 of 95_test_vectors.md); one step each on small states, the expected values those of the spec's vectors; and
for every statement a state and operands that meet its hypotheses. -/

namespace Sys2Proof.Tests

open Sys2Proof Sys2Proof.Machine

/-! ## Ill-formed terms -/

/-- A mode outside the category (R64). -/
theorem test_wf_category : Instr.wf (.addDnEa .w 0 (.dn 1)) = false ∧ Instr.wf (.clr .w (.an 0)) = false ∧
    Instr.wf (.eor .w 0 (.pcDisp 4)) = false ∧ Instr.wf (.btstStatic 1 (.imm 2)) = false ∧
    Instr.wf (.btstDyn 1 (.imm 2)) = true := by decide

/-- `An` with size B (R100). -/
theorem test_wf_byte_address : Instr.wf (.cmp .b (.an 0) 1) = false ∧ Instr.wf (.addq .b 1 (.an 0)) = false ∧
    Instr.wf (.addq .w 1 (.an 0)) = true := by decide

/-- An immediate wider than its words (R97), the instruction's own and an operand's. -/
theorem test_wf_immediate : Instr.wf (.addi .w 0x10000 (.dn 0)) = false ∧ Instr.wf (.addEaDn .b (.imm 0x10000) 0) = false ∧
    Instr.wf (.addi .l 0x10000 (.dn 0)) = true := by decide

/-- A byte displacement of 0 (R105). -/
theorem test_wf_displacement : Instr.wf (.bra (.byte 0)) = false ∧ Instr.wf (.bra (.word 0)) = true := by decide

/-! ## Decoding -/

/-- The words decode to the instruction and nothing is left over, and the instruction encodes to the words. -/
def reads (p : List Word16 × Instr) : Bool :=
  match decodeWords p.1 with
  | .ok (i, []) => i == p.2 && i.encode == p.1
  | _ => false

/-- The operation word is rejected for the reason given. -/
def rejects (p : Word16 × DecodeError) : Bool :=
  match decodeWords [p.1, 0, 0, 0, 0] with
  | .error e => e == p.2
  | _ => false

theorem test_decode_abcd : [([0xC101], Instr.abcdReg 1 0), ([0xC308], .abcdMem 0 1)].all reads = true := by decide

theorem test_decode_add : [([0xD068, 0xFFFE], Instr.addEaDn .w (.disp 0 0xFFFE) 0), ([0xD190], .addDnEa .l 0 (.ind 0)),
    ([0xD0FC, 0x8000], .addaW (.imm 0x8000) 0), ([0xD1C9], .addaL (.an 1) 0),
    ([0x0668, 0x0005, 0x0008], .addi .w 5 (.disp 0 8)), ([0x5043], .addq .w 0 (.dn 3)), ([0xD141], .addxReg .w 1 0),
    ([0xD388], .addxMem .l 0 1)].all reads = true := by decide

theorem test_decode_and : [([0xC011], Instr.andEaDn .b (.ind 1) 0), ([0xC321], .andDnEa .b 1 (.predec 1)),
    ([0x0281, 0x8000, 0x0001], .andi .l 0x80000001 (.dn 1)), ([0x027C, 0xF8FF], .andiToSr 0xF8FF)].all reads = true := by
  decide

theorem test_decode_shift : [([0xE501], Instr.aslImm .b 2 1), ([0xE3A0], .aslReg .l 1 0), ([0xE1D9], .aslMem (.postinc 1)),
    ([0xE041], .asrImm .w 0 1), ([0xE260], .asrReg .w 1 0), ([0xE0E1], .asrMem (.predec 1))].all reads = true := by decide

theorem test_decode_bit : [([0x033C, 0x0080], Instr.btstDyn 1 (.imm 0x80)), ([0x083A, 0x0003, 0x0010], .btstStatic 3 (.pcDisp 0x10)),
    ([0x0342], .bchgDyn 1 (.dn 2)), ([0x0878, 0x0007, 0x2001], .bchgStatic 7 (.absW 0x2001)),
    ([0x0382], .bclrDyn 1 (.dn 2)), ([0x0890, 0x0105], .bclrStatic 0x105 (.ind 0)), ([0x03C2], .bsetDyn 1 (.dn 2)),
    ([0x08D0, 0x0007], .bsetStatic 7 (.ind 0))].all reads = true := by decide

theorem test_decode_branch : [([0x60FE], Instr.bra (.byte 0xFE)), ([0x6100, 0x0100], .bsr (.word 0x100)),
    ([0x6202], .bhi (.byte 2)), ([0x6302], .bls (.byte 2)), ([0x6402], .bcc (.byte 2)), ([0x6502], .bcs (.byte 2)),
    ([0x66FC], .bne (.byte 0xFC)), ([0x6700, 0x0100], .beq (.word 0x100)), ([0x6802], .bvc (.byte 2)),
    ([0x6902], .bvs (.byte 2)), ([0x6A02], .bpl (.byte 2)), ([0x6B02], .bmi (.byte 2)), ([0x6C02], .bge (.byte 2)),
    ([0x6D02], .blt (.byte 2)), ([0x6E02], .bgt (.byte 2)), ([0x6FFF], .ble (.byte 0xFF))].all reads = true := by decide

theorem test_decode_chk_clr : [([0x41BC, 0x0004], Instr.chk (.imm 4) 0), ([0x4298], .clr .l (.postinc 0))].all reads = true := by
  decide

theorem test_decode_cmp : [([0xB2BC, 0x0000, 0x0001], Instr.cmp .l (.imm 1) 1), ([0xB0FC, 0x8000], .cmpaW (.imm 0x8000) 0),
    ([0xB1C9], .cmpaL (.an 1) 0), ([0x0C50, 0x1234], .cmpi .w 0x1234 (.ind 0)), ([0xB348], .cmpm .w 0 1)].all reads = true := by
  decide

theorem test_decode_dbcc : [([0x50C8, 0xFFFC], Instr.dbt 0 0xFFFC), ([0x51C9, 0xFFFC], .dbf 1 0xFFFC), ([0x52C8, 2], .dbhi 0 2),
    ([0x53C8, 2], .dbls 0 2), ([0x54C8, 2], .dbcc 0 2), ([0x55C8, 2], .dbcs 0 2), ([0x56C9, 0x0010], .dbne 1 0x10),
    ([0x57C8, 2], .dbeq 0 2), ([0x58C8, 2], .dbvc 0 2), ([0x59C8, 2], .dbvs 0 2), ([0x5AC8, 2], .dbpl 0 2),
    ([0x5BC8, 2], .dbmi 0 2), ([0x5CC8, 2], .dbge 0 2), ([0x5DC8, 2], .dblt 0 2), ([0x5EC8, 2], .dbgt 0 2),
    ([0x5FCF, 2], .dble 7 2)].all reads = true := by decide

theorem test_decode_div : [([0x82D8], Instr.divu (.postinc 0) 1), ([0x81FC, 0xFFFD], .divs (.imm 0xFFFD) 0)].all reads = true := by
  decide

theorem test_decode_eor_exg_ext : [([0xB358], Instr.eor .w 1 (.postinc 0)), ([0x0A78, 0x00FF, 0x2000], .eori .w 0xFF (.absW 0x2000)),
    ([0x0A7C, 0x2000], .eoriToSr 0x2000), ([0xC141], .exgDd 0 1), ([0xC149], .exgAa 0 1), ([0xC189], .exgDa 0 1),
    ([0x4881], .extW 1), ([0x48C1], .extL 1)].all reads = true := by decide

/-- The indexed and the long absolute modes (R62, R96). -/
theorem test_decode_modes : [([0xD070, 0x98FE], Instr.addEaDn .w (.index 0 ⟨true, 1, true, 0, 0xFE⟩) 0),
    ([0xD07B, 0x1002], .addEaDn .w (.pcIndex ⟨false, 1, false, 0, 2⟩) 0),
    ([0xD079, 0x0001, 0x2000], .addEaDn .w (.absL 0x12000) 0)].all reads = true := by decide

/-- K7, K13, K25, K31, K43, K44, K54, K61, K62, K63 of 95_test_vectors.md. -/
theorem test_decode_rejects : [(0xC180, .notInSpec), (0xD008, DecodeError.illegalInstruction), (0x023C, .notInSpec),
    (0x083C, .illegalInstruction), (0x4AFC, .illegalInstruction), (0x4E71, .notInSpec), (0xE1C0, .notInSpec),
    (0xA000, .lineA), (0xFFFF, .lineF), (0xD07D, .illegalInstruction)].all rejects = true := by decide

/-- The host's numbering: the second word of ANDI to SR is bits 31 to 16. -/
theorem test_table_word : decodeTableWord 32 0xF8FF027C = some (.andiToSr 0xF8FF) ∧
    decodeTableWord 16 0x027C = some (.andiToSr 0) := by decide

/-! ## Steps -/

/-- The flags X, N, Z, V, C from five bits. -/
def bits (w : BitVec 5) : Flags := ⟨w.getLsbD 4, w.getLsbD 3, w.getLsbD 2, w.getLsbD 1, w.getLsbD 0⟩

/-- The machine of the vectors, before its program and data: supervisor mode, mask 7, flags clear. -/
def base : State := { State.reset with pc := 0x1000, ssp := 0x8000, usp := 0x6000 }

/-- The same in user mode. -/
def user : State := base.setSr (Status.ofWord 0)

/-- The same with exceptions that end the run (R301). -/
def faulting : State := { base with params := { base.params with trapModel := .fault } }

/-- The words of an instruction at `pc`. -/
def withCode (ws : List Word16) (s : State) : State := s.writeBytes s.pc (ws.flatMap wordBytes)

/-- A step on the instruction answers a next state with the property. -/
def ran (ws : List Word16) (s : State) (p : State → Bool) : Bool :=
  match step (withCode ws s) with
  | .next t => p t
  | _ => false

/-- A step on the instruction ends in the fault. -/
def faulted (ws : List Word16) (s : State) (p : Fault → Bool) : Bool :=
  match step (withCode ws s) with
  | .fault f => p f
  | _ => false

/-- V4, ABCD D1,D0. -/
theorem test_abcd_registers :
    ran [0xC101] (((base.setD 0 0x99).setD 1 0x99).setFlags (bits 0b10100)) (fun t =>
      t.dreg 0 == 0x99 && t.sr.x && !t.sr.z && t.sr.c && t.pc == 0x1002) = true := by decide

/-- V9, ABCD -(A7),-(A7). -/
theorem test_abcd_memory_on_a7 :
    ran [0xCF0F] (((base.writeA 7 0x8004).writeBytes 0x8000 [0x10]).writeBytes 0x8002 [0x05]) (fun t =>
      t.readA 7 == 0x8000 && t.readBytes 0x8000 1 == some [0x15] && t.readBytes 0x8002 1 == some [0x05] &&
      !t.sr.x && !t.sr.z && !t.sr.c && t.pc == 0x1002) = true := by decide

/-- V13, ADD.W D1,D0. -/
theorem test_add_word_wraps :
    ran [0xD041] ((base.setD 0 0x18000).setD 1 0x8000) (fun t =>
      t.dreg 0 == 0x10000 && t.flags == bits 0b10111 && t.pc == 0x1002) = true := by decide

/-- V27, ADD.W -2(A0,A1.L),D0. -/
theorem test_add_indexed_by_address_register :
    ran [0xD070, 0x98FE] ((((base.writeA 0 0x2000).writeA 1 0x10).setD 0 0).writeBytes 0x200E [0x00, 0x99]) (fun t =>
      t.dreg 0 == 0x99 && t.flags == bits 0b00000 && t.pc == 0x1004) = true := by decide

/-- V39, ADD.L D0,(A0). -/
theorem test_add_to_memory_big_endian :
    ran [0xD190] (((base.writeA 0 0x2000).setD 0 1).writeBytes 0x2000 [0x00, 0x00, 0xFF, 0xFF]) (fun t =>
      t.readBytes 0x2000 4 == some [0x00, 0x01, 0x00, 0x00] && t.readBytes 0x2001 1 == some [0x01] &&
      t.readBytes 0x2002 1 == some [0x00] && t.flags == bits 0b00000 && t.pc == 0x1002) = true := by decide

/-- V47, ADDA.W (A0)+,A0. -/
theorem test_adda_source_is_destination :
    ran [0xD0D8] ((base.writeA 0 0x2000).writeBytes 0x2000 [0x00, 0x10]) (fun t =>
      t.readA 0 == 0x2012 && t.flags == bits 0b00000 && t.pc == 0x1002) = true := by decide

/-- V48, ADDA.L A0,A0. -/
theorem test_adda_long :
    ran [0xD1C8] (base.writeA 0 0x1234) (fun t =>
      t.readA 0 == 0x2468 && t.flags == bits 0b00000 && t.pc == 0x1002) = true := by decide

/-- V52, ADDI.W #$0005,8(A0). -/
theorem test_addi_immediate_before_displacement :
    ran [0x0668, 0x0005, 0x0008] ((base.writeA 0 0x2000).writeBytes 0x2008 [0x00, 0x10]) (fun t =>
      t.readBytes 0x2008 2 == some [0x00, 0x15] && t.flags == bits 0b00000 && t.pc == 0x1006) = true := by decide

/-- V53, ADDQ.W #8,D3. -/
theorem test_addq_zero_means_8 :
    ran [0x5043] (base.setD 3 0xFFF9) (fun t =>
      t.dreg 3 == 1 && t.flags == bits 0b10001 && t.pc == 0x1002) = true := by decide

/-- V56, ADDQ.W #1,A0. -/
theorem test_addq_to_address_register :
    ran [0x5248] ((base.writeA 0 0xFFFF).setFlags (bits 0b11111)) (fun t =>
      t.readA 0 == 0x10000 && t.flags == bits 0b11111 && t.pc == 0x1002) = true := by decide

/-- V60, ADDX.L D1,D0. -/
theorem test_addx_zero_keeps_z :
    ran [0xD181] (((base.setD 0 0).setD 1 0xFFFFFFFF).setFlags (bits 0b10100)) (fun t =>
      t.dreg 0 == 0 && t.flags == bits 0b10101 && t.pc == 0x1002) = true := by decide

/-- V66, ADDX.B -(A0),-(A0). -/
theorem test_addx_memory_one_register :
    ran [0xD108] ((((base.writeA 0 0x2002).writeBytes 0x2000 [0x70]).writeBytes 0x2001 [0x10]).setFlags (bits 0b00100)) (fun t =>
      t.readA 0 == 0x2000 && t.readBytes 0x2000 1 == some [0x80] && t.readBytes 0x2001 1 == some [0x10] &&
      t.flags == bits 0b01010 && t.pc == 0x1002) = true := by decide

/-- V70, AND.B (A0),D0. -/
theorem test_and_to_register :
    ran [0xC010] (((base.writeA 0 0x2001).setD 0 0x123456FF).writeBytes 0x2001 [0x81]) (fun t =>
      t.dreg 0 == 0x12345681 && t.flags == bits 0b01000 && t.pc == 0x1002) = true := by decide

/-- V73, AND.B D0,-(A0). -/
theorem test_and_to_memory_predecrement :
    ran [0xC120] (((base.writeA 0 0x2001).setD 0 0xF).writeBytes 0x2000 [0xF0]) (fun t =>
      t.readBytes 0x2000 1 == some [0x00] && t.readA 0 == 0x2000 && t.flags == bits 0b00100 &&
      t.pc == 0x1002) = true := by decide

/-- V76, ANDI.W #$FF00,(A0)+. -/
theorem test_andi_memory_postincrement :
    ran [0x0258, 0xFF00] ((base.writeA 0 0x2000).writeBytes 0x2000 [0x12, 0x34]) (fun t =>
      t.readBytes 0x2000 2 == some [0x12, 0x00] && t.readA 0 == 0x2002 && t.flags == bits 0b00000 &&
      t.pc == 0x1004) = true := by decide

/-- V78, ANDI #$DFFF,SR. -/
theorem test_andi_to_sr_leaves_supervisor_mode :
    ran [0x027C, 0xDFFF] ((base.setSr (Status.ofWord 0x2700)).writeA 7 0x8000) (fun t =>
      t.sr.word == 0x0700 && t.readA 7 == 0x6000 && t.ssp == 0x8000 && t.flags == bits 0b00000 &&
      t.pc == 0x1004) = true := by decide

/-- V83, ASL.B #2,D0. -/
theorem test_asl_immediate_overflow :
    ran [0xE500] (base.setD 0 0xC1) (fun t =>
      t.dreg 0 == 4 && t.flags == bits 0b10011 && t.pc == 0x1002) = true := by decide

/-- V91, ASL.B D1,D0. -/
theorem test_asl_register_beyond_width :
    ran [0xE320] ((base.setD 0 1).setD 1 9) (fun t =>
      t.dreg 0 == 0 && t.flags == bits 0b00110 && t.pc == 0x1002) = true := by decide

/-- V97, ASL (A0). -/
theorem test_asl_memory :
    ran [0xE1D0] ((base.writeA 0 0x2000).writeBytes 0x2000 [0xC0, 0x00]) (fun t =>
      t.readBytes 0x2000 2 == some [0x80, 0x00] && t.flags == bits 0b11001 && t.pc == 0x1002) = true := by decide

/-- V102, ASR.W #8,D0. -/
theorem test_asr_immediate_8 :
    ran [0xE040] (base.setD 0 0x8000) (fun t =>
      t.dreg 0 == 0xFF80 && t.flags == bits 0b01000 && t.pc == 0x1002) = true := by decide

/-- V104, ASR.L D1,D0. -/
theorem test_asr_register_beyond_width :
    ran [0xE2A0] ((base.setD 0 0x80000000).setD 1 0x28) (fun t =>
      t.dreg 0 == 0xFFFFFFFF && t.flags == bits 0b11001 && t.pc == 0x1002) = true := by decide

/-- V110, ASR -(A0). -/
theorem test_asr_memory :
    ran [0xE0E0] ((base.writeA 0 0x2002).writeBytes 0x2000 [0x80, 0x02]) (fun t =>
      t.readBytes 0x2000 2 == some [0xC0, 0x01] && t.readA 0 == 0x2000 && t.flags == bits 0b01000 &&
      t.pc == 0x1002) = true := by decide

/-- V116, BTST D1,#$80. -/
theorem test_btst_dynamic_immediate :
    ran [0x033C, 0x0080] (base.setD 1 7) (fun t =>
      t.flags == bits 0b00000 && t.pc == 0x1004) = true := by decide

/-- V117, BTST #3,$10(PC). -/
theorem test_btst_static_pc_relative :
    ran [0x083A, 0x0003, 0x0010] (base.writeBytes 0x1014 [0x08]) (fun t =>
      t.flags == bits 0b00000 && t.pc == 0x1006) = true := by decide

/-- V120, BSET D0,D0. -/
theorem test_bset_dynamic_one_register :
    ran [0x01C0] (base.setD 0 4) (fun t =>
      t.dreg 0 == 0x14 && t.flags == bits 0b00100 && t.pc == 0x1002) = true := by decide

/-- V118, BSET #7,(A0). -/
theorem test_bset_static_memory :
    ran [0x08D0, 0x0007] ((base.writeA 0 0x2001).writeBytes 0x2001 [0x01]) (fun t =>
      t.readBytes 0x2001 1 == some [0x81] && t.flags == bits 0b00100 && t.pc == 0x1004) = true := by decide

/-- V122, BCLR D1,(A0)+. -/
theorem test_bclr_dynamic_modulo_8 :
    ran [0x0398] (((base.writeA 0 0x2000).setD 1 0x10C).writeBytes 0x2000 [0xFF]) (fun t =>
      t.readBytes 0x2000 1 == some [0xEF] && t.readA 0 == 0x2001 && t.flags == bits 0b00000 &&
      t.pc == 0x1002) = true := by decide

/-- V121, BCLR #31,D0. -/
theorem test_bclr_static_register :
    ran [0x0880, 0x001F] (base.setD 0 0xFFFFFFFF) (fun t =>
      t.dreg 0 == 0x7FFFFFFF && t.flags == bits 0b00000 && t.pc == 0x1004) = true := by decide

/-- V125, BCHG D1,-(A7). -/
theorem test_bchg_dynamic_on_a7 :
    ran [0x0367] (((base.writeA 7 0x8000).setD 1 0).writeBytes 0x7FFE [0xFE]) (fun t =>
      t.readBytes 0x7FFE 1 == some [0xFF] && t.readA 7 == 0x7FFE && t.flags == bits 0b00100 &&
      t.pc == 0x1002) = true := by decide

/-- V123, BCHG #4,D0. -/
theorem test_bchg_static_register :
    ran [0x0840, 0x0004] (base.setD 0 0) (fun t =>
      t.dreg 0 == 0x10 && t.flags == bits 0b00100 && t.pc == 0x1004) = true := by decide

/-- V132, BRA.W *-$7FFE. -/
theorem test_bra_word_backwards :
    ran [0x6000, 0x8000] (base.setPc 0x9000) (fun t =>
      t.pc == 0x1002 && t.flags == bits 0b00000) = true := by decide

/-- V140, BSR.W *+$0102. -/
theorem test_bsr_word :
    ran [0x6100, 0x0100] (base.writeA 7 0x8000) (fun t =>
      t.readA 7 == 0x7FFC && t.readBytes 0x7FFC 4 == some [0x00, 0x00, 0x10, 0x04] && t.pc == 0x1102 &&
      t.flags == bits 0b00000) = true := by decide

/-- V138, BHI.S *+4. -/
theorem test_bhi_not_taken :
    ran [0x6202] (base.setFlags (bits 0b00001)) (fun t =>
      t.pc == 0x1002 && t.flags == bits 0b00001) = true := by decide

/-- V127, BNE *-2. -/
theorem test_bne_taken :
    ran [0x66FC] base (fun t =>
      t.pc == 0xFFE && t.flags == bits 0b00000) = true := by decide

/-- V130, BEQ.W *+$0102. -/
theorem test_beq_word_not_taken :
    ran [0x6700, 0x0100] base (fun t =>
      t.pc == 0x1004 && t.flags == bits 0b00000) = true := by decide

/-- V136, BGT.S *+4. -/
theorem test_bgt_taken :
    ran [0x6E02] (base.setFlags (bits 0b01010)) (fun t =>
      t.pc == 0x1004 && t.flags == bits 0b01010) = true := by decide

/-- V137, BLE.S *+4. -/
theorem test_ble_taken :
    ran [0x6F02] (base.setFlags (bits 0b01000)) (fun t =>
      t.pc == 0x1004 && t.flags == bits 0b01000) = true := by decide

/-- V158, CLR.B $2001.W. -/
theorem test_clr_byte_absolute :
    ran [0x4238, 0x2001] (base.writeBytes 0x2000 [0xAB, 0xCD]) (fun t =>
      t.readBytes 0x2000 2 == some [0xAB, 0x00] && t.flags == bits 0b00100 && t.pc == 0x1004) = true := by decide

/-- V164, CMP.B D1,D0. -/
theorem test_cmp_byte_overflow :
    ran [0xB001] ((base.setD 0 0x7F).setD 1 0xFF) (fun t =>
      t.dreg 0 == 0x7F && t.flags == bits 0b01011 && t.pc == 0x1002) = true := by decide

/-- V170, CMPA.W #$8000,A0. -/
theorem test_cmpa_word_sign_extends :
    ran [0xB0FC, 0x8000] (base.writeA 0 0x8000) (fun t =>
      t.readA 0 == 0x8000 && t.flags == bits 0b00001 && t.pc == 0x1004) = true := by decide

/-- V172, CMPA.L A1,A0. -/
theorem test_cmpa_long_overflow :
    ran [0xB1C9] ((base.writeA 0 0x7FFFFFFF).writeA 1 0x80000000) (fun t =>
      t.readA 0 == 0x7FFFFFFF && t.flags == bits 0b01011 && t.pc == 0x1002) = true := by decide

/-- V173, CMPI.B #$80,D0. -/
theorem test_cmpi_byte :
    ran [0x0C00, 0x0080] (base.setD 0 0x7F) (fun t =>
      t.dreg 0 == 0x7F && t.flags == bits 0b01011 && t.pc == 0x1004) = true := by decide

/-- V179, CMPM.L (A0)+,(A0)+. -/
theorem test_cmpm_one_register :
    ran [0xB188] (((base.writeA 0 0x2000).writeBytes 0x2000 [0x00, 0x00, 0x00, 0x01]).writeBytes 0x2004 [0x00, 0x00, 0x00, 0x03]) (fun t =>
      t.readA 0 == 0x2008 && t.flags == bits 0b00000 && t.pc == 0x1002) = true := by decide

/-- V185, DBT D0,*-2. -/
theorem test_dbt_does_nothing :
    ran [0x50C8, 0xFFFC] (base.setD 0 5) (fun t =>
      t.dreg 0 == 5 && t.pc == 0x1004 && t.flags == bits 0b00000) = true := by decide

/-- V183, DBRA D0,*-2. -/
theorem test_dbf_low_word_only :
    ran [0x51C8, 0xFFFC] (base.setD 0 0x50000) (fun t =>
      t.dreg 0 == 0x5FFFF && t.pc == 0x1004 && t.flags == bits 0b00000) = true := by decide

/-- V188, DBNE D1,*+$12. -/
theorem test_dbne_branches :
    ran [0x56C9, 0x0010] ((base.setD 1 3).setFlags (bits 0b00100)) (fun t =>
      t.dreg 1 == 2 && t.pc == 0x1012 && t.flags == bits 0b00100) = true := by decide

/-- V189, DBLT D0,*-2. -/
theorem test_dblt_stops :
    ran [0x5DC8, 0xFFFC] ((base.setD 0 2).setFlags (bits 0b01000)) (fun t =>
      t.dreg 0 == 2 && t.pc == 0x1004 && t.flags == bits 0b01000) = true := by decide

/-- V205, DIVU D1,D0. -/
theorem test_divu_largest_quotient :
    ran [0x80C1] ((base.setD 0 0xFFFE0001).setD 1 0xFFFF) (fun t =>
      t.dreg 0 == 0xFFFF && t.flags == bits 0b01000 && t.pc == 0x1002) = true := by decide

/-- V208, DIVU D1,D0. -/
theorem test_divu_remainder :
    ran [0x80C1] ((base.setD 0 5).setD 1 0xFFFF) (fun t =>
      t.dreg 0 == 0x50000 && t.flags == bits 0b00100 && t.pc == 0x1002) = true := by decide

/-- V194, DIVS D1,D0. -/
theorem test_divs_both_negative :
    ran [0x81C1] ((base.setD 0 0xFFFFFFF9).setD 1 0xFFFE) (fun t =>
      t.dreg 0 == 0xFFFF0003 && t.flags == bits 0b00000 && t.pc == 0x1002) = true := by decide

/-- V196, DIVS D1,D0. -/
theorem test_divs_zero_quotient :
    ran [0x81C1] ((base.setD 0 0xFFFFFFFF).setD 1 2) (fun t =>
      t.dreg 0 == 0xFFFF0000 && t.flags == bits 0b00100 && t.pc == 0x1002) = true := by decide

/-- V214, EOR.W D0,(A0)+. -/
theorem test_eor_memory :
    ran [0xB158] (((base.writeA 0 0x2000).setD 0 0xFFFF).writeBytes 0x2000 [0xFF, 0xFF]) (fun t =>
      t.readBytes 0x2000 2 == some [0x00, 0x00] && t.readA 0 == 0x2002 && t.flags == bits 0b00100 &&
      t.pc == 0x1002) = true := by decide

/-- V217, EORI.W #$00FF,$2000.W. -/
theorem test_eori_two_extensions :
    ran [0x0A78, 0x00FF, 0x2000] (base.writeBytes 0x2000 [0x00, 0xFF]) (fun t =>
      t.readBytes 0x2000 2 == some [0x00, 0x00] && t.flags == bits 0b00100 && t.pc == 0x1006) = true := by decide

/-- V220, EORI #$FFFF,SR. -/
theorem test_eori_to_sr_unused_bits :
    ran [0x0A7C, 0xFFFF] ((base.setSr (Status.ofWord 0x2700)).writeA 7 0x8000) (fun t =>
      t.sr.word == 0x801F && t.readA 7 == 0x6000 && t.flags == bits 0b11111 && t.pc == 0x1004) = true := by decide

/-- V222, EXG D0,D1. -/
theorem test_exg_data :
    ran [0xC141] (((base.setD 0 0x11111111).setD 1 0x22222222).setFlags (bits 0b10101)) (fun t =>
      t.dreg 0 == 0x22222222 && t.dreg 1 == 0x11111111 && t.flags == bits 0b10101 &&
      t.pc == 0x1002) = true := by decide

/-- V223, EXG A0,A1. -/
theorem test_exg_address :
    ran [0xC149] ((base.writeA 0 0x2000).writeA 1 0x3000) (fun t =>
      t.readA 0 == 0x3000 && t.readA 1 == 0x2000 && t.flags == bits 0b00000 && t.pc == 0x1002) = true := by decide

/-- V226, EXG D0,A7. -/
theorem test_exg_stack_pointer :
    ran [0xC18F] ((base.writeA 7 0x8000).setD 0 0x7000) (fun t =>
      t.dreg 0 == 0x8000 && t.readA 7 == 0x7000 && t.flags == bits 0b00000 && t.pc == 0x1002) = true := by decide

/-- V227, EXT.W D0. -/
theorem test_ext_word :
    ran [0x4880] ((base.setD 0 0x12340080).setFlags (bits 0b10011)) (fun t =>
      t.dreg 0 == 0x1234FF80 && t.flags == bits 0b11000 && t.pc == 0x1002) = true := by decide

/-- V230, EXT.L D0. -/
theorem test_ext_long :
    ran [0x48C0] (base.setD 0 0x12348000) (fun t =>
      t.dreg 0 == 0xFFFF8000 && t.flags == bits 0b01000 && t.pc == 0x1002) = true := by decide

/-! ## The sixteen conditions (section 2.12 of 95_test_vectors.md) -/

/-- One row: the flags N, Z, V, C, and the values of the 16 conditions in the order of their codes. -/
def row (p : BitVec 4 × BitVec 16) : Bool :=
  [.t, .f, .hi, .ls, .cc, .cs, .ne, .eq, .vc, .vs, .pl, .mi, .ge, .lt, .gt, .le].map (fun c => condHolds c (bits (p.1.setWidth 5))) ==
    (List.range 16).map fun k => p.2.getLsbD (15 - k)

theorem test_conditions :
    [(0b0000, 0b1010101010101010), (0b0001, 0b1001011010101010), (0b0010, 0b1010101001100101),
      (0b0011, 0b1001011001100101), (0b0100, 0b1001100110101001), (0b0101, 0b1001010110101001),
      (0b0110, 0b1001100101100101), (0b0111, 0b1001010101100101), (0b1000, 0b1010101010010101),
      (0b1001, 0b1001011010010101), (0b1010, 0b1010101001011010), (0b1011, 0b1001011001011010),
      (0b1100, 0b1001100110010101), (0b1101, 0b1001010110010101), (0b1110, 0b1001100101011001),
      (0b1111, 0b1001010101011001)].all row = true := by decide


/-! ## Parameters, stops, exceptions -/

/-- V86: `SHIFT_IMM0 = zero`. -/
theorem test_asl_count_zero :
    ran [0xE140] (({ base with params := { base.params with shiftImm0 := .zero } }.setD 0 0xFF).setFlags (bits 0b10000))
      (fun t => t.dreg 0 == 0xFF && t.flags == bits 0b10000 && t.pc == 0x1002) = true := by decide

/-- V101: `ASR_FILL = zero`. -/
theorem test_asr_fill_zero :
    ran [0xE200] ({ base with params := { base.params with asrFill := .zero } }.setD 0 0x12345681)
      (fun t => t.dreg 0 == 0x12345640 && t.sr.x && !t.sr.n && !t.sr.z && t.sr.c) = true := by decide

/-- V143: CHK in range. -/
theorem test_chk_in_range :
    ran [0x4181] (((base.setD 0 5).setD 1 10).setFlags (bits 0b10000))
      (fun t => t.dreg 0 == 5 && t.sr.x && t.pc == 0x1002) = true := by decide

/-- V150: 0 is above the bound -1; the saved `pc` is that of the next instruction. -/
theorem test_chk_negative_bound :
    faulted [0x4181] (faulting.setD 1 0xFFFF) (fun f =>
      match f with
      | .raised .chk spc t => spc == 0x1002 && !t.sr.x && !t.sr.n
      | _ => false) = true := by decide

/-- V200: a zero divisor. -/
theorem test_divs_zero :
    faulted [0x81C1] (((faulting.setD 0 0x12345678).setD 1 0xABCD0000).setFlags (bits 1)) (fun f =>
      match f with
      | .raised .zeroDivide spc t => spc == 0x1002 && t.dreg 0 == 0x12345678 && !t.sr.x && !t.sr.c
      | _ => false) = true := by decide

/-- V204: an unsigned quotient that does not fit. -/
theorem test_divu_overflow :
    ran [0x80C1] ((base.setD 0 0xFFFFFFF9).setD 1 2) (fun t =>
      t.dreg 0 == 0xFFFFFFF9 && !t.sr.x && t.sr.v && !t.sr.c && t.pc == 0x1002) = true := by decide

/-- V80: ANDI to SR in user mode. -/
theorem test_andi_to_sr_in_user_mode :
    faulted [0x027C, 0xFFFF] (faulting.setSr (Status.ofWord 0x0700)) (fun f =>
      match f with
      | .raised .privilegeViolation spc t => spc == 0x1000 && t.sr.word == 0x0700
      | _ => false) = true := by decide

/-- V37 and V141: a word at an odd address, read and written. -/
theorem test_address_errors :
    faulted [0xD050] (base.writeA 0 0x2001) (· == .addressError 0x2001 .read) = true ∧
      faulted [0x6110] (base.writeA 7 0x8001) (· == .addressError 0x7FFD .write) = true := by decide

/-- V10, V28, V126: what a launch may refuse. -/
theorem test_refusals :
    (match step (withCode [0xC101] ({ base with params := { base.params with bcdInvalid := .refuse } }.setD 0 10)) with
      | .refused r => r == .nonDecimalDigit | _ => false) = true ∧
    (match step (withCode [0xD070, 0x1204] { base with params := { base.params with briefBits := .refuse } }) with
      | .refused r => r == .extensionWord | _ => false) = true ∧
    (match step (withCode [0x08F8, 0x0000, 0x1000] { base with params := { base.params with codeRegion := [⟨0x1000, 6⟩] } }) with
      | .refused r => r == .writeIntoProgram 0x1000 | _ => false) = true := by decide

/-- Line 1010 under vectored exceptions (R310, R314): vector 10, the frame below `SSP`. -/
theorem test_line_a_entry :
    ran [0xA000] (base.writeBytes 0x28 [0, 0, 0x40, 0]) (fun t =>
      t.pc == 0x4000 && t.ssp == 0x7FFA && t.sr.word == 0x2700 &&
      t.readBytes 0x7FFA 6 == some [0x27, 0x00, 0, 0, 0x10, 0]) = true := by decide

/-- An entry from user mode: the supervisor stack takes the frame, `USP` is as before. -/
theorem test_entry_from_user_mode :
    ran [0x4AFC] (user.writeBytes 0x10 [0, 0, 0x40, 0]) (fun t =>
      t.pc == 0x4000 && t.ssp == 0x7FFA && t.usp == 0x6000 && t.sr.word == 0x2000 &&
      t.readBytes 0x7FFA 6 == some [0, 0, 0, 0, 0x10, 0]) = true := by decide

/-- The trace exception after an instruction (R309): vector 9, the new `pc` saved, `T` cleared. -/
theorem test_trace_entry :
    ran [0x48C0] ((base.setSr (Status.ofWord 0xA700)).writeBytes 0x24 [0, 0, 0x40, 0]) (fun t =>
      t.pc == 0x4000 && t.sr.word == 0x2704 && t.readBytes 0x7FFA 6 == some [0xA7, 0x04, 0, 0, 0x10, 2]) = true := by decide

/-- A request already presented becomes unmasked by ANDI to SR (R323): level 2 under mask 7, then mask 0. -/
theorem test_interrupt_unmasked :
    let s : State :=
      ({ base with params := { base.params with interrupts := .external }, irq := ⟨2, .autovector⟩ }.setSr
        (Status.ofWord 0x2700)).writeBytes 0x68 [0, 0, 0x50, 0]
    ran [0x48C0] s (fun t => t.pc == 0x1002) = true ∧
    ran [0x027C, 0xF8FF] s (fun t => t.pc == 0x5000 && t.sr.word == 0x2200 &&
      t.readBytes 0x7FFA 6 == some [0x20, 0, 0, 0, 0x10, 4]) = true := by decide

/-- `RESET_MODEL = launch_state` (R350): user mode, no trace, mask 0 unless supplied. -/
theorem test_launch_state :
    (match State.start { Launch.empty with params := Params.specDefault, pc := 0x1000, ssp := some 0x8000 } with
      | .next t => t.pc == 0x1000 && t.sr.word == 0 && t.ssp == 0x8000
      | _ => false) = true := by decide

/-- An interrupt of level 3 above mask 2 (R321), vector 27; one of level 2 waits. -/
theorem test_interrupt :
    let s : State :=
      ({ base with params := { base.params with interrupts := .external }, irqFeed := [⟨3, .autovector⟩] }.setSr
        (Status.ofWord 0x2200)).writeBytes 0x6C [0, 0, 0x50, 0]
    ran [0x48C0] s (fun t => t.pc == 0x5000 && t.sr.word == 0x2304 &&
      t.readBytes 0x7FFA 6 == some [0x22, 0x04, 0, 0, 0x10, 2]) = true ∧
    ran [0x48C0] { s with irqFeed := [⟨2, .autovector⟩] } (fun t => t.pc == 0x1002 && t.irq.level == 2) = true := by decide

/-- The reset procedure (R351). -/
theorem test_reset_procedure :
    ran [0x48C0] ({ user with resetLine := true }.writeBytes 0 [0, 0, 0x70, 0, 0, 0, 0x20, 0]) (fun t =>
      t.ssp == 0x7000 && t.pc == 0x2000 && t.sr.word == 0x2700 && t.usp == 0x6000 && !t.resetLine) = true := by decide

/-- The first instruction after reset, placed by `withFetchWord`: ADDI.W #5,D0. -/
theorem test_first_instruction :
    (match step (State.reset.withFetchWord 32 0x00050640) with
      | .next t => t.dreg 0 == 5 && t.pc == 4
      | _ => false) = true := by decide

/-! ## Witnesses: what every statement's hypotheses ask for, met together -/

theorem witness_EncodeThenDecode : Instr.wf (.cmpi .l 0xFFFFFFFF (.index 7 ⟨true, 7, true, 7, 0xFF⟩)) = true := by decide

theorem witness_DecodeThenEncode : decodeWords [0xD070, 0x98FE, 0x4E71] =
    .ok (.addEaDn .w (.index 0 ⟨true, 1, true, 0, 0xFE⟩) 0, [0x4E71]) := rfl

/-- The hypotheses about a step on an instruction at `pc`. -/
def atPc (i : Instr) (s : State) : Bool :=
  i.wf && !s.resetLine && s.params.haltAddr != some s.pc && aligned s.pc 2 && allBytes s.isMapped s.pc i.ilen &&
    s.readBytes s.pc i.ilen == some (i.encode.flatMap wordBytes) && (!isPrivileged i || s.sr.s)

theorem witness_StepRunsDecodedInstruction :
    atPc (.cmpi .l 5 (.absL 0x12345678)) (withCode [0x0CB9, 0, 5, 0x1234, 0x5678] user) = true ∧
      atPc (.andiToSr 0xFFFF) (withCode [0x027C, 0xFFFF] base) = true ∧
      ({ base with params := { base.params with haltAddr := some base.pc } } : State).params.haltAddr = some base.pc ∧
      base.resetLine = false := by decide

theorem witness_UnassignedWordsTrap :
    [(0xA000, 10), (0xAFFF, 10), (0xF000, 15), (0xFFFF, 15), (0x4AFC, 4)].all (fun p : Word16 × Nat =>
      (withCode [p.1] base).load 0x1000 .w == some p.1 && p.1.toNat / 4096 == p.2) = true := by decide

/-- Words of R119: ADD with `mode = 111`, `reg = 101` (b); ADD.B with `An`, ADDI.L and BSET to an immediate, CLR of `An`, ADDQ.B
of `An`, CHK of `An` (c). Words that are not: NOP, MOVEP, ANDI to CCR. -/
theorem witness_UnassignedWordsTrap_illegal :
    illegalWord 0xD07D ∧ illegalWord 0xD008 ∧ illegalWord 0x06BC ∧ illegalWord 0x08FC ∧ illegalWord 0x4248 ∧
      illegalWord 0x5008 ∧ illegalWord 0x4188 :=
  ⟨.inr (.inl ⟨.addEaDn .w (.absW 0) 0, 5, rfl, by decide, rfl⟩), .inr (.inr ⟨.addEaDn .b (.an 0) 0, rfl, rfl⟩),
    .inr (.inr ⟨.addi .l 0 (.imm 0), rfl, rfl⟩), .inr (.inr ⟨.bsetStatic 0 (.imm 0), rfl, rfl⟩),
    .inr (.inr ⟨.clr .w (.an 0), rfl, rfl⟩), .inr (.inr ⟨.addq .b 0 (.an 0), rfl, rfl⟩),
    .inr (.inr ⟨.chk (.an 0) 0, rfl, rfl⟩)⟩

theorem witness_PrivilegedInUserMode :
    user.sr.s = false ∧ (withCode [0x027C] user).load 0x1000 .w = some 0x027C ∧
      (withCode [0x0A7C] user).load 0x1000 .w = some 0x0A7C ∧ user.params.haltAddr ≠ some 0x1000 := by decide

theorem witness_TraceEndsTheRun :
    let s := withCode [0x48C0] (faulting.setSr (Status.ofWord 0xA700))
    atPc (.extL 0) s = true ∧ s.params.trapModel = .fault ∧ s.sr.t = true ∧
      (match exec (.extL 0) s with | .next _ => true | _ => false) = true := by decide

theorem witness_RaiseEndsTheRun : faulting.params.trapModel = .fault := rfl

/-- A frame fits, and the vector can be read with the frame stored. -/
theorem witness_VectoredEntry :
    base.Inv ∧ base.params.trapModel = .vectored ∧ base.params.frameFormat = .mc68000 ∧ base.frameFits = true ∧
      (base.framed 0x1000).load (base.params.vectorBase + BitVec.ofNat 32 (4 * Exc.vector .lineF)) .l = some 0 := by
  unfold State.Inv; decide

theorem witness_FormatWordFrame :
    let s := { base with params := { base.params with frameFormat := .formatWord } }
    let u := (s.stored (s.ssp - 2) .w (BitVec.ofNat 16 (4 * Exc.vector .chk))).setSsp (s.ssp - 2)
    s.storable (s.ssp - 2) .w = true ∧ u.frameFits = true ∧ (u.framed 0x1000).load 24 .l = some 0 := by decide

theorem witness_LongFrame :
    let s := { base with params := { base.params with frameFormat := .mc68020 } }
    let u := ((s.stored (s.ssp - 4) .l 0x1000).stored (s.ssp - 6) .w 0x2018).setSsp (s.ssp - 6)
    s.storable (s.ssp - 4) .l = true ∧ s.storable (s.ssp - 6) .w = true ∧ u.frameFits = true ∧
      (u.framed 0x1002).load (BitVec.ofNat 32 (4 * Exc.vector .chk)) .l = some 0 ∧
      (u.framed 0x1002).load (BitVec.ofNat 32 (4 * Exc.vector .zeroDivide)) .l = some 0 ∧
      (u.framed 0x1002).load (BitVec.ofNat 32 (4 * Exc.vector .trace)) .l = some 0 := by decide

/-- An exception of the MC68020's 8-byte frame. -/
theorem witness_LongFrame_others :
    let s := { base with params := { base.params with frameFormat := .mc68020 } }
    let u := (s.stored (s.ssp - 2) .w (BitVec.ofNat 16 (4 * Exc.vector .lineA))).setSsp (s.ssp - 2)
    Exc.lineA ≠ .chk ∧ Exc.lineA ≠ .zeroDivide ∧ Exc.lineA ≠ .trace ∧ s.storable (s.ssp - 2) .w = true ∧
      u.frameFits = true ∧ (u.framed 0x1000).load (BitVec.ofNat 32 (4 * Exc.vector .lineA)) .l = some 0 := by decide

/-- Each clause: an odd stack pointer; the last byte of the saved program counter, the first byte of the saved status not
mapped; a frame that fits and a vector not mapped, a vector at an odd address. -/
theorem witness_EntryDoubleFaults :
    let within := fun (m : List Region) (base : Long) =>
      ({ Sys2Proof.Tests.base with params := { Sys2Proof.Tests.base.params with mapped := m, vectorBase := base } } : State)
    base.params.trapModel = .vectored ∧ base.params.frameFormat = .mc68000 ∧ (base.setSsp 0x8001).ssp.toNat % 2 = 1 ∧
      (within [⟨0, 0x7FFF⟩] 0).isMapped ((within [⟨0, 0x7FFF⟩] 0).ssp - 4 + BitVec.ofNat 32 3) = false ∧
      (within [⟨0x7FFC, 4⟩] 0).storable ((within [⟨0x7FFC, 4⟩] 0).ssp - 4) .l = true ∧
      (within [⟨0x7FFC, 4⟩] 0).isMapped ((within [⟨0x7FFC, 4⟩] 0).ssp - 6 + BitVec.ofNat 32 0) = false ∧
      (within [⟨0x7FFA, 6⟩] 0).frameFits = true ∧ (within [⟨0x7FFA, 6⟩] 0).isMapped (24 + BitVec.ofNat 32 3) = false ∧
      (within [⟨0, 0x8000⟩] 1).frameFits = true ∧
      ((within [⟨0, 0x8000⟩] 1).params.vectorBase + BitVec.ofNat 32 (4 * Exc.vector .chk)).toNat % 2 = 1 := by decide

/-- A level just above the mask, level 7 arriving under mask 7; a level equal to the mask, and level 7 already there. -/
theorem witness_InterruptEntry :
    let s : State := { base with params := { base.params with interrupts := .external }, irqFeed := [⟨7, .spurious⟩] }
    let u : State := { s.setSr (Status.ofWord 0x2600) with irqFeed := [⟨6, .autovector⟩] }
    (s.frameFits = true ∧ (s.framed s.pc).load 96 .l = some 0 ∧ (7 : BitVec 3) ≠ s.irq.level) ∧
      (u.setSr (Status.ofWord 0x2500)).sr.i.toNat < 6 ∧ 6 ≤ u.sr.i.toNat ∧
      ({ s with irq := ⟨7, .spurious⟩ } : State).irq.level = 7 := by decide

/-- A request already presented, the feed empty, above the mask and at it; an 8-byte frame. -/
theorem witness_InterruptEntry_presented :
    let s : State :=
      { base.setSr (Status.ofWord 0x2300) with
        params := { base.params with interrupts := .external, frameFormat := .formatWord }, irq := ⟨4, .autovector⟩ }
    let u := (s.stored (s.ssp - 2) .w (BitVec.ofNat 16 (4 * s.irq.vectorNumber))).setSsp (s.ssp - 2)
    s.irqFeed = [] ∧ s.sr.i.toNat < s.irq.level.toNat ∧ s.params.frameFormat ≠ .mc68000 ∧
      s.storable (s.ssp - 2) .w = true ∧ u.frameFits = true ∧ (u.framed s.pc).load (BitVec.ofNat 32 (4 * 28)) .l = some 0 ∧
      s.irq.level.toNat ≤ (s.setSr (Status.ofWord 0x2400)).sr.i.toNat := by decide

/-- A launch that supplies some registers and bytes, and one for the reset procedure. -/
def launch : Launch :=
  { Launch.empty with
    params := { Params.mc68000 with resetModel := .launchState, memFill := none }
    pc := 0x1000, sr := some 0xFFFF, d := (Launch.empty.d).set 1 (some 5), usp := some 0x6000
    mem := [(3, 0x70), (7, 0x10), (3, 0x70)] }

theorem witness_ResetState :
    launch.params.resetModel = .launchState ∧ launch.sr = some 0xFFFF ∧ Launch.empty.sr = none ∧ launch.d[(1 : Fin 8)] = some 5 ∧
      launch.usp = some 0x6000 ∧ (State.launched launch).readByte 3 = some 0x70 ∧ (State.launched launch).readByte 4 = none ∧
      launch.mem.all (fun e => e.1 == 3 && e.2 == 0x70 || e.1 == 7) = true ∧
      (State.launched launch).phys 7 ≠ (State.launched launch).phys 3 ∧
      (State.launched launch).phys 3 ≠ (State.launched launch).phys 4 ∧
      (State.launched launch).phys 7 ≠ (State.launched launch).phys 4 ∧
      Launch.empty.params.resetModel = .vectorFetch ∧ (State.launched .empty).load 0 .l = some 0 ∧
      (State.launched .empty).load 4 .l = some 0 :=
  ⟨rfl, rfl, rfl, rfl, rfl, by decide, by decide, by decide, by decide, by decide, by decide, rfl, by decide, by decide⟩

/-- Both vectors read, and an odd `pc` in the second; the last byte of the first, of the second not mapped. -/
theorem witness_ResetProcedure :
    let s : State := { user with resetLine := true }
    let within := fun m => ({ s with params := { s.params with mapped := m } } : State)
    s.load 0 .l = some 0 ∧ s.load 4 .l = some 0 ∧ (s.writeBytes 7 [1]).load 4 .l = some 1 ∧
      s.params.haltAddr ≠ some 1 ∧ (within [⟨0, 3⟩]).isMapped (BitVec.ofNat 32 3) = false ∧
      (within [⟨0, 7⟩]).load 0 .l = some 0 ∧ (within [⟨0, 7⟩]).isMapped (4 + BitVec.ofNat 32 3) = false := by decide

theorem witness_StepKeepsInvariant :
    (withCode [0x48C0] base).Inv ∧ ran [0x48C0] base (fun _ => true) = true := by
  unfold State.Inv; decide

theorem witness_StepKeepsProgram :
    let s : State := { base with params := { base.params with codeRegion := [⟨0x1000, 2⟩] } }
    ran [0x48C0] s (fun t => t.isCode 0x1001 && !t.isCode 0x1002) = true := by decide

theorem witness_UserModeIsKept :
    let s : State := { user with params := faulting.params }
    s.params.trapModel = .fault ∧ s.params.interrupts = .none ∧ s.resetLine = false ∧ s.sr.s = false ∧
      ran [0xC141] s (fun _ => true) = true := by decide

theorem witness_StepKeepsParameters :
    ran [0x48C0] base (fun t => t.params.vectorBase == 0) = true ∧
      ran [0x48C0] { base with resetLine := true } (fun t => !t.resetLine) = true := by decide

theorem witness_PartialRegisterWrite : Size.b.bits ≤ 8 ∧ Size.l.bits ≤ 32 ∧ (1 : RegNum) ≠ 0 := by decide

theorem witness_StoreThenLoad :
    base.Inv ∧ (match base.memWrite 0xFFFFFFFE .w 0x1234 with | .next _ => true | _ => false) = true := by
  unfold State.Inv; decide

theorem witness_StoreFrame :
    (match base.memWrite 0x2000 .l 0x12345678 with | .next _ => true | _ => false) = true ∧
      (∀ j < 4, base.phys 0x2004 ≠ base.phys (0x2000 + BitVec.ofNat 32 j)) := by decide

/-- Each clause: odd; the last byte not mapped; mapped, and the last byte the program's; a byte that holds no value; a fetch
that faults. -/
theorem witness_AccessFaults :
    let s : State := { base with params := { base.params with mapped := [⟨0, 0x3002⟩], codeRegion := [⟨0x1003, 1⟩] } }
    (0x2001 : Long).toNat % 2 = 1 ∧ (∃ j < 4, s.isMapped (0x3000 + BitVec.ofNat 32 j) = false) ∧
      (∀ j < 4, s.isMapped (0x1000 + BitVec.ofNat 32 j) = true) ∧ (∃ j < 4, s.isCode (0x1000 + BitVec.ofNat 32 j) = true) ∧
      (∀ c ∈ ({ s with params := { s.params with memFill := none } } : State).mem, c.1 ≠ s.phys 0x1000) ∧
      s.isMapped 0x3002 = false ∧ (s.setPc 0x1001).params.haltAddr ≠ some (s.setPc 0x1001).pc ∧ s.resetLine = false ∧
      (match (s.setPc 0x1001).fetch16 0x1001 with | .fault f => f == .addressError 0x1001 .fetch | _ => false) = true := by
  decide

/-- The second extension word of ADDI `#5,8(A0)` is not mapped, the first one is. -/
theorem witness_AccessFaults_extension :
    let i : Instr := .addi .w 5 (.disp 0 8)
    let c := withCode i.encode base
    let s : State := { c with params := { c.params with mapped := [⟨0, 0x1004⟩] } }
    i.wf = true ∧ s.resetLine = false ∧ s.params.haltAddr ≠ some s.pc ∧ s.load s.pc .w = some i.opcode ∧
      isPrivileged i = false ∧ 2 < i.words ∧ s.load (s.pc + 2) .w = some 5 ∧
      (match s.fetch16 (s.pc + 4) with | .fault f => f == .busError 0x1004 .fetch | _ => false) = true := by
  decide

/-- What stops the accesses of an instruction, for a test. -/
def stopped (i : Instr) (s : State) : Option Fault × Option Refusal :=
  match s.accessAll (s.accesses i) with
  | .next _ => (none, none)
  | .fault f => (some f, none)
  | .refused r => (none, some r)

/-- An odd read; a destination in `CODE_REGION`; the second operand of CMPM not mapped; BSR with an odd stack pointer; and
a brief extension word that the launch refuses. -/
theorem witness_AccessFaults_operands :
    let s : State :=
      { ((((base.writeA 0 0x2001).writeA 1 0x1000).writeA 2 0x3000).writeA 7 0x2003) with
        params := { base.params with mapped := [⟨0, 0x3000⟩], codeRegion := [⟨0x1000, 4⟩] } }
    stopped (.addEaDn .w (.ind 0) 0) s = (some (.addressError 0x2001 .read), none) ∧
      stopped (.addDnEa .w 0 (.ind 1)) s = (none, some (.writeIntoProgram 0x1000)) ∧
      stopped (.cmpm .w 1 2) s = (some (.busError 0x3000 .read), none) ∧
      stopped (.bsr (.byte 2)) s = (some (.addressError 0x1FFF .write), none) ∧ s.branchRefused (.byte 2) = false ∧
      ({ s with params := Params.specDefault } : State).briefRefused (.index 0 ⟨false, 1, false, 1, 0⟩) = true := by
  decide

theorem witness_EffectiveAddresses :
    (⟨true, 7, true, 0, 0xFF⟩ : BriefExt).scale = 0 ∧ (⟨true, 7, true, 7, 0xFF⟩ : BriefExt).scale ≠ 0 ∧
      base.params.briefBits = .ignore ∧ Params.specDefault.briefBits = .refuse := by decide

/-- Operands of every kind that can be read, and destinations that can be written: the hypotheses of AddToDataRegister,
AddToAddressRegister, AndToDataRegister, CompareForms, BitTest. -/
theorem witness_operands :
    [EA.dn 1, .an 1, .ind 1, .postinc 7, .predec 1, .disp 1 0x7FFE, .index 1 ⟨false, 0, false, 7, 0xFE⟩, .absW 0x8000,
      .absL 0xFFFFFF, .pcDisp 0xFFFF, .pcIndex ⟨true, 0, true, 0, 1⟩, .imm 0xFF].all
      (fun ea => base.operand .b ea (base.extAt 0) == some (if ea == .imm 0xFF then 0xFF else 0)) = true ∧
      (base.eaUpdate .w (.postinc 7)).operand .w (.postinc 7) (base.extAt 0) = some 0 := by decide

theorem witness_AddToAddressRegister :
    base.params.addaCcr = .unaffected ∧ ({ base.params with addaCcr := .perSource } : Params).addaCcr = .perSource := by
  decide

/-- Destinations: the hypotheses of AddToMemory, AddImmediate, LogicToDestination, AslForms, AsrForms, BitChange,
ClearOperand. -/
theorem witness_destinations :
    [EA.ind 1, .postinc 7, .predec 1, .disp 1 0x7FFE, .index 1 ⟨false, 0, false, 7, 0xFE⟩, .absW 0x8000,
      .absL 0xFFFFFE].all (fun ea => ea.kind.isMemAlterable && ea.kind.isMem && base.canPut .w ea (base.extAt 0) &&
        base.operand .w ea (base.extAt 0) == some 0 && base.canPut .b ea (base.extAt 1)) = true ∧
      base.canPut .l (.dn 7) (base.extAt 2) = true ∧ base.operand .l (.dn 7) (base.extAt 2) = some 0 := by decide

theorem witness_AslForms_AsrForms :
    base.params.shiftImm0 ≠ .refuse ∧ ({ base.params with shiftImm0 := .refuse } : Params).shiftImm0 = .refuse ∧
      (8 : Nat) = (if (0 : Fin 8) = 0 then (if base.params.shiftImm0 = .zero then 0 else 8) else 0) := by decide

theorem witness_AddExtended :
    let u := base.eaUpdate .l (.predec 0)
    base.operand .l (.predec 0) (base.extAt 0) = some 0 ∧ u.operand .l (.predec 0) (base.extAt 0) = some 0 ∧
      u.canPut .l (.predec 0) (base.extAt 0) = true := by decide

theorem witness_AbcdRegisters :
    isBcd ((base.setD 0 0x99).readD 0 .b) = true ∧ base.params.bcdInvalid = .draw ∧
      isBcd ((base.setD 0 0x9A).readD 0 .b) = false ∧ isBcd ((base.setD 0 0xA9).readD 0 .b) = false := by decide

theorem witness_AbcdMemory :
    let s := base.writeBytes 0x1FFF [0x99, 0xA0]
    let r := s.writeA 0 0x2000
    let u := r.eaUpdate .b (.predec 0)
    r.operand .b (.predec 0) (r.extAt 0) = some 0x99 ∧ u.operand .b (.predec 1) (r.extAt 0) = some 0 ∧
      u.canPut .b (.predec 1) (r.extAt 0) = true ∧ isBcd 0x99 = true ∧ isBcd 0 = true ∧ isBcd 0xA0 = false := by decide

theorem witness_StatusImmediate : base.sr.s = true := rfl

theorem witness_BitChange_BitTest :
    (EA.dn 3 = .dn 3 ∧ (base.dreg 3).toNat = 0) ∧ EAKind.isData .imm = true ∧ EAKind.imm ≠ .dn ∧
      base.operand .b (.imm 0x80) (base.extAt 1) = some 0x80 := by decide

theorem witness_ConditionalBranches :
    base.params.branchFF = .baseline ∧ Disp.byte 0xFE ≠ .byte 0xFF ∧ Params.specDefault.branchFF = .refuse := by decide

theorem witness_BranchToSubroutine :
    base.storable (base.readA 7 - 4) .l = true ∧ base.params.branchFF = .baseline ∧ Params.specDefault.branchFF = .refuse := by
  decide

theorem witness_DecrementAndBranch :
    condHolds .eq (bits 0b00100) = true ∧ condHolds .eq (bits 0b11011) = false ∧ condHolds .t (bits 0) = true ∧
      condHolds .f (bits 0b11111) = false := by decide

/-- At both bounds, one below 0, one above the bound. -/
theorem witness_CheckBounds :
    let s := ((base.setD 0 0x7FFF).setD 1 0xFFFF).setD 2 1
    s.operand .w (.dn 0) (s.extAt 0) = some 0x7FFF ∧ 0 ≤ (s.readD 3 .w).toInt ∧ (s.readD 0 .w).toInt ≤ (0x7FFF : BitVec 16).toInt ∧
      (s.readD 1 .w).toInt < 0 ∧ s.operand .w (.dn 3) (s.extAt 0) = some 0 ∧ (0 : BitVec 16).toInt < (s.readD 2 .w).toInt := by
  decide

/-- The largest quotients that fit and the smallest that do not. -/
theorem witness_DivideResults_ZeroDivisor :
    let s := ((base.setD 0 0x0000FFFF).setD 1 1).setD 2 0xFFFF8000
    s.operand .w (.dn 1) (s.extAt 0) = some 1 ∧ (s.dreg 0).toNat / 1 ≤ 0xFFFF ∧ -32768 ≤ (s.dreg 2).toInt.tdiv 1 ∧
      0xFFFF < ((s.setD 0 0x10000).dreg 0).toNat / 1 ∧ 32767 < ((s.setD 0 0x8000).dreg 0).toInt.tdiv 1 ∧
      ((s.setD 0 0xFFFF7FFF).dreg 0).toInt.tdiv 1 < -32768 ∧ s.operand .w (.dn 3) (s.extAt 0) = some 0 := by decide

/-- Instructions that run, take no exception and store, or store nothing; one that takes its exception. -/
theorem witness_FrameOfRegisters_FrameOfMemory_FrameOfStatus_FrameOfPlatform :
    let runs := fun (i : Instr) (s : State) => match exec i s with
      | .next _ => true
      | _ => false
    runs (.addDnEa .l 0 (.predec 1)) base = true ∧ storeTo (.addDnEa .l 0 (.predec 1)) base = some (0xFFFFFFFC, 4) ∧
      trapOf (.addDnEa .l 0 (.predec 1)) base = none ∧ runs (.bsr (.byte 2)) base = true ∧
      runs (.cmp .w (.ind 0) 1) base = true ∧ storeTo (.cmp .w (.ind 0) 1) base = none ∧
      keepsFlags (.exgDd 0 1) base = true ∧ onlyZ (.bsetDyn 0 (.dn 1)) = true ∧ keepsX (.extW 0) = true ∧
      runs (.andiToSr 0) user = true ∧ trapOf (.andiToSr 0) user = some .privilegeViolation := by decide

end Sys2Proof.Tests
end

section
/-! PROOFS. What one instruction leaves unchanged, said once for every instruction (`exec_ended`); what a step keeps
(`step_kept`); and the two statements of 00_scope.md that follow. -/

namespace Sys2Proof.Machine

open Sys2Proof

/-! ## The shared operations keep a frame -/

namespace Frame

variable {dl al : List RegNum} {dest : Option (Long × Nat)} {s u : State}

/-- Reading an operand changes at most the register its mode updates (R74). -/
theorem readEA (h : Frame dl al dest s u) {sz : Size} {ea : EA} {ext : Long} {p : BitVec sz.bits × State}
    (hp : u.readEA sz ea ext = .next p) (hn : ∀ n ∈ ea.sideA, n ∈ al) : Frame dl al dest s p.2 := by
  rw [(readEA_eq_next.mp hp).2]
  exact h.eaUpdate sz hn

/-- A read-modify-write changes at most its destination, its mode's register and the flags (R76). -/
theorem modifyEA (h : Frame dl al dest s u) {sz : Size} {ea : EA} {own : Nat} {t : State}
    {f : BitVec sz.bits → BitVec sz.bits × Flags} (ht : u.modifyEA sz ea (u.extAt own) f = .next t)
    (hd : ∀ n ∈ ea.destD, n ∈ dl) (hn : ∀ n ∈ ea.sideA, n ∈ al) (hm : dest = u.memDest sz ea own) :
    Frame dl al dest s t := by
  obtain ⟨d, -, hc, rfl⟩ := modifyEA_eq_next.mp ht
  exact (h.put _ hc hd hn fun hk => by rw [hm, State.memDest, if_pos hk]).setFlags _

/-- A read-modify-write of memory writes no data register. -/
theorem modifyMem (h : Frame dl al dest s u) {sz : Size} {ea : EA} {own : Nat} {t : State}
    {f : BitVec sz.bits → BitVec sz.bits × Flags} (ht : u.modifyMem sz ea (u.extAt own) f = .next t)
    (hn : ∀ n ∈ ea.sideA, n ∈ al) (hm : dest = u.memDest sz ea own) : Frame dl al dest s t := by
  obtain ⟨hk, -⟩ := modifyMem_eq_next.mp ht
  refine h.modifyEA (by rwa [modifyEA_mem hk]) (fun n hd => ?_) hn hm
  cases ea <;> simp [EA.destD] at hd
  cases hk

theorem memWrite (h : Frame dl al dest s u) {a : Long} {sz : Size} {v : BitVec sz.bits} {t : State}
    (ht : u.memWrite a sz v = .next t) (hd : dest = some (a, sz.bytes)) : Frame dl al dest s t := by
  obtain ⟨hs, rfl⟩ := memWrite_eq_next.mp ht
  exact h.stored v hd hs

/-! ## The operations that single instructions use keep it too -/

theorem addToA (h : Frame dl al dest s u) {n : RegNum} (hn : n ∈ al) (src : Long) :
    Frame dl al dest s (u.addToA n src) := by
  unfold State.addToA State.addaFlags
  split
  · exact h.writeA hn _
  · exact (h.writeA hn _).setFlags _
  · exact ((h.writeA hn _).setFlags _).drawn _

theorem bcdSum (h : Frame dl al dest s u) {x y : Byte} {p : (Byte × Bool) × State} (hp : u.bcdSum x y = .next p) :
    Frame dl al dest s p.2 := by
  unfold State.bcdSum at hp
  split at hp
  · cases hp; exact h
  · split at hp <;> cases hp
    exact h.drawn 2

theorem bcdFlags (h : Frame dl al dest s u) (r : Byte) (c : Bool) : Frame dl al dest s (u.bcdFlags r c) :=
  (h.setFlags _).drawn 2

theorem bitOp (h : Frame dl al dest s u) {new : Bool → Bool} {raw : Long} {ea : EA} {own : Nat} {t : State}
    (ht : u.bitOp new raw ea (u.extAt own) = .next t) (hd : ∀ n ∈ ea.destD, n ∈ dl) (hn : ∀ n ∈ ea.sideA, n ∈ al)
    (hm : dest = u.memDest .b ea own) : Frame dl al dest s t := by
  unfold State.bitOp at ht
  split at ht
  · cases ht; exact (h.setD (hd _ (by simp [EA.destD])) _).setFlags _
  · exact h.modifyMem ht hn hm

theorem bitTest (h : Frame dl al dest s u) {raw : Long} {ea : EA} {ext : Long} {t : State}
    (ht : u.bitTest raw ea ext = .next t) (hn : ∀ n ∈ ea.sideA, n ∈ al) : Frame dl al dest s t := by
  unfold State.bitTest at ht
  split at ht
  · cases ht; exact h.setFlags _
  · obtain ⟨p, hp, ht⟩ := andThen_eq_next.mp ht
    cases ht; exact (h.readEA hp hn).setFlags _

theorem branchIf (h : Frame dl al dest s u) {taken : Bool} {d : Disp} {k : Nat} {t : State}
    (ht : u.branchIf taken d k = .next t) : Frame dl al dest s t := by
  unfold State.branchIf at ht
  split at ht
  · cases ht
  · split at ht <;> cases ht <;> exact h.setPc _

theorem decBranch (h : Frame dl al dest s u) {cond : Cond} {n : RegNum} {d16 : BitVec 16} {k : Nat} {t : State}
    (ht : u.decBranch cond n d16 k = .next t) (hn : cond = .t ∨ n ∈ dl) : Frame dl al dest s t := by
  unfold State.decBranch at ht
  split at ht
  · cases ht; exact h.advance k
  · rename_i hc
    have hn : n ∈ dl := hn.resolve_left fun e => hc (by rw [e]; rfl)
    dsimp only at ht
    split at ht <;> cases ht <;> exact (h.writeD hn .w _).setPc _

theorem aslD (h : Frame dl al dest s u) (sz : Size) (c : Nat) {d : RegNum} (hd : d ∈ dl) :
    Frame dl al dest s (u.aslD sz c d) := (h.writeD hd sz _).setFlags _

theorem asrDrawn (h : Frame dl al dest s u) (c : Nat) : Frame dl al dest s (u.asrDrawn c) := by
  unfold State.asrDrawn
  split
  · exact h.drawn 1
  · exact h

theorem asrD (h : Frame dl al dest s u) (sz : Size) (c : Nat) {d : RegNum} (hd : d ∈ dl) :
    Frame dl al dest s (u.asrD sz c d) := ((h.writeD hd sz _).setFlags _).asrDrawn c

end Frame

/-! ## How an instruction ends -/

/-- How an instruction that answers a next state has ended: it has completed within its footprint, or has written all of
`SR` as ANDI and EORI to SR do, or has taken the exception `trapOf` names from a state `u` that its operand's mode, the
flags and the free values alone have changed. -/
inductive Ended (i : Instr) (s t : State) : Prop
  | completed (htrap : trapOf i s = none) (hsr : writesSr i = false)
      (hf : Frame i.destD i.destA (storeTo i s) s t)
  | wroteSr (htrap : trapOf i s = none) (hsr : writesSr i = true) (hs : s.sr.s = true) (w : BitVec 16)
      (ht : t = (s.setSr (Status.ofWord w)).advance i.ilen)
  | trapped (e : Exc) (spc at_ : Long) (u : State) (htrap : trapOf i s = some e) (hf : Frame [] i.destA none s u)
      (hr : raise e spc at_ u = .next t)

theorem execChk_ended {ea : EA} {n : RegNum} {s t : State} (h : execChk ea n s = .next t) :
    Ended (.chk ea n) s t := by
  obtain ⟨p, hp, h⟩ := andThen_eq_next.mp h
  have hf {dl : List RegNum} : Frame dl ea.sideA none s p.2 := Frame.refl.readEA hp fun _ hn => hn
  obtain ⟨ho, hu⟩ := readEA_eq_next.mp hp
  have hd : p.2.readD n .w = s.readD n .w := readD_congr (by simp [hu]) n .w
  have htrap : trapOf (.chk ea n) s = if chkOut (s.readD n .w) p.1 then some .chk else none := by simp [trapOf, ho]
  simp only [hd] at h
  split at h
  · next hv => exact .trapped .chk _ _ _ (by simp [htrap, chkOut, hv]) ((hf.setFlags _).drawn 3) h
  · split at h
    · next hv => exact .trapped .chk _ _ _ (by simp [htrap, chkOut, hv]) ((hf.setFlags _).drawn 3) h
    · next h0 hb =>
      cases h
      exact .completed (by simp [htrap, chkOut] at *; omega) rfl (((hf.setFlags _).drawn 4).advance _)

/-- The common end of DIVU and DIVS: a zero divisor, an overflow, a result (R265, R267). -/
theorem division_ended {i : Instr} {ea : EA} {n : RegNum} {s t : State} {p : BitVec 16 × State} {k : Nat}
    {zero big : Prop} [Decidable zero] [Decidable big] {r q : BitVec 16} (hi : i = .divu ea n ∨ i = .divs ea n)
    (hp : s.readEA .w ea (s.extAt 0) = .next p) (hz : zero ↔ p.1 = 0)
    (h : (if zero then p.2.zeroDivide k else if big then .next (p.2.divOverflow.advance k)
      else .next ((p.2.divResult n r q).advance k)) = .next t) : Ended i s t := by
  have hf {dl : List RegNum} : Frame dl i.destA none s p.2 :=
    Frame.refl.readEA hp fun _ hn => by rcases hi with rfl | rfl <;> exact hn
  have hd : n ∈ i.destD := by rcases hi with rfl | rfl <;> exact List.mem_singleton_self n
  have hs : storeTo i s = none := by rcases hi with rfl | rfl <;> rfl
  have hw : writesSr i = false := by rcases hi with rfl | rfl <;> rfl
  have htrap : trapOf i s = if p.1 = 0 then some .zeroDivide else none := by
    rcases hi with rfl | rfl <;> simp [trapOf, (readEA_eq_next.mp hp).1]
  split at h
  · next h0 => exact .trapped .zeroDivide _ _ _ (by rw [htrap, if_pos (hz.mp h0)]) ((hf.setFlags _).drawn 3) h
  · next h0 =>
    refine .completed (by rw [htrap, if_neg (mt hz.mpr h0)]) hw (hs ▸ ?_)
    split at h <;> cases h
    · exact ((hf.setFlags _).drawn 2).advance k
    · exact ((hf.setD hd _).setFlags _).advance k

theorem execDivu_ended {ea : EA} {n : RegNum} {s t : State} (h : execDivu ea n s = .next t) :
    Ended (.divu ea n) s t := by
  obtain ⟨p, hp, h⟩ := andThen_eq_next.mp h
  exact division_ended (.inl rfl) hp (BitVec.toNat_inj (y := 0)) h

theorem execDivs_ended {ea : EA} {n : RegNum} {s t : State} (h : execDivs ea n s = .next t) :
    Ended (.divs ea n) s t := by
  obtain ⟨p, hp, h⟩ := andThen_eq_next.mp h
  exact division_ended (.inr rfl) hp (BitVec.toInt_inj (y := 0)) h

theorem writeSr_ended {i : Instr} {w : BitVec 16} {s t : State} (hi : writesSr i = true)
    (htrap : trapOf i s = if s.sr.s then none else some .privilegeViolation)
    (h : s.writeSr w i.ilen = .next t) : Ended i s t := by
  unfold State.writeSr at h
  split at h
  · next hs => cases h; exact .wroteSr (by rw [htrap, if_pos hs]) hi hs w rfl
  · next hs => exact .trapped _ _ _ s (by rw [htrap, if_neg hs]) .refl h

/-- ABCD in memory: the destination is stored after both predecrements (R132). -/
theorem execAbcdMem_ended {y x : RegNum} {s t : State} (h : execAbcdMem y x s = .next t) :
    Ended (.abcdMem y x) s t := by
  obtain ⟨src, hsrc, h⟩ := andThen_eq_next.mp h
  obtain ⟨da, hda, h⟩ := andThen_eq_next.mp h
  obtain ⟨dst, -, h⟩ := andThen_eq_next.mp h
  obtain ⟨p, hp, h⟩ := andThen_eq_next.mp h
  obtain ⟨u, hu, ⟨⟩⟩ := andThen_eq_next.mp h
  obtain ⟨-, -, rfl⟩ := eaAddr_eq_next.mp hda
  have hs : src.2 = s.eaUpdate .b (.predec y) := (readEA_eq_next.mp hsrc).2
  have hpre : Frame [] [y, x] (storeTo (.abcdMem y x) s) s (src.2.eaUpdate .b (.predec x)) :=
    (Frame.refl.readEA hsrc (by simp [EA.sideA])).eaUpdate .b (by simp [EA.sideA])
  exact .completed rfl rfl ((((hpre.bcdSum hp).memWrite hu (by rw [hs]; rfl)).bcdFlags _ _).advance _)

/-- ADDX in memory: as ABCD (R147). -/
theorem execAddxMem_ended {sz : Size} {y x : RegNum} {s t : State} (h : execAddxMem sz y x s = .next t) :
    Ended (.addxMem sz y x) s t := by
  obtain ⟨p, hp, h⟩ := andThen_eq_next.mp h
  obtain ⟨u, hu, rfl⟩ := thenAdvance_eq_next.mp h
  have hs : p.2 = s.eaUpdate sz (.predec y) := (readEA_eq_next.mp hp).2
  have hsrc : Frame [] [y, x] (storeTo (.addxMem sz y x) s) s p.2 := Frame.refl.readEA hp (by simp [EA.sideA])
  rw [← extAt_eaUpdate s sz (.predec y), ← hs] at hu
  exact .completed rfl rfl ((hsrc.modifyMem hu (by simp [EA.sideA]) (by rw [hs]; rfl)).advance _)

/-- ADDQ: into an address register, or as ADDI (R145). -/
theorem execAddq_ended {sz : Size} {data : Fin 8} {ea : EA} {s t : State} (h : execAddq sz data ea s = .next t) :
    Ended (.addq sz data ea) s t := by
  unfold execAddq at h
  split at h
  · cases h
    exact .completed rfl rfl ((Frame.refl.addToA (List.mem_singleton_self _) _).advance _)
  · obtain ⟨u, hu, rfl⟩ := thenAdvance_eq_next.mp h
    have hn : ∀ n ∈ ea.sideA, n ∈ ea.destA := by cases ea <;> simp [EA.destA, EA.sideA]
    exact .completed rfl rfl ((Frame.refl.modifyEA hu (fun _ hd => hd) hn rfl).advance _)

theorem execClr_ended {sz : Size} {ea : EA} {s t : State} (h : execClr sz ea s = .next t) :
    Ended (.clr sz ea) s t := by
  unfold execClr at h
  split at h
  · cases h
    exact .completed rfl rfl (((Frame.refl.writeD (List.mem_singleton_self _) sz _).setFlags _).advance _)
  · obtain ⟨p, hp, h⟩ := andThen_eq_next.mp h
    obtain ⟨u, hu, ⟨⟩⟩ := andThen_eq_next.mp h
    obtain ⟨hk, -, rfl⟩ := eaAddr_eq_next.mp hp
    exact .completed rfl rfl
      ((((Frame.refl.eaUpdate sz fun _ hn => hn).memWrite hu (if_pos hk)).setFlags _).advance _)

theorem execBsr_ended {d : Disp} {s t : State} (h : execBsr d s = .next t) : Ended (.bsr d) s t := by
  unfold execBsr at h
  split at h
  · cases h
  · obtain ⟨u, hu, ⟨⟩⟩ := andThen_eq_next.mp h
    exact .completed rfl rfl (((Frame.refl.writeA (List.mem_singleton_self _) _).memWrite hu rfl).setPc _)

/-- How every instruction that answers a next state has ended, by the operation its meaning is made of. -/
theorem exec_ended {i : Instr} {s t : State} (h : exec i s = .next t) : Ended i s t := by
  cases i
  case abcdMem => exact execAbcdMem_ended h
  case addxMem => exact execAddxMem_ended h
  case addq => exact execAddq_ended h
  case clr => exact execClr_ended h
  case bsr => exact execBsr_ended h
  case chk => exact execChk_ended h
  case divu => exact execDivu_ended h
  case divs => exact execDivs_ended h
  case andiToSr | eoriToSr => exact writeSr_ended rfl rfl h
  case addEaDn | andEaDn =>
    obtain ⟨p, hp, ⟨⟩⟩ := andThen_eq_next.mp h
    refine .completed rfl rfl (((Frame.writeD ?_ (List.mem_singleton_self _) _ _).setFlags _).advance _)
    exact Frame.refl.readEA hp fun _ hn => hn
  case addaW | addaL =>
    obtain ⟨p, hp, ⟨⟩⟩ := andThen_eq_next.mp h
    refine .completed rfl rfl ((Frame.addToA ?_ (List.mem_cons_self ..) _).advance _)
    exact Frame.refl.readEA hp fun _ => List.mem_cons_of_mem _
  case cmp | cmpaW | cmpaL | cmpi =>
    obtain ⟨p, hp, ⟨⟩⟩ := andThen_eq_next.mp h
    exact .completed rfl rfl (((Frame.refl.readEA hp fun _ hn => hn).setFlags _).advance _)
  case cmpm sz y x =>
    obtain ⟨src, hsrc, h⟩ := andThen_eq_next.mp h
    obtain ⟨dst, hdst, ⟨⟩⟩ := andThen_eq_next.mp h
    have hr {dl : List RegNum} : Frame dl [y, x] none s dst.2 :=
      (Frame.refl.readEA hsrc (by simp [EA.sideA])).readEA hdst (by simp [EA.sideA])
    exact .completed rfl rfl ((hr.setFlags _).advance _)
  case addDnEa | andDnEa | aslMem =>
    obtain ⟨u, hu, rfl⟩ := thenAdvance_eq_next.mp h
    exact .completed rfl rfl ((Frame.refl.modifyMem hu (fun _ hn => hn) rfl).advance _)
  case asrMem =>
    obtain ⟨u, hu, ⟨⟩⟩ := andThen_eq_next.mp h
    exact .completed rfl rfl (((Frame.refl.modifyMem hu (fun _ hn => hn) rfl).asrDrawn 1).advance _)
  case addi | andi | eori | eor =>
    obtain ⟨u, hu, rfl⟩ := thenAdvance_eq_next.mp h
    exact .completed rfl rfl ((Frame.refl.modifyEA hu (fun _ hd => hd) (fun _ hn => hn) rfl).advance _)
  case btstDyn | btstStatic =>
    obtain ⟨u, hu, rfl⟩ := thenAdvance_eq_next.mp h
    exact .completed rfl rfl ((Frame.refl.bitTest hu fun _ hn => hn).advance _)
  case bchgDyn | bchgStatic | bclrDyn | bclrStatic | bsetDyn | bsetStatic =>
    obtain ⟨u, hu, rfl⟩ := thenAdvance_eq_next.mp h
    exact .completed rfl rfl ((Frame.refl.bitOp hu (fun _ hd => hd) (fun _ hn => hn) rfl).advance _)
  case aslImm =>
    dsimp only [exec, execAslImm] at h
    split at h <;> cases h
    exact .completed rfl rfl ((Frame.refl.aslD _ _ (List.mem_singleton_self _)).advance _)
  case asrImm =>
    dsimp only [exec, execAsrImm] at h
    split at h <;> cases h
    exact .completed rfl rfl ((Frame.refl.asrD _ _ (List.mem_singleton_self _)).advance _)
  case aslReg =>
    cases h
    exact .completed rfl rfl ((Frame.refl.aslD _ _ (List.mem_singleton_self _)).advance _)
  case asrReg =>
    cases h
    exact .completed rfl rfl ((Frame.refl.asrD _ _ (List.mem_singleton_self _)).advance _)
  case bra | bhi | bls | bcc | bcs | bne | beq | bvc | bvs | bpl | bmi | bge | blt | bgt | ble =>
    exact .completed rfl rfl (Frame.refl.branchIf h)
  case dbt =>
    dsimp only [exec] at h
    exact .completed rfl rfl (Frame.refl.decBranch h (.inl rfl))
  case dbf | dbhi | dbls | dbcc | dbcs | dbne | dbeq | dbvc | dbvs | dbpl | dbmi | dbge | dblt | dbgt | dble =>
    dsimp only [exec] at h
    exact .completed rfl rfl (Frame.refl.decBranch h (.inr (List.mem_singleton_self _)))
  case abcdReg =>
    obtain ⟨p, hp, ⟨⟩⟩ := andThen_eq_next.mp h
    exact .completed rfl rfl
      ((((Frame.refl.bcdSum hp).writeD (List.mem_singleton_self _) .b _).bcdFlags _ _).advance _)
  case addxReg | extW =>
    cases h
    exact .completed rfl rfl (((Frame.refl.writeD (List.mem_singleton_self _) _ _).setFlags _).advance _)
  case extL =>
    cases h
    exact .completed rfl rfl (((Frame.refl.setD (List.mem_singleton_self _) _).setFlags _).advance _)
  case exgDd x y =>
    cases h
    exact .completed rfl rfl
      (((Frame.refl.setD (List.mem_cons_self ..) _).setD (show y ∈ [x, y] by simp) _).advance _)
  case exgAa x y =>
    cases h
    exact .completed rfl rfl
      (((Frame.refl.writeA (List.mem_cons_self ..) _).writeA (show y ∈ [x, y] by simp) _).advance _)
  case exgDa =>
    cases h
    exact .completed rfl rfl
      (((Frame.refl.setD (List.mem_singleton_self _) _).writeA (List.mem_singleton_self _) _).advance _)

/-- No instruction changes what the platform presents; the status after one that takes an exception is the entry's. -/
theorem Ended.platform {i : Instr} {s t : State} (h : Ended i s t) :
    t.params = s.params ∧ t.irq = s.irq ∧ t.irqFeed = s.irqFeed ∧ t.resetLine = s.resetLine ∧
      (trapOf i s ≠ none → t.sr.s = true ∧ t.sr.t = false ∧ t.sr.i = s.sr.i) := by
  cases h with
  | completed htrap _ hf => exact ⟨hf.params, hf.irq, hf.irqFeed, hf.resetLine, fun h => absurd htrap h⟩
  | wroteSr htrap _ _ w ht =>
    subst ht
    exact ⟨rfl, rfl, rfl, rfl, fun h => absurd htrap h⟩
  | trapped e spc at_ u _ hf hr =>
    obtain ⟨-, he, hsr⟩ := raise_entered hr
    exact ⟨he.params.trans hf.params, he.irq.trans hf.irq, he.irqFeed.trans hf.irqFeed,
      he.resetLine.trans hf.resetLine, fun _ => by simp [hsr, hf.mask]⟩

/-- Settles O60, from how each instruction ends. -/
theorem frameOfPlatform : Obligations.FrameOfPlatform := fun _ _ _ h => (exec_ended h).platform

/-! ## What every step keeps -/

/-- What neither an instruction nor an entry changes: the launch parameters, the invariant, the program (R8, R52, R84). -/
structure Kept (s t : State) : Prop where
  params : t.params = s.params
  inv    : s.Inv → t.Inv
  code   : ∀ b : Long, s.isCode b = true → t.readByte b = s.readByte b

namespace Kept

variable {s t u : State}

theorem refl (s : State) : Kept s s := ⟨rfl, id, fun _ _ => rfl⟩

theorem trans (h : Kept s t) (k : Kept t u) : Kept s u where
  params := k.params.trans h.params
  inv i := k.inv (h.inv i)
  code b hb := (k.code b (by rwa [isCode_congr h.params])).trans (h.code b hb)

theorem of_entered (h : Entered s t) : Kept s t := ⟨h.params, h.inv, h.code⟩

theorem of_frame {dl al : List RegNum} {dest : Option (Long × Nat)} (h : Frame dl al dest s t) : Kept s t :=
  ⟨h.params, h.inv, h.code⟩

theorem of_raise {e : Exc} {spc at_ : Long} (h : raise e spc at_ s = .next t) : Kept s t :=
  of_entered (raise_entered h).2.1

theorem of_ended {i : Instr} (h : Ended i s t) : Kept s t := by
  cases h with
  | completed _ _ hf => exact of_frame hf
  | wroteSr _ _ _ w ht => exact ht ▸ (of_entered (.setSr s _)).trans (of_entered (.setPc _ _))
  | trapped _ _ _ _ _ hf hr => exact (of_frame hf).trans (of_raise hr)

theorem of_reject {e : DecodeError} (h : reject e s = .next t) : Kept s t := by
  cases e with
  | illegalInstruction | lineA | lineF => exact of_raise h
  | notInSpec | truncated => cases h

theorem of_traceIf {t0 : Bool} {at_ : Long} (h : traceIf t0 at_ s = .next t) : Kept s t := by
  cases t0 with
  | false => cases h; exact refl s
  | true => exact of_raise h

theorem of_runWords {ws : List Word16} (h : runWords ws s = .next t) : Kept s t := by
  unfold runWords at h
  split at h
  · exact of_reject h
  · obtain ⟨u, hu, h⟩ := andThen_eq_next.mp h
    exact (of_ended (exec_ended hu)).trans (of_traceIf h)

theorem of_runOne (h : s.runOne = .next t) : Kept s t := by
  obtain ⟨w, -, h⟩ := andThen_eq_next.mp h
  split at h
  · exact of_reject h
  · split at h
    · exact of_raise h
    · obtain ⟨ws, -, h⟩ := andThen_eq_next.mp h
      exact of_runWords h

theorem of_takeIrq (h : s.takeIrq = .next t) : Kept s t := by
  obtain ⟨hp, -, -, -, hi, hc, -⟩ := takeIrq_params h
  exact ⟨hp, hi, hc⟩

end Kept

/-- A step that is not the reset procedure: one instruction, then the interrupt check (R354). -/
theorem step_kept {s t : State} (hl : s.resetLine = false) (h : step s = .next t) : Kept s t := by
  unfold step State.cycle at h
  rw [hl, if_neg Bool.false_ne_true] at h
  split at h
  · cases h; exact .refl s
  · obtain ⟨u, hu, h⟩ := andThen_eq_next.mp h
    exact (Kept.of_runOne hu).trans (.of_takeIrq h)

/-- The state the reset procedure answers (R351). -/
theorem resetEntry_eq_next {s t : State} (h : s.resetEntry = .next t) :
    ∃ sp pc : Long, t =
      { s with
        sr := { s.sr with s := true, t := false, i := 7 }
        ssp := sp
        pc := pc
        resetLine := false
        params := { s.params with vectorBase := 0 } } := by
  obtain ⟨sp, -, h⟩ := andThen_eq_next.mp (asDoubleFault_eq_next.mp h)
  obtain ⟨pc, -, ⟨⟩⟩ := andThen_eq_next.mp h
  exact ⟨sp, pc, rfl⟩

/-- Settles O20: the reset procedure sets `VECTOR_BASE`, and every other step keeps the parameters. -/
theorem stepKeepsParameters : Obligations.StepKeepsParameters := by
  intro s t h
  cases hl : s.resetLine with
  | true =>
    unfold step State.cycle at h
    rw [hl, if_pos rfl] at h
    obtain ⟨sp, pc, rfl⟩ := resetEntry_eq_next h
    rfl
  | false => exact (step_kept hl h).params

end Sys2Proof.Machine
end

section
/-! PROOFS. The statements of 10_state.md about registers, the status register and the flags of an addition (R21, R24, R29,
R33). -/

namespace Sys2Proof.Machine

open Sys2Proof

/-! ## Registers and the status register -/

/-- Settles O21: the rules of a write of a data register, for the bits of the size, the bits above it and the other
registers. -/
theorem partialRegisterWrite : Obligations.PartialRegisterWrite := fun s n sz v =>
  ⟨readD_writeD_self s n sz v, writeD_upper s n sz v, fun _ h => dreg_writeD_other s sz v h.symm⟩

/-- A write of `A[7]` is a write of the stack pointer that `S` selects (R24). -/
theorem writeA_seven (s : State) (v : Long) :
    s.writeA 7 v = if s.sr.s then { s with ssp := v } else { s with usp := v } := rfl

/-- Settles O22, by the mode. -/
theorem stackPointerView : Obligations.StackPointerView := by
  intro s v
  refine ⟨rfl, ?_, ?_, fun m h => readA_writeA_other s v h.symm⟩
  · rw [writeA_seven]; split <;> rfl
  · rw [writeA_seven]; split <;> rfl

/-- The fields of the status register at their bits; a bit that R29 leaves unused is 0. -/
def Status.bit (r : Status) : Nat → Bool
  | 15 => r.t
  | 13 => r.s
  | 10 => r.i.getLsbD 2
  | 9 => r.i.getLsbD 1
  | 8 => r.i.getLsbD 0
  | 4 => r.x
  | 3 => r.n
  | 2 => r.z
  | 1 => r.v
  | 0 => r.c
  | _ => false

theorem word_getLsbD (r : Status) {i : Nat} (h : i < 16) : r.word.getLsbD i = r.bit i := by
  simp only [Status.word, BitVec.getLsbD_setWidth, BitVec.getLsbD_append]
  interval_cases i <;> simp [Status.bit]

/-- A status written from a word has the word's bits, but for the unused ones (R29). -/
theorem bit_ofWord (w : BitVec 16) {i : Nat} (h : i < 16) :
    (Status.ofWord w).bit i = (w.getLsbD i && (0xA71F#16).getLsbD i) := by
  interval_cases i <;> simp [Status.ofWord, Status.bit]

theorem ofWord_word (r : Status) : Status.ofWord r.word = r := by
  have hi : r.word.extractLsb' 8 3 = r.i := by
    apply BitVec.eq_of_getLsbD_eq
    intro j hj
    rw [BitVec.getLsbD_extractLsb', decide_eq_true hj, Bool.true_and, word_getLsbD r (by omega)]
    interval_cases j <;> rfl
  simp only [Status.ofWord, word_getLsbD, hi, Status.bit, Nat.reduceLT]

/-- Settles O23, bit by bit. -/
theorem unusedStatusBits : Obligations.UnusedStatusBits := by
  refine ⟨fun w => BitVec.eq_of_getLsbD_eq fun i h => ?_, ofWord_word⟩
  rw [word_getLsbD _ h, bit_ofWord w h, BitVec.getLsbD_and]
  rfl

/-! ## The flags of an addition -/

/-- The result of an addition (R33) as a sum of vectors. -/
theorem addResult_eq {k : Nat} (s d : BitVec k) (x : Bool) : addResult s d x = d + s + BitVec.ofNat k x.toNat := by
  simp [addResult, BitVec.ofNat_add]

/-- `V`, by the signs of the operands and of the result, says that the signed sum does not fit (R33). -/
theorem addFlags_v_iff {k : Nat} (hk : 0 < k) (s d : BitVec k) (x : Bool) :
    (addFlags s d x).v = true ↔
      d.toInt + s.toInt + x.toNat < -(2 ^ (k - 1)) ∨ 2 ^ (k - 1) ≤ d.toInt + s.toInt + x.toNat := by
  have hpow : 2 ^ k = 2 * 2 ^ (k - 1) := by rw [← Nat.pow_succ']; congr 1; omega
  have hx : x.toNat ≤ 1 := x.toNat_le
  have hcast : ((2 ^ (k - 1) : Nat) : Int) = 2 ^ (k - 1) := by simp
  have hd := d.isLt
  have hs := s.isLt
  simp only [addFlags, addResult, BitVec.msb_eq_decide, BitVec.toInt_eq_msb_cond, BitVec.toNat_ofNat, hpow, ← hcast]
  rw [hpow] at hd hs
  generalize 2 ^ (k - 1) = m at *
  have hmod : (d.toNat + s.toNat + x.toNat) % (2 * m) =
      if d.toNat + s.toNat + x.toNat < 2 * m then d.toNat + s.toNat + x.toNat
      else d.toNat + s.toNat + x.toNat - 2 * m := by
    split
    · next h => exact Nat.mod_eq_of_lt h
    · next h => rw [Nat.mod_eq_sub_mod (by omega), Nat.mod_eq_of_lt (by omega)]
  rw [hmod]
  simp only [Bool.and_eq_true, beq_iff_eq, bne_iff_ne, ne_eq, decide_eq_decide, decide_eq_true_eq]
  -- whether the unsigned sum wraps, and the signs of the operands
  split <;> split <;> split <;> omega

/-- Settles O29: `V` by the signs of operands and result, `C`, `X`, `N` and `Z` as `addFlags` gives them. -/
theorem additionFlags : Obligations.AdditionFlags := by
  intro sz s d x
  have hk : 0 < sz.bits := by cases sz <;> decide
  refine ⟨addFlags_v_iff hk s d x, decide_eq_true_iff, rfl, ?_, ?_⟩
  · rw [← addResult_eq]; rfl
  · rw [← addResult_eq]; exact beq_iff_eq

end Sys2Proof.Machine
end

section
/-! PROOFS. What stops an access, a fetch, a step and an instruction (20_memory.md, R304, R305, R315, R350). -/

namespace Sys2Proof.Machine

open Sys2Proof

/-! ## An access that stops (R55 to R57, R84, R350) -/

theorem memRead_of_accessFault {s : State} {a : Long} {sz : Size} {k : AccessKind} {f : Fault}
    (h : s.accessFault a sz.bytes k = some f) : s.memRead a sz k = .fault f := by
  unfold State.memRead; rw [h]

theorem memWrite_of_accessFault {s : State} {a : Long} {sz : Size} {v : BitVec sz.bits} {f : Fault}
    (h : s.accessFault a sz.bytes .write = some f) : s.memWrite a sz v = .fault f := by
  unfold State.memWrite; rw [h]

theorem aligned_bytes {a : Long} {sz : Size} : aligned a sz.bytes = true ↔ sz = .b ∨ a.toNat % 2 = 0 := by
  cases sz <;> simp [aligned]

theorem accessFault_odd {s : State} {a : Long} {sz : Size} {k : AccessKind} (hsz : sz ≠ .b) (ha : a.toNat % 2 = 1) :
    s.accessFault a sz.bytes k = some (.addressError a k) := by
  have : aligned a sz.bytes = false := by
    rw [← Bool.not_eq_true, aligned_bytes]
    rintro (h | h)
    · exact hsz h
    · omega
  simp [State.accessFault, this]

theorem accessFault_unmapped {s : State} {a : Long} {n : Nat} {k : AccessKind} (ha : aligned a n = true)
    (hm : ∃ j < n, s.isMapped (a + BitVec.ofNat 32 j) = false) : s.accessFault a n k = some (.busError a k) := by
  obtain ⟨j, hj, hm⟩ := hm
  have : allBytes s.isMapped a n = false := by
    rw [← Bool.not_eq_true, allBytes_iff]
    intro h
    simp [h j hj] at hm
  simp [State.accessFault, ha, this]

theorem memWrite_program {s : State} {a : Long} {sz : Size} {v : BitVec sz.bits}
    (hf : s.accessFault a sz.bytes .write = none) (hc : ∃ j < sz.bytes, s.isCode (a + BitVec.ofNat 32 j) = true) :
    s.memWrite a sz v = .refused (.writeIntoProgram a) := by
  obtain ⟨j, hj, hc⟩ := hc
  have : ¬allBytes (fun b => !s.isCode b) a sz.bytes = true := by
    rw [allBytes_iff]
    intro h
    simpa [hc] using h j hj
  unfold State.memWrite
  rw [hf]
  exact if_neg this

/-- A byte that is not listed holds no value where memory has no fill (R350). -/
theorem readByte_unlisted {s : State} {a : Long} (hfill : s.params.memFill = none) (h : ∀ c ∈ s.mem, c.1 ≠ s.phys a) :
    s.readByte a = none := by
  simp [State.readByte, Memory.read, lookup_of_ne h, hfill]

theorem memRead_unset {s : State} {a : Long} {sz : Size} {k : AccessKind}
    (hf : s.accessFault a sz.bytes k = none) (h : ∃ j < sz.bytes, s.readByte (a + BitVec.ofNat 32 j) = none) :
    s.memRead a sz k = .fault (.readOfUnsetState a) := by
  unfold State.memRead
  rw [hf]
  dsimp only
  rw [readBytes_eq_none h]

theorem fetch16_odd {s : State} {a : Long} (ha : a.toNat % 2 = 1) : s.fetch16 a = .fault (.addressError a .fetch) :=
  memRead_of_accessFault (accessFault_odd (sz := .w) (by decide) ha)

theorem fetch16_unmapped {s : State} {a : Long} (ha : a.toNat % 2 = 0)
    (hm : s.isMapped a = false ∨ s.isMapped (a + 1) = false) : s.fetch16 a = .fault (.busError a .fetch) := by
  refine memRead_of_accessFault (accessFault_unmapped (aligned_bytes.mpr (.inr ha)) ?_)
  rcases hm with hm | hm
  · exact ⟨0, by decide, by rwa [add_ofNat_zero]⟩
  · exact ⟨1, by decide, hm⟩

theorem fetch16_of_load {s : State} {a : Long} {w : Word16} (h : s.load a .w = some w) : s.fetch16 a = .next w :=
  memRead_eq_next.mpr h

/-! ## The step, from the instruction at `pc` -/

/-- A step that is neither the reset procedure nor at `HALT_ADDR` (R354). -/
theorem step_eq_runOne {s : State} (hl : s.resetLine = false) (hh : s.params.haltAddr ≠ some s.pc) :
    step s = andThen s.runOne State.takeIrq := by
  unfold step State.cycle
  rw [hl, if_neg Bool.false_ne_true, if_neg hh]

theorem runOne_fetch_fault {s : State} {f : Fault} (h : s.fetch16 s.pc = .fault f) : s.runOne = .fault f := by
  unfold State.runOne
  rw [h, andThen_fault]

/-- An extension word that cannot be fetched, after the operation word of an instruction that the mode may run (R315). -/
theorem runOne_extension_fault {s : State} {w : Word16} {shape : Instr} {f : Fault} (hw : s.fetch16 s.pc = .next w)
    (hs : decodeShape w = .ok shape) (hp : isPrivileged shape = true → s.sr.s = true)
    (hf : s.fetchWords (s.pc + 2) (shape.words - 1) = .fault f) : s.runOne = .fault f := by
  have hpriv : ¬(isPrivileged shape && !s.sr.s) = true := by
    simpa using hp
  unfold State.runOne
  rw [hw, andThen_next, hs]
  dsimp only
  rw [if_neg hpriv, hf, andThen_fault]

end Sys2Proof.Machine
end

section
/-! PROOFS. The operation word alone says how long an instruction is and whether it is privileged, whatever the words after
it hold (R90, R91, R118, R308). -/

namespace Sys2Proof.Machine

open Sys2Proof

/-! ## The lines of the opcode map, at the fields of an instruction -/

theorem decodeOp_line0 (r o m x : Fin 8) (ws : List Word16) :
    decodeOp (opWord 0 r o m x) ws = decodeLine0 r o m x ws := by simp [decodeOp]
theorem decodeOp_line4 (r o m x : Fin 8) (ws : List Word16) :
    decodeOp (opWord 4 r o m x) ws = decodeLine4 r o m x ws := by simp [decodeOp]
theorem decodeOp_line5 (r o m x : Fin 8) (ws : List Word16) :
    decodeOp (opWord 5 r o m x) ws = decodeLine5 r o m x ws := by simp [decodeOp]
theorem decodeOp_line8 (r o m x : Fin 8) (ws : List Word16) :
    decodeOp (opWord 8 r o m x) ws = decodeLine8 r o m x ws := by simp [decodeOp]
theorem decodeOp_lineB (r o m x : Fin 8) (ws : List Word16) :
    decodeOp (opWord 11 r o m x) ws = decodeLineB r o m x ws := by simp [decodeOp]
theorem decodeOp_lineC (r o m x : Fin 8) (ws : List Word16) :
    decodeOp (opWord 12 r o m x) ws = decodeLineC r o m x ws := by simp [decodeOp]
theorem decodeOp_lineD (r o m x : Fin 8) (ws : List Word16) :
    decodeOp (opWord 13 r o m x) ws = decodeLineD r o m x ws := by simp [decodeOp]
theorem decodeOp_lineE (r o m x : Fin 8) (ws : List Word16) :
    decodeOp (opWord 14 r o m x) ws = decodeLineE r o m x ws := by simp [decodeOp]

theorem cat_of_ok {cat : EAKind → Bool} {sz : Size} {ea : EA} (h : ea.ok cat sz = true) : cat ea.kind = true :=
  (Bool.and_eq_true_iff.mp h).1

/-- A destination in memory has a mode that names no register, as the two-register forms have (R101). -/
theorem two_le_mode {ea : EA} (h : ea.kind.isMemAlterable = true) : 2 ≤ ea.mode.val := by
  cases ea
  case dn | an => cases h
  all_goals simp [EA.mode]

theorem mode_ne_one {ea : EA} (h : ea.kind.isDataAlterable = true) : ea.mode.val ≠ 1 := by
  cases ea
  case an => cases h
  all_goals simp [EA.mode]

/-- The immediate destination of ANDI and EORI stands for SR (R110). -/
theorem not_sr_field {ea : EA} (h : ea.kind.isDataAlterable = true) : ¬(ea.mode.val = 7 ∧ ea.reg.val = 4) := by
  cases ea
  case imm => cases h
  all_goals simp [EA.mode, EA.reg]

section
variable {m x : Fin 8} {sz : Size} {ws : List Word16}

theorem decodeLine0_btstDyn (n : RegNum) :
    decodeLine0 n 4 m x ws = withEA (·.isData) eaOutside .b m x (.btstDyn n) ws := rfl

theorem decodeLine0_bchgDyn (n : RegNum) :
    decodeLine0 n 5 m x ws = withEA (·.isDataAlterable) eaOutside .b m x (.bchgDyn n) ws := rfl

theorem decodeLine0_bclrDyn (n : RegNum) :
    decodeLine0 n 6 m x ws = withEA (·.isDataAlterable) eaOutside .b m x (.bclrDyn n) ws := rfl

theorem decodeLine0_bsetDyn (n : RegNum) :
    decodeLine0 n 7 m x ws = withEA (·.isDataAlterable) eaOutside .b m x (.bsetDyn n) ws := rfl

theorem decodeLine0_btstStatic :
    decodeLine0 4 0 m x ws = withBitEA (fun k => k.isData && k != .imm) m x .btstStatic ws := rfl

theorem decodeLine0_bchgStatic :
    decodeLine0 4 1 m x ws = withBitEA (·.isDataAlterable) m x .bchgStatic ws := rfl

theorem decodeLine0_bclrStatic :
    decodeLine0 4 2 m x ws = withBitEA (·.isDataAlterable) m x .bclrStatic ws := rfl

theorem decodeLine0_bsetStatic :
    decodeLine0 4 3 m x ws = withBitEA (·.isDataAlterable) m x .bsetStatic ws := rfl

theorem decodeLine4_chk (n : RegNum) :
    decodeLine4 n 6 m x ws = withEA (·.isData) eaIllegal .w m x (.chk · n) ws := rfl

theorem decodeLine8_divu (n : RegNum) :
    decodeLine8 n 3 m x ws = withEA (·.isData) eaIllegal .w m x (.divu · n) ws := rfl

theorem decodeLine8_divs (n : RegNum) :
    decodeLine8 n 7 m x ws = withEA (·.isData) eaIllegal .w m x (.divs · n) ws := rfl

theorem decodeLineB_cmpaW (n : RegNum) :
    decodeLineB n 3 m x ws = withEA (fun _ => true) eaIllegal .w m x (.cmpaW · n) ws := rfl

theorem decodeLineB_cmpaL (n : RegNum) :
    decodeLineB n 7 m x ws = withEA (fun _ => true) eaIllegal .l m x (.cmpaL · n) ws := rfl

theorem decodeLineD_addaW (n : RegNum) :
    decodeLineD n 3 m x ws = withEA (fun _ => true) eaIllegal .w m x (.addaW · n) ws := rfl

theorem decodeLineD_addaL (n : RegNum) :
    decodeLineD n 7 m x ws = withEA (fun _ => true) eaIllegal .l m x (.addaL · n) ws := rfl

theorem decodeLineE_aslMem :
    decodeLineE 0 7 m x ws = withEA (·.isMemAlterable) eaOutside .w m x .aslMem ws := rfl

theorem decodeLineE_asrMem :
    decodeLineE 0 3 m x ws = withEA (·.isMemAlterable) eaOutside .w m x .asrMem ws := rfl

theorem decodeLine0_andi (h : ¬(m.val = 7 ∧ x.val = 4)) :
    decodeLine0 1 sz.low m x ws = withImmEA (immToCcr sz) sz m x (.andi sz) ws := by
  cases sz with
  | b | l => rfl
  | w => exact if_neg (mt And.right h)

theorem decodeLine0_eori (h : ¬(m.val = 7 ∧ x.val = 4)) :
    decodeLine0 5 sz.low m x ws = withImmEA (immToCcr sz) sz m x (.eori sz) ws := by
  cases sz with
  | b | l => rfl
  | w => exact if_neg (mt And.right h)

theorem decodeLine0_addi : decodeLine0 3 sz.low m x ws = withImmEA eaIllegal sz m x (.addi sz) ws := by
  cases sz <;> rfl

theorem decodeLine0_cmpi : decodeLine0 6 sz.low m x ws = withImmEA eaIllegal sz m x (.cmpi sz) ws := by
  cases sz <;> rfl

theorem decodeLine4_clr : decodeLine4 1 sz.low m x ws = withEA (·.isDataAlterable) eaIllegal sz m x (.clr sz) ws := by
  cases sz <;> rfl

theorem decodeLine5_addq (data : Fin 8) : decodeLine5 data sz.low m x ws =
    withEA (fun k => k.isAlterable && k.fitsSize sz) eaIllegal sz m x (.addq sz data) ws := by
  cases sz <;> rfl

theorem decodeLineB_cmp (n : RegNum) : decodeLineB n sz.low m x ws =
    withEA (·.fitsSize sz) eaIllegal sz m x (.cmp sz · n) ws := by cases sz <;> rfl

theorem decodeLineB_eor (n : RegNum) (h : m.val ≠ 1) : decodeLineB n sz.high m x ws =
    withEA (·.isDataAlterable) eaIllegal sz m x (.eor sz n) ws := by cases sz <;> exact if_neg h

theorem decodeLineC_low (n : RegNum) : decodeLineC n sz.low m x ws =
    withEA (·.isData) eaIllegal sz m x (.andEaDn sz · n) ws := by cases sz <;> rfl

theorem decodeLineC_high (n : RegNum) (h : 2 ≤ m.val) : decodeLineC n sz.high m x ws =
    withEA (·.isMemAlterable) eaIllegal sz m x (.andDnEa sz n) ws := by
  match m, h with
  | 2, _ | 3, _ | 4, _ | 5, _ | 6, _ | 7, _ => cases sz <;> rfl

theorem decodeLineD_low (n : RegNum) : decodeLineD n sz.low m x ws =
    withEA (·.fitsSize sz) eaIllegal sz m x (.addEaDn sz · n) ws := by cases sz <;> rfl

theorem decodeLineD_high (n : RegNum) (h : 2 ≤ m.val) : decodeLineD n sz.high m x ws =
    withEA (·.isMemAlterable) eaIllegal sz m x (.addDnEa sz n) ws := by
  match m, h with
  | 2, _ | 3, _ | 4, _ | 5, _ | 6, _ | 7, _ => cases sz <;> rfl

end

theorem decodeLine5_dbcc (c : Fin 16) (n : RegNum) (d16 : Word16) (ws : List Word16) :
    decodeLine5 (Fin.ofNat 8 (c.val / 2)) (Fin.ofNat 8 (c.val % 2 * 4 + 3)) 1 n (d16 :: ws) =
      .ok (dbccOf c.val n d16, ws) := by
  fin_cases c <;> rfl

/-- The line, the condition and the low byte of a branch's operation word (R106). -/
theorem branch_fields {c k : Nat} (hc : c < 16) (hk : k < 256) :
    opLine (BitVec.ofNat 16 (6 * 4096 + c * 256 + k)) = 6 ∧
      (BitVec.ofNat 16 (6 * 4096 + c * 256 + k)).toNat / 256 % 16 = c ∧
      BitVec.ofNat 8 (BitVec.ofNat 16 (6 * 4096 + c * 256 + k)).toNat = BitVec.ofNat 8 k := by
  refine ⟨?_, ?_, BitVec.eq_of_toNat_eq ?_⟩ <;> simp only [opLine, BitVec.toNat_ofNat] <;> omega

theorem decodeOp_branch_byte {c : Nat} {d8 : BitVec 8} (hc : c < 16) (hd : d8 ≠ 0) (ws : List Word16) :
    decodeOp (BitVec.ofNat 16 (6 * 4096 + c * 256 + d8.toNat)) ws = .ok (branchOf c (.byte d8), ws) := by
  obtain ⟨hline, hcond, hbyte⟩ := branch_fields hc d8.isLt
  rw [BitVec.ofNat_toNat 8 d8, BitVec.setWidth_eq] at hbyte
  simp only [decodeOp, hline, decodeLine6, hbyte, hcond]
  exact if_neg hd

theorem decodeOp_branch_word {c : Nat} (hc : c < 16) (d16 : Word16) (ws : List Word16) :
    decodeOp (BitVec.ofNat 16 (6 * 4096 + c * 256)) (d16 :: ws) = .ok (branchOf c (.word d16), ws) := by
  obtain ⟨hline, hcond, hbyte⟩ := branch_fields hc (k := 0) (by decide)
  rw [Nat.add_zero] at hline hcond hbyte
  simp only [decodeOp, hline, decodeLine6, hbyte, hcond]
  rfl

theorem branchOf_words (c : Nat) (d : Disp) : (branchOf c d).words = 1 + d.extCount := by
  unfold branchOf; split <;> rfl

theorem branchOf_not_privileged (c : Nat) (d : Disp) : isPrivileged (branchOf c d) = false := by
  unfold branchOf; split <;> rfl

theorem dbccOf_words (c : Nat) (n : RegNum) (d16 : BitVec 16) : (dbccOf c n d16).words = 2 := by
  unfold dbccOf; split <;> rfl

theorem dbccOf_not_privileged (c : Nat) (n : RegNum) (d16 : BitVec 16) : isPrivileged (dbccOf c n d16) = false := by
  unfold dbccOf; split <;> rfl

/-! ## The shape of an instruction -/

/-- The operation word, decoded with extension words of 0, gives an instruction of the same length that is privileged where
this one is. -/
def SameShape (i : Instr) : Prop :=
  ∃ shape, decodeShape i.opcode = .ok shape ∧ shape.words = i.words ∧ isPrivileged shape = isPrivileged i

namespace SameShape

theorem of_decodeOp {i shape : Instr} {rest : List Word16} (h : decodeOp i.opcode [0, 0, 0, 0] = .ok (shape, rest))
    (hw : shape.words = i.words) (hp : isPrivileged shape = isPrivileged i) : SameShape i :=
  ⟨shape, by simp only [decodeShape, decodeWords, h], hw, hp⟩

/-- Two words are enough for an operand, and how many it takes is in its mode (R62). -/
theorem decodeOperand_extCount (sz : Size) (ea : EA) (v w : Word16) (ws : List Word16) :
    ∃ ea' rest, decodeOperand ea.kind sz ea.reg (v :: w :: ws) = .ok (ea', rest) ∧
      ea'.extCount sz = ea.extCount sz := by
  cases ea
  case imm => cases sz <;> exact ⟨_, _, rfl, rfl⟩
  all_goals exact ⟨_, _, rfl, rfl⟩

theorem of_withEA {i : Instr} {cat : EAKind → Bool} {bad : EAKind → DecodeError} {sz : Size} {ea : EA} {mk : EA → Instr}
    (h : decodeOp i.opcode [0, 0, 0, 0] = withEA cat bad sz ea.mode ea.reg mk [0, 0, 0, 0]) (hok : ea.ok cat sz = true)
    (hw : ∀ ea', ea'.extCount sz = ea.extCount sz → (mk ea').words = i.words := by simp [Instr.words])
    (hp : ∀ ea', isPrivileged (mk ea') = isPrivileged i := by intros; rfl) : SameShape i := by
  obtain ⟨ea', rest, hd, he⟩ := decodeOperand_extCount sz ea 0 0 [0, 0]
  simp only [EA.ok, Bool.and_eq_true] at hok
  refine of_decodeOp (rest := rest) (h.trans ?_) (hw ea' he) (hp ea')
  simp only [withEA, decodeEA, decodeKind_mode, hok.1, if_true, hd, Except.map]

theorem of_withImmEA {i : Instr} {bad : EAKind → DecodeError} {sz : Size} {ea : EA} {mk : Long → EA → Instr}
    (h : decodeOp i.opcode [0, 0, 0, 0] = withImmEA bad sz ea.mode ea.reg mk [0, 0, 0, 0])
    (hok : ea.ok (·.isDataAlterable) sz = true)
    (hw : ∀ v ea', ea'.extCount sz = ea.extCount sz → (mk v ea').words = i.words := by simp [Instr.words])
    (hp : ∀ v ea', isPrivileged (mk v ea') = isPrivileged i := by intros; rfl) : SameShape i := by
  obtain ⟨v, u, w, ws, hi⟩ : ∃ v u w ws, takeImm sz [0, 0, 0, 0] = .ok (v, u :: w :: ws) := by
    cases sz <;> exact ⟨_, _, _, _, rfl⟩
  obtain ⟨ea', rest, hd, he⟩ := decodeOperand_extCount sz ea u w ws
  simp only [EA.ok, Bool.and_eq_true] at hok
  refine of_decodeOp (rest := rest) (h.trans ?_) (hw v ea' he) (hp v ea')
  simp only [withImmEA, decodeKind_mode, hok.1, if_true, hi, hd, Except.map]

theorem of_withBitEA {i : Instr} {cat : EAKind → Bool} {ea : EA} {mk : BitVec 16 → EA → Instr}
    (h : decodeOp i.opcode [0, 0, 0, 0] = withBitEA cat ea.mode ea.reg mk [0, 0, 0, 0]) (hok : ea.ok cat .b = true)
    (hw : ∀ b ea', ea'.extCount .b = ea.extCount .b → (mk b ea').words = i.words := by simp [Instr.words])
    (hp : ∀ b ea', isPrivileged (mk b ea') = isPrivileged i := by intros; rfl) : SameShape i := by
  obtain ⟨ea', rest, hd, he⟩ := decodeOperand_extCount .b ea 0 0 [0]
  simp only [EA.ok, Bool.and_eq_true] at hok
  refine of_decodeOp (rest := rest) (h.trans ?_) (hw 0 ea' he) (hp 0 ea')
  simp only [withBitEA, decodeKind_mode, takeWord, hok.1, if_true, hd, Except.map]

/-- BRA, BSR and Bcc: a displacement byte that is not 0 is in the operation word, else a word follows (R105). -/
theorem of_branch {i : Instr} {c : Nat} {d : Disp} (hc : c < 16) (hi : i.opcode = (encodeBranch c d).headD 0)
    (hd : d.wf = true) (hw : i.words = 1 + d.extCount) (hp : isPrivileged i = false) : SameShape i := by
  cases d with
  | byte d8 =>
    have hne : d8 ≠ 0 := by simpa [Disp.wf] using hd
    exact of_decodeOp ((congrArg (decodeOp · [0, 0, 0, 0]) hi).trans (decodeOp_branch_byte hc hne _))
      ((branchOf_words ..).trans hw.symm) ((branchOf_not_privileged ..).trans hp.symm)
  | word d16 =>
    exact of_decodeOp ((congrArg (decodeOp · [0, 0, 0, 0]) hi).trans (decodeOp_branch_word hc 0 _))
      ((branchOf_words ..).trans hw.symm) ((branchOf_not_privileged ..).trans hp.symm)

/-- DBcc, whose condition lies over two fields of the operation word (R106). -/
theorem of_dbcc {i : Instr} (c : Fin 16) {n : RegNum} {d16 : BitVec 16}
    (hi : i.opcode = (encodeDbcc c.val n d16).headD 0) (hw : i.words = 2) (hp : isPrivileged i = false) : SameShape i :=
  of_decodeOp ((congrArg (decodeOp · [0, 0, 0, 0]) hi).trans ((decodeOp_line5 ..).trans (decodeLine5_dbcc c n 0 _)))
    ((dbccOf_words ..).trans hw.symm) ((dbccOf_not_privileged ..).trans hp.symm)

/-- The operation word of a well-formed instruction says its length and its privilege, by the line it is on. -/
theorem of_wf {i : Instr} (h : i.wf = true) : SameShape i := by
  cases i
  case addEaDn _ _ n => exact of_withEA ((decodeOp_lineD ..).trans (decodeLineD_low n)) h
  case addDnEa _ n _ => exact of_withEA ((decodeOp_lineD ..).trans (decodeLineD_high n (two_le_mode (cat_of_ok h)))) h
  case addaW _ n => exact of_withEA ((decodeOp_lineD ..).trans (decodeLineD_addaW n)) h
  case addaL _ n => exact of_withEA ((decodeOp_lineD ..).trans (decodeLineD_addaL n)) h
  case andEaDn _ _ n => exact of_withEA ((decodeOp_lineC ..).trans (decodeLineC_low n)) h
  case andDnEa _ n _ => exact of_withEA ((decodeOp_lineC ..).trans (decodeLineC_high n (two_le_mode (cat_of_ok h)))) h
  case cmp _ _ n => exact of_withEA ((decodeOp_lineB ..).trans (decodeLineB_cmp n)) h
  case eor _ n _ => exact of_withEA ((decodeOp_lineB ..).trans (decodeLineB_eor n (mode_ne_one (cat_of_ok h)))) h
  case cmpaW _ n => exact of_withEA ((decodeOp_lineB ..).trans (decodeLineB_cmpaW n)) h
  case cmpaL _ n => exact of_withEA ((decodeOp_lineB ..).trans (decodeLineB_cmpaL n)) h
  case addq _ data _ => exact of_withEA ((decodeOp_line5 ..).trans (decodeLine5_addq data)) h
  case clr => exact of_withEA ((decodeOp_line4 ..).trans decodeLine4_clr) h
  case chk _ n => exact of_withEA ((decodeOp_line4 ..).trans (decodeLine4_chk n)) h
  case divu _ n => exact of_withEA ((decodeOp_line8 ..).trans (decodeLine8_divu n)) h
  case divs _ n => exact of_withEA ((decodeOp_line8 ..).trans (decodeLine8_divs n)) h
  case aslMem => exact of_withEA ((decodeOp_lineE ..).trans decodeLineE_aslMem) h
  case asrMem => exact of_withEA ((decodeOp_lineE ..).trans decodeLineE_asrMem) h
  case btstDyn n _ => exact of_withEA ((decodeOp_line0 ..).trans (decodeLine0_btstDyn n)) h
  case bchgDyn n _ => exact of_withEA ((decodeOp_line0 ..).trans (decodeLine0_bchgDyn n)) h
  case bclrDyn n _ => exact of_withEA ((decodeOp_line0 ..).trans (decodeLine0_bclrDyn n)) h
  case bsetDyn n _ => exact of_withEA ((decodeOp_line0 ..).trans (decodeLine0_bsetDyn n)) h
  case btstStatic => exact of_withBitEA ((decodeOp_line0 ..).trans decodeLine0_btstStatic) h
  case bchgStatic => exact of_withBitEA ((decodeOp_line0 ..).trans decodeLine0_bchgStatic) h
  case bclrStatic => exact of_withBitEA ((decodeOp_line0 ..).trans decodeLine0_bclrStatic) h
  case bsetStatic => exact of_withBitEA ((decodeOp_line0 ..).trans decodeLine0_bsetStatic) h
  case addi =>
    obtain ⟨-, h⟩ := Bool.and_eq_true_iff.mp h
    exact of_withImmEA ((decodeOp_line0 ..).trans decodeLine0_addi) h
  case cmpi =>
    obtain ⟨-, h⟩ := Bool.and_eq_true_iff.mp h
    exact of_withImmEA ((decodeOp_line0 ..).trans decodeLine0_cmpi) h
  case andi =>
    obtain ⟨-, h⟩ := Bool.and_eq_true_iff.mp h
    exact of_withImmEA ((decodeOp_line0 ..).trans (decodeLine0_andi (not_sr_field (cat_of_ok h)))) h
  case eori =>
    obtain ⟨-, h⟩ := Bool.and_eq_true_iff.mp h
    exact of_withImmEA ((decodeOp_line0 ..).trans (decodeLine0_eori (not_sr_field (cat_of_ok h)))) h
  case andiToSr | eoriToSr => exact of_decodeOp (decodeOp_line0 ..) rfl rfl
  case abcdReg | abcdMem | exgDd | exgAa | exgDa => exact of_decodeOp (decodeOp_lineC ..) rfl rfl
  case extW | extL => exact of_decodeOp (decodeOp_line4 ..) rfl rfl
  case cmpm sz _ _ => cases sz <;> exact of_decodeOp (decodeOp_lineB ..) rfl rfl
  case addxReg sz _ _ | addxMem sz _ _ => cases sz <;> exact of_decodeOp (decodeOp_lineD ..) rfl rfl
  case aslImm sz _ _ | aslReg sz _ _ | asrImm sz _ _ | asrReg sz _ _ =>
    cases sz <;> exact of_decodeOp (decodeOp_lineE ..) rfl rfl
  case bra | bsr | bhi | bls | bcc | bcs | bne | beq | bvc | bvs | bpl | bmi | bge | blt | bgt | ble =>
    exact of_branch (by decide) rfl h rfl rfl
  case dbt => exact of_dbcc 0 rfl rfl rfl
  case dbf => exact of_dbcc 1 rfl rfl rfl
  case dbhi => exact of_dbcc 2 rfl rfl rfl
  case dbls => exact of_dbcc 3 rfl rfl rfl
  case dbcc => exact of_dbcc 4 rfl rfl rfl
  case dbcs => exact of_dbcc 5 rfl rfl rfl
  case dbne => exact of_dbcc 6 rfl rfl rfl
  case dbeq => exact of_dbcc 7 rfl rfl rfl
  case dbvc => exact of_dbcc 8 rfl rfl rfl
  case dbvs => exact of_dbcc 9 rfl rfl rfl
  case dbpl => exact of_dbcc 10 rfl rfl rfl
  case dbmi => exact of_dbcc 11 rfl rfl rfl
  case dbge => exact of_dbcc 12 rfl rfl rfl
  case dblt => exact of_dbcc 13 rfl rfl rfl
  case dbgt => exact of_dbcc 14 rfl rfl rfl
  case dble => exact of_dbcc 15 rfl rfl rfl

end SameShape

end Sys2Proof.Machine
end

section
/-! PROOFS. The accesses of an instruction's operands: the first that stops ends the instruction (R66, R74, R76, R77); and
what stops an access, a fetch, a step and an instruction, together (O26). -/

namespace Sys2Proof.Machine

open Sys2Proof

theorem accessAll_read (s : State) (a : Long) (sz : Size) (xs : List Access) :
    s.accessAll (⟨.read, a, sz⟩ :: xs) = andThen (s.memRead a sz .read) fun _ => s.accessAll xs :=
  andThen_assoc (s.memRead a sz .read) _ _

theorem andThen_of_refused {α β : Type} {x : Res α} {g : α → Res β} {r : Refusal} (h : x = .refused r) :
    andThen x g = .refused r := by rw [h, andThen_refused]

/-- An operand in memory that is read before other accesses are made (R77). -/
theorem readEA_first_stopsAs {α : Type} {s : State} {sz : Size} {ea : EA} {own : Nat} {xs : List Access}
    {k : BitVec sz.bits × State → Res α} (hm : ea.kind.isMem = true) (hb : s.briefRefused ea = false)
    (h : ∀ v, StopsAs (s.accessAll xs) (k (v, s.eaUpdate sz ea))) :
    StopsAs (s.accessAll (s.operandAccesses sz ea own [.read] ++ xs)) (andThen (s.readEA sz ea (s.extAt own)) k) := by
  rw [operandAccesses_mem hm, readEA_mem hm hb, andThen_assoc]
  exact stopsAs_read h

theorem bitOp_stopsAs {s : State} {new : Bool → Bool} {raw : Long} {ea : EA} {own : Nat}
    (hb : s.briefRefused ea = false) :
    StopsAs (s.accessAll (s.operandAccesses .b ea own [.read, .write])) (s.bitOp new raw ea (s.extAt own)) := by
  unfold State.bitOp
  split
  · exact .of_next _
  · exact modifyMem_stopsAs hb _

theorem bitTest_stopsAs {s : State} {raw : Long} {ea : EA} {own : Nat} (hb : s.briefRefused ea = false) :
    StopsAs (s.accessAll (s.operandAccesses .b ea own [.read])) (s.bitTest raw ea (s.extAt own)) := by
  unfold State.bitTest
  split
  · exact .of_next _
  · exact (readEA_stopsAs hb).andThen _

/-- ADDQ to an address register makes no access (R145). -/
theorem execAddq_stopsAs {s : State} {sz : Size} {data : Fin 8} {ea : EA} (hb : s.briefRefused ea = false) :
    StopsAs (s.accessAll (s.accesses (.addq sz data ea))) (execAddq sz data ea s) := by
  unfold execAddq
  split
  · exact .of_next _
  · exact (modifyEA_stopsAs hb _).andThen _

/-- CLR writes memory without reading it (R233). -/
theorem execClr_stopsAs {s : State} {sz : Size} {ea : EA} (hb : s.briefRefused ea = false) :
    StopsAs (s.accessAll (s.accesses (.clr sz ea))) (execClr sz ea s) := by
  unfold execClr
  split
  · exact .of_next _
  · change StopsAs (s.accessAll (s.operandAccesses sz ea 0 [.write])) _
    cases hm : ea.kind.isMem with
    | false => rw [operandAccesses_not_mem hm]; exact .of_next _
    | true =>
      rw [operandAccesses_mem hm, eaAddr_mem hm hb, andThen_next]
      exact stopsAs_write (by simp)

/-- CMPM reads the source, then the destination (R244). -/
theorem execCmpm_stopsAs (s : State) (sz : Size) (y x : RegNum) :
    StopsAs (s.accessAll (s.accesses (.cmpm sz y x))) (execCmpm sz y x s) := by
  refine readEA_first_stopsAs rfl rfl fun v => StopsAs.andThen ?_ _
  rw [← accessAll_eaUpdate s sz (.postinc y), ← extAt_eaUpdate s sz (.postinc y)]
  exact readEA_stopsAs rfl

/-- ADDX in memory reads the source, then reads and writes the destination (R147). -/
theorem execAddxMem_stopsAs (s : State) (sz : Size) (y x : RegNum) :
    StopsAs (s.accessAll (s.accesses (.addxMem sz y x))) (execAddxMem sz y x s) := by
  refine readEA_first_stopsAs rfl rfl fun v => StopsAs.andThen ?_ _
  rw [← accessAll_eaUpdate s sz (.predec y), ← extAt_eaUpdate s sz (.predec y)]
  exact modifyMem_stopsAs rfl _

/-- A decimal sum is refused for its digits or keeps the parameters (R130). -/
theorem bcdSum_cases (s : State) (src dst : Byte) :
    (∃ p, s.bcdSum src dst = .next p ∧ p.2.params = s.params) ∨ s.bcdSum src dst = .refused .nonDecimalDigit := by
  unfold State.bcdSum
  split
  · exact .inl ⟨_, rfl, rfl⟩
  · split
    · exact .inr rfl
    · exact .inl ⟨_, rfl, rfl⟩

/-- ABCD in memory, access by access (R132). -/
theorem execAbcdMem_eq (y x : RegNum) (s : State) :
    execAbcdMem y x s =
      let u := s.eaUpdate .b (.predec y)
      let da := u.eaAddress .b (.predec x) (u.extAt 0)
      andThen (s.memRead (s.eaAddress .b (.predec y) (s.extAt 0)) .b .read) fun src =>
      andThen (s.memRead da .b .read) fun dst =>
      andThen ((u.eaUpdate .b (.predec x)).bcdSum src dst) fun p =>
      andThen (p.2.memWrite da .b p.1.1) fun t =>
      .next ((t.bcdFlags p.1.1 p.1.2).advance (Instr.abcdMem y x).ilen) := by
  have hy : s.briefRefused (.predec y) = false := rfl
  have hx : (s.eaUpdate .b (.predec y)).briefRefused (.predec x) = false := rfl
  simp only [execAbcdMem, readEA_mem rfl hy, eaAddr_mem rfl hx, andThen_assoc, andThen_next, memRead_eaUpdate,
    extAt_eaUpdate]

/-- ABCD in memory reads the source and the destination, then looks at the digits, then writes (R130, R132). -/
theorem execAbcdMem_stopsAs {s : State} {y x : RegNum} (hd : execAbcdMem y x s ≠ .refused .nonDecimalDigit) :
    StopsAs (s.accessAll (s.accesses (.abcdMem y x))) (execAbcdMem y x s) := by
  rw [execAbcdMem_eq] at hd ⊢
  dsimp only at hd ⊢
  change StopsAs (s.accessAll [⟨.read, _, .b⟩, ⟨.read, _, .b⟩, ⟨.write, _, .b⟩]) _
  rw [accessAll_read, accessAll_read]
  refine StopsAs.seq _ fun src hsrc => StopsAs.seq _ fun dst hdst => ?_
  rcases bcdSum_cases ((s.eaUpdate .b (.predec y)).eaUpdate .b (.predec x)) src dst with ⟨p, hp, hpar⟩ | hr
  · rw [hp, andThen_next]
    exact stopsAs_write (by rw [hpar]; simp)
  · rw [hsrc, andThen_next, hdst, andThen_next, hr, andThen_refused] at hd
    exact absurd rfl hd

theorem execBsr_stopsAs {s : State} {d : Disp} (h : s.branchRefused d = false) :
    StopsAs (s.accessAll (s.accesses (.bsr d))) (execBsr d s) := by
  unfold execBsr
  rw [h, if_neg Bool.false_ne_true]
  exact stopsAs_write (by simp)

/-- The first access of its operands that stops ends an instruction (R14, R77), unless the launch refuses its form before
any access or ABCD a digit before its write. -/
theorem exec_stopsAs {i : Instr} {s : State} (hb : ∀ ea, i.ea = some ea → s.briefRefused ea = false)
    (hd : ∀ d, i = .bsr d → s.branchRefused d = false) (hdig : exec i s ≠ .refused .nonDecimalDigit) :
    StopsAs (s.accessAll (s.accesses i)) (exec i s) := by
  cases i
  case addEaDn | andEaDn | addaW | addaL | cmp | cmpaW | cmpaL | cmpi | chk | divu | divs =>
    exact (readEA_stopsAs (hb _ rfl)).andThen _
  case addDnEa | andDnEa | aslMem | asrMem => exact (modifyMem_stopsAs (hb _ rfl) _).andThen _
  case addi | andi | eori | eor => exact (modifyEA_stopsAs (hb _ rfl) _).andThen _
  case bchgDyn | bchgStatic | bclrDyn | bclrStatic | bsetDyn | bsetStatic =>
    exact (bitOp_stopsAs (hb _ rfl)).andThen _
  case btstDyn | btstStatic => exact (bitTest_stopsAs (hb _ rfl)).andThen _
  case addq => exact execAddq_stopsAs (hb _ rfl)
  case clr => exact execClr_stopsAs (hb _ rfl)
  case cmpm => exact execCmpm_stopsAs ..
  case addxMem => exact execAddxMem_stopsAs ..
  case abcdMem => exact execAbcdMem_stopsAs hdig
  case bsr d => exact execBsr_stopsAs (hd d rfl)
  all_goals exact .of_next _

/-! ## Extension words that the launch refuses (R71, R96) -/

theorem kind_of_briefRefused {s : State} {ea : EA} (h : s.briefRefused ea = true) :
    ea.kind = .index ∨ ea.kind = .pcIndex := by
  cases ea
  case index => exact .inl rfl
  case pcIndex => exact .inr rfl
  all_goals cases h

theorem eaAddr_briefRefused {s : State} {sz : Size} {ea : EA} {ext : Long} (h : s.briefRefused ea = true) :
    s.eaAddr sz ea ext = .refused .extensionWord := by
  have hm : ea.kind.isMem = true := by rcases kind_of_briefRefused h with e | e <;> rw [e] <;> rfl
  simp [State.eaAddr, hm, h]

theorem bitOp_briefRefused {s : State} {new : Bool → Bool} {raw : Long} {ea : EA} {ext : Long}
    (h : s.briefRefused ea = true) : s.bitOp new raw ea ext = .refused .extensionWord := by
  unfold State.bitOp
  split
  · cases h
  · exact modifyMem_briefRefused h _

theorem bitTest_briefRefused {s : State} {raw : Long} {ea : EA} {ext : Long} (h : s.briefRefused ea = true) :
    s.bitTest raw ea ext = .refused .extensionWord := by
  unfold State.bitTest
  split
  · cases h
  · exact andThen_of_refused (readEA_briefRefused h)

theorem execAddq_briefRefused {s : State} {sz : Size} {data : Fin 8} {ea : EA} (h : s.briefRefused ea = true) :
    execAddq sz data ea s = .refused .extensionWord := by
  unfold execAddq
  split
  · cases h
  · exact andThen_of_refused (modifyEA_briefRefused h _)

theorem execClr_briefRefused {s : State} {sz : Size} {ea : EA} (h : s.briefRefused ea = true) :
    execClr sz ea s = .refused .extensionWord := by
  unfold execClr
  split
  · cases h
  · exact andThen_of_refused (eaAddr_briefRefused h)

/-- A refused extension word is refused before any access. -/
theorem exec_briefRefused {i : Instr} {s : State} {ea : EA} (hi : i.ea = some ea) (h : s.briefRefused ea = true) :
    exec i s = .refused .extensionWord := by
  cases i <;> cases hi
  case addEaDn | andEaDn | addaW | addaL | cmp | cmpaW | cmpaL | cmpi | chk | divu | divs =>
    exact andThen_of_refused (readEA_briefRefused h)
  case addDnEa | andDnEa | aslMem | asrMem => exact andThen_of_refused (modifyMem_briefRefused h _)
  case addi | andi | eori | eor => exact andThen_of_refused (modifyEA_briefRefused h _)
  case bchgDyn | bchgStatic | bclrDyn | bclrStatic | bsetDyn | bsetStatic =>
    exact andThen_of_refused (bitOp_briefRefused h)
  case btstDyn | btstStatic => exact andThen_of_refused (bitTest_briefRefused h)
  case addq => exact execAddq_briefRefused h
  case clr => exact execClr_briefRefused h

/-! ## What stops a step at an extension word, and all together -/

/-- The first extension word that cannot be fetched stops the step (R60, R315). -/
theorem step_extension_fault {i : Instr} {s : State} {k : Nat} {f : Fault} (hwf : i.wf = true)
    (hl : s.resetLine = false) (hh : s.params.haltAddr ≠ some s.pc) (hop : s.load s.pc .w = some i.opcode)
    (hp : isPrivileged i = true → s.sr.s = true) (hk : 1 ≤ k) (hki : k < i.words)
    (hbefore : ∀ j, 1 ≤ j → j < k → ∃ w, s.load (s.pc + BitVec.ofNat 32 (2 * j)) .w = some w)
    (hf : s.fetch16 (s.pc + BitVec.ofNat 32 (2 * k)) = .fault f) : step s = .fault f := by
  obtain ⟨shape, hshape, hwords, hpriv⟩ := SameShape.of_wf hwf
  have hnext (j : Nat) : s.pc + 2 + BitVec.ofNat 32 (2 * j) = s.pc + BitVec.ofNat 32 (2 * (j + 1)) := by
    rw [Nat.mul_add, Nat.add_comm, BitVec.ofNat_add, ← BitVec.add_assoc]
    rfl
  have hfetch : s.fetchWords (s.pc + 2) (shape.words - 1) = .fault f := by
    refine fetchWords_fault (k - 1) _ _ (by omega) (fun j hj => ?_) ?_
    · obtain ⟨w, hw⟩ := hbefore (j + 1) (by omega) (by omega)
      exact ⟨w, by rw [hnext]; exact fetch16_of_load hw⟩
    · rw [hnext, Nat.sub_add_cancel hk]
      exact hf
  rw [step_eq_runOne hl hh, runOne_extension_fault (fetch16_of_load hop) hshape (fun e => hp (hpriv ▸ e)) hfetch,
    andThen_fault]

/-- Settles O26, clause by clause: an access, a fetch, a step at its operation word and at an extension word, the accesses
of an instruction, and an extension word that the launch refuses. -/
theorem accessFaults : Obligations.AccessFaults := by
  refine ⟨fun s a sz v k => ⟨fun hsz ha => ?_, fun ha hm => ?_, fun ha hm => ?_⟩,
    fun s a => ⟨fetch16_odd, fetch16_unmapped⟩, fun s f hl hh hf => ?_, ?_, ?_, ?_⟩
  · exact ⟨memRead_of_accessFault (accessFault_odd hsz ha), memWrite_of_accessFault (accessFault_odd hsz ha)⟩
  · have ha := aligned_bytes.mpr ha
    exact ⟨memRead_of_accessFault (accessFault_unmapped ha hm), memWrite_of_accessFault (accessFault_unmapped ha hm)⟩
  · have hf (k : AccessKind) : s.accessFault a sz.bytes k = none :=
      accessFault_eq_none.mpr ⟨aligned_bytes.mpr ha, (allBytes_iff ..).mpr hm⟩
    exact ⟨memWrite_program (hf _), fun hfill ⟨j, hj, hc⟩ => memRead_unset (hf _) ⟨j, hj, readByte_unlisted hfill hc⟩⟩
  · rw [step_eq_runOne hl hh, runOne_fetch_fault hf, andThen_fault]
  · intro i s k f
    exact step_extension_fault
  · intro i s hb hd hdig
    have h := exec_stopsAs hb hd hdig
    exact ⟨h.fault, h.refused⟩
  · intro i s ea
    exact exec_briefRefused

end Sys2Proof.Machine
end

section
/-! PROOFS. The statements of 20_memory.md: what a step keeps of memory and of the program, a store and the reads after it,
and the addresses of the modes (R52, R54, R56 to R58, R65 to R73, R84). -/

namespace Sys2Proof.Machine

open Sys2Proof

/-! ## Every step -/

/-- A step keeps the parameters, the invariant and the program, or is the reset procedure, which touches neither memory nor
a parameter that says where memory and the program are (R351). -/
theorem step_kept_or_reset {s t : State} (h : step s = .next t) :
    Kept s t ∨ ∃ sp pc : Long, t =
      { s with
        sr := { s.sr with s := true, t := false, i := 7 }
        ssp := sp
        pc := pc
        resetLine := false
        params := { s.params with vectorBase := 0 } } := by
  cases hl : s.resetLine with
  | false => exact .inl (step_kept hl h)
  | true =>
    unfold step State.cycle at h
    rw [hl, if_pos rfl] at h
    exact .inr (resetEntry_eq_next h)

/-- Settles O17: `step_kept` for an instruction with its trace and interrupt; the invariant does not look at what the reset
procedure sets. -/
theorem stepKeepsInvariant : Obligations.StepKeepsInvariant := by
  intro s t hi h
  rcases step_kept_or_reset h with hk | ⟨sp, pc, rfl⟩
  · exact hk.inv hi
  · exact hi

/-- Settles O18, in the same way: the reset procedure leaves memory, its fill and `phys`. -/
theorem stepKeepsProgram : Obligations.StepKeepsProgram := by
  intro s t h b hb
  rcases step_kept_or_reset h with hk | ⟨sp, pc, rfl⟩
  · exact hk.code b hb
  · rfl

/-- Settles O16: the memory after reset lists no byte. -/
theorem resetHasInvariant : Obligations.ResetHasInvariant :=
  ⟨⟨.nil, fun _ hc => nomatch hc⟩, fun _ hc => nomatch hc⟩

/-! ## A store and the reads after it -/

/-- The bytes of a value in the order of their significance (R54). -/
theorem getElem?_beBytes {k j : Nat} (v : Nat) (h : j < k) :
    (beBytes k v)[j]? = some (BitVec.ofNat 8 (v / 2 ^ (8 * (k - 1 - j)))) := by
  induction k generalizing j with
  | zero => omega
  | succ k ih =>
    cases j with
    | zero => simp [beBytes, Nat.pow_mul]
    | succ j => rw [beBytes, List.getElem?_cons_succ, ih (by omega), show k + 1 - 1 - (j + 1) = k - 1 - j by omega]

/-- The bytes of a read are those at its addresses (R56). -/
theorem readByte_of_readBytes {s : State} {a : Long} {k j : Nat} {bs : List Byte} (h : s.readBytes a k = some bs)
    (hj : j < k) : s.readByte (a + BitVec.ofNat 32 j) = bs[j]? := by
  induction k generalizing a j bs with
  | zero => omega
  | succ k ih =>
    unfold State.readBytes at h
    split at h
    · next b cs h0 hr =>
      cases h
      cases j with
      | zero => rw [add_ofNat_zero, h0, List.getElem?_cons_zero]
      | succ j => rw [add_ofNat_succ, ih hr (by omega), List.getElem?_cons_succ]
    · cases h

/-- A value stored where it may be stored is what a read there gives (R56, R57). -/
theorem load_stored {s : State} {a : Long} {sz : Size} (v : BitVec sz.bits) (hw : Memory.wf s.params.memFill s.mem)
    (hs : s.storable a sz = true) : (s.stored a sz v).load a sz = some v := by
  simp only [State.storable, Bool.and_eq_true] at hs
  obtain ⟨hm, -⟩ := hs
  have hp : (s.stored a sz v).isMapped = s.isMapped := isMapped_congr (by simp)
  simp [State.load, hp, hm, readBytes_stored s a sz v hw]

/-- Settles O24: the store's bytes read as a value, and each by itself. -/
theorem storeThenLoad : Obligations.StoreThenLoad := by
  intro s t a sz v hi h
  obtain ⟨hs, rfl⟩ := memWrite_eq_next.mp h
  refine ⟨load_stored v hi.1 hs, fun j hj => ?_⟩
  rw [readByte_of_readBytes (readBytes_stored s a sz v hi.1) hj, getElem?_beBytes _ hj]

/-- Settles O25: a write that answers is a store. -/
theorem storeFrame : Obligations.StoreFrame := by
  intro s t a b sz v h ho
  obtain ⟨-, rfl⟩ := memWrite_eq_next.mp h
  exact readByte_stored_outside s a b sz v ho

/-! ## Effective addresses -/

/-- A write of an address register changes `A0` to `A6` and the two stack pointers only (R24). -/
theorem writeA_with (s : State) (n : RegNum) (v : Long) :
    s.writeA n v = { s with a := (s.writeA n v).a, usp := (s.writeA n v).usp, ssp := (s.writeA n v).ssp } := by
  apply State.eq_of_fields <;> simp

/-- The side effect of `(An)+` and `-(An)`: `An` alone is written (R68, R69). -/
theorem writeA_changes_only (s : State) (n : RegNum) (v : Long) :
    (s.writeA n v).readA n = v ∧ (∀ m, m ≠ n → (s.writeA n v).readA m = s.readA m) ∧ s.sameInactive (s.writeA n v) ∧
      s.writeA n v = { s with a := (s.writeA n v).a, usp := (s.writeA n v).usp, ssp := (s.writeA n v).ssp } :=
  ⟨readA_writeA_self s n v, fun _ h => readA_writeA_other s v h.symm, writeA_inactive s n v, writeA_with s n v⟩

theorem stepBytes_eq (sz : Size) (n : RegNum) :
    stepBytes sz n = if sz = .b ∧ n = 7 then 2 else BitVec.ofNat 32 sz.bytes := by
  simp [stepBytes, Fin.ext_iff]

/-- Settles O27: the address of each mode, and its side effect as one write of `An`. -/
theorem postincrementPredecrement : Obligations.PostincrementPredecrement := by
  intro s sz n ext k
  have hk : stepBytes sz n = k := stepBytes_eq sz n
  rw [← hk]
  exact ⟨⟨_, eaAddr_mem rfl rfl, writeA_changes_only s n _⟩, ⟨_, eaAddr_mem rfl rfl, writeA_changes_only s n _⟩⟩

/-- An indexed operand is refused where its extension word has bits 10:8 not 0 and the launch says so (R71, R96). -/
theorem briefRefused_iff {s : State} {x : BriefExt} {ea : EA} (h : ea = .pcIndex x ∨ ∃ n, ea = .index n x) :
    s.briefRefused ea = true ↔ s.params.briefBits = .refuse ∧ x.scale ≠ 0 := by
  rcases h with rfl | ⟨n, rfl⟩ <;> simp [State.briefRefused]

/-- Settles O28: the modes without an index give their addresses, those with one by what the launch says of the extension
word. -/
theorem effectiveAddresses : Obligations.EffectiveAddresses := by
  intro s sz n d16 x addr ext xn index
  have hi : s.briefRefused (.index n x) = true ↔ s.params.briefBits = .refuse ∧ x.scale ≠ 0 :=
    briefRefused_iff (.inr ⟨n, rfl⟩)
  have hp : s.briefRefused (.pcIndex x) = true ↔ s.params.briefBits = .refuse ∧ x.scale ≠ 0 := briefRefused_iff (.inl rfl)
  refine ⟨eaAddr_mem rfl rfl, eaAddr_mem rfl rfl, eaAddr_mem rfl rfl, eaAddr_mem rfl rfl, eaAddr_mem rfl rfl,
    fun h => ?_, fun hx hb => ⟨eaAddr_briefRefused (hi.mpr ⟨hb, hx⟩), eaAddr_briefRefused (hp.mpr ⟨hb, hx⟩)⟩⟩
  have hn : ¬(s.params.briefBits = .refuse ∧ x.scale ≠ 0) := by
    rintro ⟨hb, hx⟩
    rcases h with h | h
    · exact hx h
    · rw [hb] at h; cases h
  exact ⟨eaAddr_mem rfl (Bool.eq_false_iff.mpr (mt hi.mp hn)), eaAddr_mem rfl (Bool.eq_false_iff.mpr (mt hp.mp hn))⟩

end Sys2Proof.Machine
end

section
/-! PROOFS. The statements of 30_encoding.md. `OperandForm` says what the decoder makes of the operation word of an
instruction, `Answers` what it can answer about any word; the statements follow from the two. -/

namespace Sys2Proof.Machine

open Sys2Proof

/-- Settles O1: the decoder run on each word list. -/
theorem decodeSampleWords : Obligations.DecodeSampleWords :=
  ⟨rfl, rfl, rfl, rfl, rfl, rfl, rfl, rfl, rfl, rfl, rfl, rfl, rfl, rfl, rfl⟩

/-! ## Modes that R119 makes illegal

Each `illegalMode` lemma is about the instructions its docstring names: the left side is what `Instr.illegalForm` says
of them, the right side what the decoder answers. -/

/-- R119 (b). -/
theorem decodeKind_eq_none {m x : Fin 8} : decodeKind m x = none ↔ m = 7 ∧ 5 ≤ x.val := by
  revert m x; decide

/-- A mode that the decoder answers as illegal: outside the category, and no other instruction's pattern. -/
abbrev IllegalMode (cat : EAKind → Bool) (bad : EAKind → DecodeError) (k : EAKind) : Prop :=
  cat k = false ∧ bad k = .illegalInstruction

/-- ADD and CMP to a register. -/
theorem illegalMode_fitsSize (sz : Size) (k : EAKind) :
    (k == .an && sz == .b) = true ↔ IllegalMode (·.fitsSize sz) eaIllegal k := by
  cases k <;> cases sz <;> decide

/-- AND to a register, CHK, DIVS, DIVU. -/
theorem illegalMode_data (k : EAKind) : (k == .an) = true ↔ IllegalMode (·.isData) eaIllegal k := by
  cases k <;> decide

/-- ADDA and CMPA, which take every mode. -/
theorem illegalMode_any (k : EAKind) : false = true ↔ IllegalMode (fun _ => true) eaIllegal k := by simp

/-- ADDQ. -/
theorem illegalMode_addq (sz : Size) (k : EAKind) :
    ((k == .an && sz == .b) || !k.isAlterable) = true ↔
      IllegalMode (fun k => k.isAlterable && k.fitsSize sz) eaIllegal k := by
  cases k <;> cases sz <;> decide

/-- ADDI, CMPI, CLR. -/
theorem illegalMode_dataAlterable (k : EAKind) :
    (k == .an || !k.isAlterable) = true ↔ IllegalMode (·.isDataAlterable) eaIllegal k := by
  cases k <;> decide

/-- The field is not that of ANDI and EORI to SR, which stand where size W would have an immediate destination (R110). -/
abbrev NotSr (sz : Size) (m x : Fin 8) : Prop := sz = .w → ¬(m.val = 7 ∧ x.val = 4)

/-- ANDI and EORI, where an immediate destination is CCR with size B (R110). -/
theorem illegalMode_immToCcr (sz : Size) (ea : EA) :
    (ea.kind == .an || (!ea.kind.isAlterable && (ea.kind != .imm || sz == .l))) = true ↔
      IllegalMode (·.isDataAlterable) (immToCcr sz) ea.kind ∧ NotSr sz ea.mode ea.reg := by
  cases ea <;> cases sz <;>
    simp [IllegalMode, EA.kind, EA.mode, EA.reg, EAKind.isDataAlterable, EAKind.isData, EAKind.isAlterable, immToCcr]

/-- EOR, where mode 001 is CMPM. -/
theorem illegalMode_eor (ea : EA) :
    (!ea.kind.isAlterable) = true ↔ IllegalMode (·.isDataAlterable) eaIllegal ea.kind ∧ ea.mode.val ≠ 1 := by
  cases ea <;>
    simp [IllegalMode, EA.kind, EA.mode, EAKind.isDataAlterable, EAKind.isData, EAKind.isAlterable, eaIllegal]

/-- ADD and AND to memory, where modes 000 and 001 are other instructions. -/
theorem illegalMode_mem (ea : EA) :
    (!ea.kind.isAlterable) = true ↔ IllegalMode (·.isMemAlterable) eaIllegal ea.kind ∧ 2 ≤ ea.mode.val := by
  cases ea <;> simp [IllegalMode, EA.kind, EA.mode, EAKind.isMemAlterable, EAKind.isAlterable, eaIllegal]

/-- ASL and ASR of memory. -/
theorem illegalMode_shift (k : EAKind) :
    (!k.isAlterable) = true ↔ IllegalMode (·.isMemAlterable) eaOutside k := by
  cases k <;> decide

/-- BCHG, BCLR, BSET. -/
theorem illegalMode_bit (k : EAKind) :
    (!k.isAlterable) = true ↔ IllegalMode (·.isDataAlterable) eaOutside k := by
  cases k <;> decide

/-- BTST with a register: `An` is MOVEP's pattern (R110). -/
theorem illegalMode_btstDyn (k : EAKind) : false = true ↔ IllegalMode (·.isData) eaOutside k := by
  cases k <;> decide

/-- BTST with a bit number. -/
theorem illegalMode_btstStatic (k : EAKind) :
    (k == .imm) = true ↔ IllegalMode (fun k => k.isData && k != .imm) eaOutside k := by
  cases k <;> decide

/-! ## From an instruction to its words and back -/

/-- `decodeLine0_andi` for the sizes that SR leaves alone too. -/
theorem decodeLine0_andi_not_sr {sz : Size} {m x : Fin 8} {ws : List Word16} (h : NotSr sz m x) :
    decodeLine0 1 sz.low m x ws = withImmEA (immToCcr sz) sz m x (.andi sz) ws := by
  cases sz with
  | b | l => rfl
  | w => exact decodeLine0_andi (h rfl)

/-- `decodeLine0_eori` for the sizes that SR leaves alone too. -/
theorem decodeLine0_eori_not_sr {sz : Size} {m x : Fin 8} {ws : List Word16} (h : NotSr sz m x) :
    decodeLine0 5 sz.low m x ws = withImmEA (immToCcr sz) sz m x (.eori sz) ws := by
  cases sz with
  | b | l => rfl
  | w => exact decodeLine0_eori (h rfl)

/-- What the decoder makes of the operation word of `i`, whose effective-address field holds `ea`. -/
structure OperandForm (i : Instr) (ea : EA) : Prop where
  /-- the encoding of a well-formed instruction is decoded -/
  decodes : i.wf = true → ∀ rest, decodeWords (i.encode ++ rest) = .ok (i, rest)
  /-- mode 111 with register 101, 110 or 111 in the field (R119 (b)) -/
  noMode  : ea = .absW 0 → ∀ x : Fin 8, 5 ≤ x.val → ∀ ws,
    decodeOp (i.opcode + BitVec.ofNat 16 x.val) ws = .error .illegalInstruction
  /-- a mode outside the category (R119 (c)) -/
  outside : i.illegalForm = true → ∀ ws, decodeOp i.opcode ws = .error .illegalInstruction

namespace OperandForm

variable {i : Instr} {ea : EA} {line : Nat} {r o : Fin 8} {sz : Size} {cat : EAKind → Bool} {bad : EAKind → DecodeError}

/-- From the part of the decoder, `read`, that reads the operand where the field is one of `adm`: the fields the
instruction may have, those of R119 (c), and those that are no mode. -/
theorem of_read {own : List Word16} {read : Fin 8 → Fin 8 → List Word16 → Decoded} (adm : Fin 8 → Fin 8 → Prop)
    (hline : line < 16) (henc : i.encode = encodeEA line r o own sz ea)
    (hdec : ∀ m x ws, adm m x → decodeOp (opWord line r o m x) ws = read m x ws)
    (hnone : ∀ x : Fin 8, 5 ≤ x.val → adm 7 x) (hadm : i.wf = true → adm ea.mode ea.reg)
    (hill : i.illegalForm = true → IllegalMode cat bad ea.kind ∧ adm ea.mode ea.reg)
    (hread : i.wf = true → ∀ rest, read ea.mode ea.reg (own ++ (ea.ext sz ++ rest)) = .ok (i, rest))
    (hno : ∀ m x ws, decodeKind m x = none → read m x ws = .error .illegalInstruction)
    (hout : ∀ m x ws k, decodeKind m x = some k → cat k = false → read m x ws = .error (bad k)) :
    OperandForm i ea where
  decodes h rest := by
    rw [henc, encodeEA, List.cons_append, decodeWords, List.append_assoc, hdec _ _ _ (hadm h), hread h]
  noMode hea x hx ws := by
    subst hea
    have hop : i.opcode = opWord line r o 7 0 := by rw [Instr.opcode, henc]; rfl
    rw [hop, opWord_add line hline, hdec _ _ _ (hnone x hx), hno _ _ _ (decodeKind_eq_none.mpr ⟨rfl, hx⟩)]
  outside h ws := by
    have hop : i.opcode = opWord line r o ea.mode ea.reg := by rw [Instr.opcode, henc]; rfl
    obtain ⟨⟨hc, hb⟩, ha⟩ := hill h
    rw [hop, hdec _ _ _ ha, hout _ _ _ _ (decodeKind_mode ea) hc, hb]

/-- An instruction whose line shares its pattern with others, told apart by the fields `adm`. -/
theorem of_withEA_at {mk : EA → Instr} (adm : Fin 8 → Fin 8 → Prop)
    (hdec : ∀ m x ws, adm m x → decodeOp (opWord line r o m x) ws = withEA cat bad sz m x mk ws)
    (hill : (mk ea).illegalForm = true → IllegalMode cat bad ea.kind ∧ adm ea.mode ea.reg)
    (hnone : ∀ x : Fin 8, 5 ≤ x.val → adm 7 x) (hadm : (mk ea).wf = true → adm ea.mode ea.reg)
    (hwf : (mk ea).wf = ea.ok cat sz := by rfl) (henc : (mk ea).encode = encodeEA line r o [] sz ea := by rfl)
    (hline : line < 16 := by decide) : OperandForm (mk ea) ea :=
  of_read adm hline henc hdec hnone hadm hill (fun h => withEA_ext mk (hwf ▸ h)) (fun _ _ _ => withEA_none)
    fun _ _ _ _ => withEA_outside

theorem of_withEA {mk : EA → Instr}
    (hdec : ∀ m x ws, decodeOp (opWord line r o m x) ws = withEA cat bad sz m x mk ws)
    (hill : (mk ea).illegalForm = true → IllegalMode cat bad ea.kind)
    (hwf : (mk ea).wf = ea.ok cat sz := by rfl) (henc : (mk ea).encode = encodeEA line r o [] sz ea := by rfl)
    (hline : line < 16 := by decide) : OperandForm (mk ea) ea :=
  of_withEA_at (fun _ _ => True) (fun m x ws _ => hdec m x ws) (fun h => ⟨hill h, trivial⟩) (fun _ _ => trivial)
    (fun _ => trivial) hwf henc hline

theorem of_withImmEA_at {mk : Long → EA → Instr} {imm : Long} (adm : Fin 8 → Fin 8 → Prop)
    (hdec : ∀ m x ws, adm m x → decodeOp (opWord 0 r o m x) ws = withImmEA bad sz m x mk ws)
    (hill : (mk imm ea).illegalForm = true → IllegalMode (·.isDataAlterable) bad ea.kind ∧ adm ea.mode ea.reg)
    (hnone : ∀ x : Fin 8, 5 ≤ x.val → adm 7 x) (hadm : ea.kind.isDataAlterable = true → adm ea.mode ea.reg)
    (hwf : (mk imm ea).wf = (immFits sz imm && ea.ok (·.isDataAlterable) sz) := by rfl)
    (henc : (mk imm ea).encode = encodeEA 0 r o (immWords sz imm) sz ea := by rfl) : OperandForm (mk imm ea) ea := by
  have hok : (mk imm ea).wf = true → immFits sz imm = true ∧ ea.ok (·.isDataAlterable) sz = true := by
    rw [hwf]; exact Bool.and_eq_true_iff.mp
  exact of_read adm (by decide) henc hdec hnone (fun h => hadm (cat_of_ok (hok h).2)) hill
    (fun h => withImmEA_ext mk (hok h).1 (hok h).2) (fun _ _ _ => withImmEA_none) fun _ _ _ _ => withImmEA_outside

theorem of_withImmEA {mk : Long → EA → Instr} {imm : Long}
    (hdec : ∀ m x ws, decodeOp (opWord 0 r o m x) ws = withImmEA bad sz m x mk ws)
    (hill : (mk imm ea).illegalForm = true → IllegalMode (·.isDataAlterable) bad ea.kind)
    (hwf : (mk imm ea).wf = (immFits sz imm && ea.ok (·.isDataAlterable) sz) := by rfl)
    (henc : (mk imm ea).encode = encodeEA 0 r o (immWords sz imm) sz ea := by rfl) : OperandForm (mk imm ea) ea :=
  of_withImmEA_at (fun _ _ => True) (fun m x ws _ => hdec m x ws) (fun h => ⟨hill h, trivial⟩) (fun _ _ => trivial)
    (fun _ => trivial) hwf henc

theorem of_withBitEA {mk : Word16 → EA → Instr} {bit : Word16}
    (hdec : ∀ m x ws, decodeOp (opWord 0 4 o m x) ws = withBitEA cat m x mk ws)
    (hill : (mk bit ea).illegalForm = true → IllegalMode cat eaOutside ea.kind)
    (hwf : (mk bit ea).wf = ea.ok cat .b := by rfl)
    (henc : (mk bit ea).encode = encodeEA 0 4 o [bit] .b ea := by rfl) : OperandForm (mk bit ea) ea :=
  of_read (fun _ _ => True) (by decide) henc (fun m x ws _ => hdec m x ws) (fun _ _ => trivial) (fun _ => trivial)
    (fun h => ⟨hill h, trivial⟩) (fun h => withBitEA_ext mk (hwf ▸ h)) (fun _ _ _ => withBitEA_none)
    fun _ _ _ _ => withBitEA_outside

/-- Every instruction with an operand, by the part of the decoder that reads it. -/
theorem of_ea {i : Instr} {ea : EA} (h : i.ea = some ea) : OperandForm i ea := by
  cases i <;> cases h
  case addEaDn sz n =>
    exact of_withEA (fun _ _ _ => (decodeOp_lineD ..).trans (decodeLineD_low n)) (illegalMode_fitsSize sz _).mp
  case addDnEa n =>
    exact of_withEA_at (fun m _ => 2 ≤ m.val) (fun _ _ _ h => (decodeOp_lineD ..).trans (decodeLineD_high n h))
      (illegalMode_mem ea).mp (by decide) fun h => two_le_mode (cat_of_ok h)
  case addaW n =>
    exact of_withEA (fun _ _ _ => (decodeOp_lineD ..).trans (decodeLineD_addaW n)) (illegalMode_any _).mp
  case addaL n =>
    exact of_withEA (fun _ _ _ => (decodeOp_lineD ..).trans (decodeLineD_addaL n)) (illegalMode_any _).mp
  case andEaDn n =>
    exact of_withEA (fun _ _ _ => (decodeOp_lineC ..).trans (decodeLineC_low n)) (illegalMode_data _).mp
  case andDnEa n =>
    exact of_withEA_at (fun m _ => 2 ≤ m.val) (fun _ _ _ h => (decodeOp_lineC ..).trans (decodeLineC_high n h))
      (illegalMode_mem ea).mp (by decide) fun h => two_le_mode (cat_of_ok h)
  case cmp sz n =>
    exact of_withEA (fun _ _ _ => (decodeOp_lineB ..).trans (decodeLineB_cmp n)) (illegalMode_fitsSize sz _).mp
  case eor n =>
    exact of_withEA_at (fun m _ => m.val ≠ 1) (fun _ _ _ h => (decodeOp_lineB ..).trans (decodeLineB_eor n h))
      (illegalMode_eor ea).mp (by decide) fun h => mode_ne_one (cat_of_ok h)
  case cmpaW n =>
    exact of_withEA (fun _ _ _ => (decodeOp_lineB ..).trans (decodeLineB_cmpaW n)) (illegalMode_any _).mp
  case cmpaL n =>
    exact of_withEA (fun _ _ _ => (decodeOp_lineB ..).trans (decodeLineB_cmpaL n)) (illegalMode_any _).mp
  case addq sz data =>
    exact of_withEA (fun _ _ _ => (decodeOp_line5 ..).trans (decodeLine5_addq data)) (illegalMode_addq sz _).mp
  case clr =>
    exact of_withEA (fun _ _ _ => (decodeOp_line4 ..).trans decodeLine4_clr) (illegalMode_dataAlterable _).mp
  case chk n =>
    exact of_withEA (fun _ _ _ => (decodeOp_line4 ..).trans (decodeLine4_chk n)) (illegalMode_data _).mp
  case divu n =>
    exact of_withEA (fun _ _ _ => (decodeOp_line8 ..).trans (decodeLine8_divu n)) (illegalMode_data _).mp
  case divs n =>
    exact of_withEA (fun _ _ _ => (decodeOp_line8 ..).trans (decodeLine8_divs n)) (illegalMode_data _).mp
  case aslMem =>
    exact of_withEA (fun _ _ _ => (decodeOp_lineE ..).trans decodeLineE_aslMem) (illegalMode_shift _).mp
  case asrMem =>
    exact of_withEA (fun _ _ _ => (decodeOp_lineE ..).trans decodeLineE_asrMem) (illegalMode_shift _).mp
  case btstDyn n =>
    exact of_withEA (fun _ _ _ => (decodeOp_line0 ..).trans (decodeLine0_btstDyn n)) (illegalMode_btstDyn _).mp
  case bchgDyn n =>
    exact of_withEA (fun _ _ _ => (decodeOp_line0 ..).trans (decodeLine0_bchgDyn n)) (illegalMode_bit _).mp
  case bclrDyn n =>
    exact of_withEA (fun _ _ _ => (decodeOp_line0 ..).trans (decodeLine0_bclrDyn n)) (illegalMode_bit _).mp
  case bsetDyn n =>
    exact of_withEA (fun _ _ _ => (decodeOp_line0 ..).trans (decodeLine0_bsetDyn n)) (illegalMode_bit _).mp
  case btstStatic =>
    exact of_withBitEA (fun _ _ _ => (decodeOp_line0 ..).trans decodeLine0_btstStatic) (illegalMode_btstStatic _).mp
  case bchgStatic =>
    exact of_withBitEA (fun _ _ _ => (decodeOp_line0 ..).trans decodeLine0_bchgStatic) (illegalMode_bit _).mp
  case bclrStatic =>
    exact of_withBitEA (fun _ _ _ => (decodeOp_line0 ..).trans decodeLine0_bclrStatic) (illegalMode_bit _).mp
  case bsetStatic =>
    exact of_withBitEA (fun _ _ _ => (decodeOp_line0 ..).trans decodeLine0_bsetStatic) (illegalMode_bit _).mp
  case addi =>
    exact of_withImmEA (fun _ _ _ => (decodeOp_line0 ..).trans decodeLine0_addi) (illegalMode_dataAlterable _).mp
  case cmpi =>
    exact of_withImmEA (fun _ _ _ => (decodeOp_line0 ..).trans decodeLine0_cmpi) (illegalMode_dataAlterable _).mp
  case andi sz _ =>
    exact of_withImmEA_at (NotSr sz) (fun _ _ _ h => (decodeOp_line0 ..).trans (decodeLine0_andi_not_sr h))
      (illegalMode_immToCcr sz ea).mp (fun _ hx _ h => by omega) fun h _ => not_sr_field h
  case eori sz _ =>
    exact of_withImmEA_at (NotSr sz) (fun _ _ _ h => (decodeOp_line0 ..).trans (decodeLine0_eori_not_sr h))
      (illegalMode_immToCcr sz ea).mp (fun _ hx _ h => by omega) fun h _ => not_sr_field h

end OperandForm

/-- BRA, BSR and Bcc (R105). -/
theorem decodeWords_branch {c : Nat} {d : Disp} (hc : c < 16) (hd : d.wf = true) (rest : List Word16) :
    decodeWords (encodeBranch c d ++ rest) = .ok (branchOf c d, rest) := by
  cases d with
  | byte d8 => exact decodeOp_branch_byte hc (by simpa [Disp.wf] using hd) rest
  | word d16 => exact decodeOp_branch_word hc d16 rest

/-- DBcc (R107). -/
theorem decodeWords_dbcc {c : Nat} (hc : c < 16) (n : RegNum) (d16 : BitVec 16) (rest : List Word16) :
    decodeWords (encodeDbcc c n d16 ++ rest) = .ok (dbccOf c n d16, rest) :=
  (decodeOp_line5 ..).trans (decodeLine5_dbcc ⟨c, hc⟩ n d16 rest)

/-- Settles O2: an instruction with an operand by its form, the others by their line. -/
theorem encodeThenDecode : Obligations.EncodeThenDecode := by
  intro i rest h
  cases hea : i.ea with
  | some ea => exact (OperandForm.of_ea hea).decodes h rest
  | none =>
    cases i
    case bra | bsr | bhi | bls | bcc | bcs | bne | beq | bvc | bvs | bpl | bmi | bge | blt | bgt | ble =>
      exact decodeWords_branch (by decide) h rest
    case dbt | dbf | dbhi | dbls | dbcc | dbcs | dbne | dbeq | dbvc | dbvs | dbpl | dbmi | dbge | dblt | dbgt | dble =>
      exact decodeWords_dbcc (by decide) ..
    case andiToSr imm => exact decodeOp_line0 1 1 7 4 (imm :: rest)
    case eoriToSr imm => exact decodeOp_line0 5 1 7 4 (imm :: rest)
    case abcdReg | abcdMem | exgDd | exgAa | exgDa => exact decodeOp_lineC ..
    case extW | extL => exact decodeOp_line4 ..
    case cmpm sz _ _ => cases sz <;> exact decodeOp_lineB ..
    case addxReg sz _ _ | addxMem sz _ _ => cases sz <;> exact decodeOp_lineD ..
    case aslImm sz _ _ | aslReg sz _ _ | asrImm sz _ _ | asrReg sz _ _ => cases sz <;> exact decodeOp_lineE ..
    all_goals cases hea

/-! ## From words to an instruction, or to a reason -/

/-- What the decoder can answer about an operation word `w` that the words `ws` follow: a well-formed instruction with
the words it is encoded by, or a reason that says what the word is. -/
inductive Answers (w : Word16) (ws : List Word16) : Decoded → Prop
  | instr {i : Instr} {rest : List Word16} (hwf : i.wf = true) (hw : w :: ws = i.encode ++ rest) :
      Answers w ws (.ok (i, rest))
  | illegal (h : illegalWord w) : Answers w ws (.error .illegalInstruction)
  | lineA (h : opLine w = 10) : Answers w ws (.error .lineA)
  | lineF (h : opLine w = 15) : Answers w ws (.error .lineF)
  | notInSpec : Answers w ws (.error .notInSpec)
  | truncated (h : ws.length < 4) : Answers w ws (.error .truncated)

/-- Why an operand is not read: no mode, a mode outside the category, or too few words (an instruction has at most four
after its operation word, R91). -/
inductive OperandError (cat : EAKind → Bool) (bad : EAKind → DecodeError) (m x : Fin 8) (ws : List Word16) :
    DecodeError → Prop
  | noMode (h : decodeKind m x = none) : OperandError cat bad m x ws .illegalInstruction
  | outside {k : EAKind} (hk : decodeKind m x = some k) (hc : cat k = false) : OperandError cat bad m x ws (bad k)
  | truncated (h : ws.length < 4) : OperandError cat bad m x ws .truncated

theorem takeWord_error {ws : List Word16} {e : DecodeError} (h : takeWord ws = .error e) :
    e = .truncated ∧ ws.length < 1 := by
  cases ws with
  | nil => cases h; exact ⟨rfl, by decide⟩
  | cons => cases h

theorem takeLong_error {ws : List Word16} {e : DecodeError} (h : takeLong ws = .error e) :
    e = .truncated ∧ ws.length < 2 := by
  match ws, h with
  | [], rfl | [_], rfl => exact ⟨rfl, by simp⟩

theorem takeImm_error {sz : Size} {ws : List Word16} {e : DecodeError} (h : takeImm sz ws = .error e) :
    e = .truncated ∧ ws.length < 2 := by
  cases sz
  case l => exact takeLong_error h
  all_goals
    cases ws with
    | nil => cases h; exact ⟨rfl, by decide⟩
    | cons => cases h

theorem map_eq_error {α β : Type} {f : α → β} {x : Except DecodeError α} {e : DecodeError} :
    x.map f = .error e ↔ x = .error e := by
  cases x <;> simp [Except.map]

theorem decodeOperand_error {k : EAKind} {sz : Size} {x : RegNum} {ws : List Word16} {e : DecodeError}
    (h : decodeOperand k sz x ws = .error e) : e = .truncated ∧ ws.length < 2 := by
  cases k
  case dn | an | ind | postinc | predec => cases h
  case absL => exact takeLong_error (map_eq_error.mp h)
  case imm => exact takeImm_error (map_eq_error.mp h)
  all_goals
    obtain ⟨he, hl⟩ := takeWord_error (map_eq_error.mp h)
    exact ⟨he, by omega⟩

section
variable {cat : EAKind → Bool} {bad : EAKind → DecodeError} {line : Nat} {r o m x : Fin 8} {sz : Size}
  {ws : List Word16} {e : DecodeError}

theorem withEA_error {mk : EA → Instr} (h : withEA cat bad sz m x mk ws = .error e) :
    OperandError cat bad m x ws e := by
  have h := map_eq_error.mp h
  unfold decodeEA at h
  split at h
  · next hk => cases h; exact .noMode hk
  · next k hk =>
    split at h
    · obtain ⟨rfl, hl⟩ := decodeOperand_error h
      exact .truncated (by omega)
    · next hc => cases h; exact .outside hk (Bool.eq_false_iff.mpr hc)

theorem withImmEA_error {mk : Long → EA → Instr} (h : withImmEA bad sz m x mk ws = .error e) :
    OperandError (·.isDataAlterable) bad m x ws e := by
  unfold withImmEA at h
  split at h
  · next hk => cases h; exact .noMode hk
  · next k hk =>
    split at h
    · split at h
      · next v ws' hi =>
        obtain ⟨rfl, hl⟩ := decodeOperand_error (map_eq_error.mp h)
        obtain ⟨-, rfl⟩ := takeImm_ok hi
        refine .truncated ?_
        rw [List.length_append, immWords_length]
        have := Laws.EncodeLength.immCount_le sz
        omega
      · next hi =>
        cases h
        obtain ⟨rfl, hl⟩ := takeImm_error hi
        exact .truncated (by omega)
    · next hc => cases h; exact .outside hk (Bool.eq_false_iff.mpr hc)

theorem withBitEA_error {mk : BitVec 16 → EA → Instr} (h : withBitEA cat m x mk ws = .error e) :
    OperandError cat eaOutside m x ws e := by
  unfold withBitEA at h
  split at h
  · next hk => cases h; exact .noMode hk
  · next k hk =>
    split at h
    · cases ws with
      | nil => cases h; exact .truncated (by decide)
      | cons b ws =>
        obtain ⟨rfl, hl⟩ := decodeOperand_error (map_eq_error.mp h)
        exact .truncated (by rw [List.length_cons]; omega)
    · next hc => cases h; exact .outside hk (Bool.eq_false_iff.mpr hc)

/-- Every effective-address field with a mode is the field of an operand. -/
theorem exists_ea_of_decodeKind {m x : Fin 8} {k : EAKind} (h : decodeKind m x = some k) :
    ∃ ea : EA, ea.kind = k ∧ ea.mode = m ∧ ea.reg = x := by
  cases hd : decodeOperand k .w x [0, 0] with
  | error e => exact absurd (decodeOperand_error hd).2 (by decide)
  | ok p =>
    obtain ⟨hk, -, -, hx⟩ := decodeOperand_ok hd
    exact ⟨p.1, hk, decodeKind_some h p.1 hk hx⟩

/-- The reasons that a mode outside a category can give. -/
def Refuses (bad : EAKind → DecodeError) : Prop := ∀ k, bad k = .illegalInstruction ∨ bad k = .notInSpec

theorem refuses_eaIllegal : Refuses eaIllegal := fun _ => .inl rfl

theorem refuses_eaOutside : Refuses eaOutside := by intro k; cases k <;> simp [eaOutside]

theorem refuses_immToCcr (sz : Size) : Refuses (immToCcr sz) := by intro k; cases k <;> cases sz <;> simp [immToCcr]

/-- An operand that is not read, in the operation word of the form `mk` of instructions: R119 (b), (c), or R118. -/
theorem OperandError.answers {mk : EA → Instr} {own : EA → List Word16} (h : OperandError cat bad m x ws e)
    (hline : line < 16) (hbad : Refuses bad) (hea : ∀ ea, (mk ea).ea = some ea)
    (henc : ∀ ea, (mk ea).encode = opWord line r o ea.mode ea.reg :: own ea)
    (hill : ∀ ea : EA, ea.mode = m → ea.reg = x → IllegalMode cat bad ea.kind → (mk ea).illegalForm = true) :
    Answers (opWord line r o m x) ws (.error e) := by
  have hop (ea : EA) : (mk ea).opcode = opWord line r o ea.mode ea.reg := by rw [Instr.opcode, henc]; rfl
  cases h with
  | noMode h =>
    obtain ⟨rfl, hx⟩ := decodeKind_eq_none.mp h
    refine .illegal (.inr (.inl ⟨mk (.absW 0), x, hea _, hx, ?_⟩))
    rw [hop]
    exact (opWord_add line hline r o x).symm
  | outside hk hc =>
    obtain ⟨ea, rfl, rfl, rfl⟩ := exists_ea_of_decodeKind hk
    rcases hbad ea.kind with hb | hb <;> rw [hb]
    · exact .illegal (.inr (.inr ⟨mk ea, hill ea rfl rfl ⟨hc, hb⟩, (hop ea).symm⟩))
    · exact .notInSpec
  | truncated h => exact .truncated h

theorem withEA_answers {mk : EA → Instr} {d : Decoded} (hd : d = withEA cat bad sz m x mk ws) (hbad : Refuses bad)
    (hill : ∀ ea : EA, ea.mode = m → ea.reg = x → IllegalMode cat bad ea.kind → (mk ea).illegalForm = true)
    (hwf : ∀ ea, (mk ea).wf = ea.ok cat sz := by intros; rfl)
    (henc : ∀ ea, (mk ea).encode = encodeEA line r o [] sz ea := by intros; rfl)
    (hea : ∀ ea, (mk ea).ea = some ea := by intros; rfl) (hline : line < 16 := by decide) :
    Answers (opWord line r o m x) ws d := by
  rw [hd]
  cases h : withEA cat bad sz m x mk ws with
  | error e => exact (withEA_error h).answers hline hbad hea henc hill
  | ok p =>
    obtain ⟨i, rest⟩ := p
    obtain ⟨ea, hok, rfl, rfl, rfl, rfl⟩ := withEA_ok h
    exact .instr ((hwf ea).trans hok) (by rw [henc]; rfl)

theorem withImmEA_answers {mk : Long → EA → Instr} {d : Decoded} (hd : d = withImmEA bad sz m x mk ws)
    (hbad : Refuses bad) (hill : ∀ ea : EA, ea.mode = m → ea.reg = x →
      IllegalMode (·.isDataAlterable) bad ea.kind → (mk 0 ea).illegalForm = true)
    (hwf : ∀ v ea, (mk v ea).wf = (immFits sz v && ea.ok (·.isDataAlterable) sz) := by intros; rfl)
    (henc : ∀ v ea, (mk v ea).encode = encodeEA 0 r o (immWords sz v) sz ea := by intros; rfl)
    (hea : ∀ v ea, (mk v ea).ea = some ea := by intros; rfl) :
    Answers (opWord 0 r o m x) ws d := by
  rw [hd]
  cases h : withImmEA bad sz m x mk ws with
  | error e => exact (withImmEA_error h).answers (by decide) hbad (hea 0) (henc 0) hill
  | ok p =>
    obtain ⟨i, rest⟩ := p
    obtain ⟨v, ea, hv, hok, rfl, rfl, rfl, rfl⟩ := withImmEA_ok h
    exact .instr (by rw [hwf, hv, hok]; rfl) (by rw [henc, encodeEA, List.cons_append, List.append_assoc])

theorem withBitEA_answers {mk : BitVec 16 → EA → Instr} {d : Decoded} (hd : d = withBitEA cat m x mk ws)
    (hill : ∀ ea : EA, IllegalMode cat eaOutside ea.kind → (mk 0 ea).illegalForm = true)
    (hwf : ∀ b ea, (mk b ea).wf = ea.ok cat .b := by intros; rfl)
    (henc : ∀ b ea, (mk b ea).encode = encodeEA 0 4 o [b] .b ea := by intros; rfl)
    (hea : ∀ b ea, (mk b ea).ea = some ea := by intros; rfl) :
    Answers (opWord 0 4 o m x) ws d := by
  rw [hd]
  cases h : withBitEA cat m x mk ws with
  | error e => exact (withBitEA_error h).answers (by decide) refuses_eaOutside (hea 0) (henc 0) fun ea _ _ => hill ea
  | ok p =>
    obtain ⟨i, rest⟩ := p
    obtain ⟨b, ea, hok, rfl, rfl, rfl, rfl⟩ := withBitEA_ok h
    exact .instr ((hwf b ea).trans hok) (by rw [henc]; rfl)

end

/-- A form of two words, the second of any value. -/
theorem takeWord_answers {w : Word16} {ws : List Word16} {mk : Word16 → Instr} (hwf : ∀ d, (mk d).wf = true)
    (henc : ∀ d, (mk d).encode = [w, d]) : Answers w ws ((takeWord ws).map fun (d, ws) => (mk d, ws)) := by
  cases ws with
  | nil => exact .truncated (by decide)
  | cons d ws => exact .instr (hwf d) (by rw [henc]; rfl)

/-- The field at bits 8:6: a size with bit 8 clear or set, or size field 11 (R93, R98). -/
theorem opmode_cases (o : Fin 8) : (∃ sz : Size, o = sz.low) ∨ o = 3 ∨ (∃ sz : Size, o = sz.high) ∨ o = 7 := by
  match o with
  | 0 => exact .inl ⟨.b, rfl⟩
  | 1 => exact .inl ⟨.w, rfl⟩
  | 2 => exact .inl ⟨.l, rfl⟩
  | 3 => exact .inr (.inl rfl)
  | 4 => exact .inr (.inr (.inl ⟨.b, rfl⟩))
  | 5 => exact .inr (.inr (.inl ⟨.w, rfl⟩))
  | 6 => exact .inr (.inr (.inl ⟨.l, rfl⟩))
  | 7 => exact .inr (.inr (.inr rfl))

/-- Modes 000 and 001, which the two-register forms take (R101), and the others. -/
theorem mode_cases (m : Fin 8) : m = 0 ∨ m = 1 ∨ 2 ≤ m.val := by
  revert m; decide

/-- ANDI and EORI, the forms for SR among them (R110). -/
theorem decodeLine0_sr_answers {r m x : Fin 8} {sz : Size} {mk : Long → EA → Instr} {toSr : Word16 → Instr}
    {ws : List Word16} (hsr : decodeLine0 r 1 7 4 ws = (takeWord ws).map fun (d, ws) => (toSr d, ws))
    (hd : NotSr sz m x → decodeLine0 r sz.low m x ws = withImmEA (immToCcr sz) sz m x mk ws)
    (hill : ∀ ea, (mk 0 ea).illegalForm =
      (ea.kind == .an || (!ea.kind.isAlterable && (ea.kind != .imm || sz == .l))) := by intros; rfl)
    (hwf : ∀ v ea, (mk v ea).wf = (immFits sz v && ea.ok (·.isDataAlterable) sz) := by intros; rfl)
    (henc : ∀ v ea, (mk v ea).encode = encodeEA 0 r sz.low (immWords sz v) sz ea := by intros; rfl)
    (hea : ∀ v ea, (mk v ea).ea = some ea := by intros; rfl) (hsrwf : ∀ d, (toSr d).wf = true := by intros; rfl)
    (hsrenc : ∀ d, (toSr d).encode = [opWord 0 r 1 7 4, d] := by intros; rfl) :
    Answers (opWord 0 r sz.low m x) ws (decodeLine0 r sz.low m x ws) := by
  by_cases h : sz = .w ∧ m = 7 ∧ x = 4
  · obtain ⟨rfl, rfl, rfl⟩ := h
    exact hsr ▸ takeWord_answers hsrwf hsrenc
  · have hmx : NotSr sz m x := fun hw ⟨hm, hx⟩ => h ⟨hw, Fin.ext hm, Fin.ext hx⟩
    refine withImmEA_answers (hd hmx) (refuses_immToCcr sz) (fun ea hm hx hk => (hill ea).trans ?_) hwf henc hea
    subst hm hx
    exact (illegalMode_immToCcr sz ea).mpr ⟨hk, hmx⟩

theorem decodeLine0_answers (r o m x : Fin 8) (ws : List Word16) :
    Answers (opWord 0 r o m x) ws (decodeLine0 r o m x ws) := by
  rcases opmode_cases o with ⟨sz, rfl⟩ | rfl | ⟨sz, rfl⟩ | rfl
  · match r with
    | 1 => exact decodeLine0_sr_answers (toSr := .andiToSr) rfl decodeLine0_andi_not_sr
    | 3 =>
      exact withImmEA_answers decodeLine0_addi refuses_eaIllegal fun _ _ _ => (illegalMode_dataAlterable _).mpr
    | 4 =>
      cases sz with
      | b => exact withBitEA_answers decodeLine0_btstStatic fun _ => (illegalMode_btstStatic _).mpr
      | w => exact withBitEA_answers decodeLine0_bchgStatic fun _ => (illegalMode_bit _).mpr
      | l => exact withBitEA_answers decodeLine0_bclrStatic fun _ => (illegalMode_bit _).mpr
    | 5 => exact decodeLine0_sr_answers (toSr := .eoriToSr) rfl decodeLine0_eori_not_sr
    | 6 =>
      exact withImmEA_answers decodeLine0_cmpi refuses_eaIllegal fun _ _ _ => (illegalMode_dataAlterable _).mpr
    | 0 | 2 | 7 => cases sz <;> exact .notInSpec
  · match r with
    | 4 => exact withBitEA_answers decodeLine0_bsetStatic fun _ => (illegalMode_bit _).mpr
    | 0 | 1 | 2 | 3 | 5 | 6 | 7 => exact .notInSpec
  · cases sz with
    | b => exact withEA_answers (decodeLine0_btstDyn r) refuses_eaOutside fun _ _ _ => (illegalMode_btstDyn _).mpr
    | w => exact withEA_answers (decodeLine0_bchgDyn r) refuses_eaOutside fun _ _ _ => (illegalMode_bit _).mpr
    | l => exact withEA_answers (decodeLine0_bclrDyn r) refuses_eaOutside fun _ _ _ => (illegalMode_bit _).mpr
  · exact withEA_answers (decodeLine0_bsetDyn r) refuses_eaOutside fun _ _ _ => (illegalMode_bit _).mpr

theorem decodeLine4_answers (r o m x : Fin 8) (ws : List Word16) :
    Answers (opWord 4 r o m x) ws (decodeLine4 r o m x ws) := by
  unfold decodeLine4
  split
  · next ho =>
    obtain rfl : o = 6 := Fin.ext ho
    exact withEA_answers rfl refuses_eaIllegal fun _ _ _ => (illegalMode_data _).mpr
  · split
    · next hr =>
      obtain rfl : r = 1 := Fin.ext hr
      split
      · next sz hs =>
        obtain rfl : sz.low = o := Fin.ext (by cases sz <;> exact (sizeField_some hs).symm)
        exact withEA_answers rfl refuses_eaIllegal fun _ _ _ => (illegalMode_dataAlterable _).mpr
      · exact .notInSpec
    · next hr =>
      obtain rfl : r = 4 := Fin.ext hr
      split
      · next hm =>
        obtain rfl : m = 0 := Fin.ext hm
        match o with
        | 2 | 3 => exact .instr rfl rfl
        | 0 | 1 | 4 | 5 | 6 | 7 => exact .notInSpec
      · exact .notInSpec
    · next hr =>
      obtain rfl : r = 5 := Fin.ext hr
      split
      · next h =>
        obtain ⟨ho, hm, hx⟩ := h
        obtain rfl : o = 3 := Fin.ext ho
        obtain rfl : m = 7 := Fin.ext hm
        obtain rfl : x = 4 := Fin.ext hx
        exact .illegal (.inl rfl)
      · exact .notInSpec
    · exact .notInSpec

/-- The conditions of DBcc by their codes (R107). -/
theorem dbccOf_encode {c : Nat} (hc : c < 16) (n : RegNum) (d16 : BitVec 16) :
    (dbccOf c n d16).wf = true ∧ (dbccOf c n d16).encode = encodeDbcc c n d16 := by
  interval_cases c <;> exact ⟨rfl, rfl⟩

/-- BRA, BSR and the conditions of Bcc by their codes (R107). -/
theorem branchOf_encode {c : Nat} (hc : c < 16) (d : Disp) :
    (branchOf c d).wf = d.wf ∧ (branchOf c d).encode = encodeBranch c d := by
  interval_cases c <;> exact ⟨rfl, rfl⟩

theorem decodeLine5_answers (r o m x : Fin 8) (ws : List Word16) :
    Answers (opWord 5 r o m x) ws (decodeLine5 r o m x ws) := by
  unfold decodeLine5
  split
  · next hs =>
    split
    · next hm =>
      obtain rfl : m = 1 := Fin.ext hm
      have h3 := sizeField_none hs
      have hc : r.val * 2 + o.val / 4 < 16 := by omega
      have hr : Fin.ofNat 8 ((r.val * 2 + o.val / 4) / 2) = r := Fin.ext (by simp only [Fin.val_ofNat]; omega)
      have ho : Fin.ofNat 8 ((r.val * 2 + o.val / 4) % 2 * 4 + 3) = o := Fin.ext (by simp only [Fin.val_ofNat]; omega)
      refine takeWord_answers (fun d => (dbccOf_encode hc x d).1) fun d => ?_
      rw [(dbccOf_encode hc x d).2, encodeDbcc, hr, ho]
    · exact .notInSpec
  · next sz hs =>
    split
    · next h4 =>
      obtain rfl := low_of_sizeField hs h4
      exact withEA_answers rfl refuses_eaIllegal fun _ _ _ => (illegalMode_addq sz _).mpr
    · exact .notInSpec

theorem decodeLine6_answers {w : Word16} (h : opLine w = 6) (ws : List Word16) : Answers w ws (decodeLine6 w ws) := by
  have hc : w.toNat / 256 % 16 < 16 := by omega
  have hw : w.toNat = 6 * 4096 + w.toNat / 256 % 16 * 256 + w.toNat % 256 := by unfold opLine at h; omega
  have he : BitVec.ofNat 16 w.toNat = w := by rw [BitVec.ofNat_toNat, BitVec.setWidth_eq]
  unfold decodeLine6
  dsimp only
  split
  · next h0 =>
    have h0 : w.toNat % 256 = 0 := by simpa using congrArg BitVec.toNat h0
    refine takeWord_answers (fun d => (branchOf_encode hc (.word d)).1) fun d => ?_
    rw [h0, Nat.add_zero] at hw
    rw [(branchOf_encode hc _).2, encodeBranch, ← hw, he]
  · next h0 =>
    refine .instr ((branchOf_encode hc _).1.trans (bne_iff_ne.mpr h0)) ?_
    rw [(branchOf_encode hc _).2, encodeBranch, BitVec.toNat_ofNat, ← hw, he]
    rfl

theorem decodeLine8_answers (r o m x : Fin 8) (ws : List Word16) :
    Answers (opWord 8 r o m x) ws (decodeLine8 r o m x ws) := by
  match o with
  | 3 => exact withEA_answers (decodeLine8_divu r) refuses_eaIllegal fun _ _ _ => (illegalMode_data _).mpr
  | 7 => exact withEA_answers (decodeLine8_divs r) refuses_eaIllegal fun _ _ _ => (illegalMode_data _).mpr
  | 0 | 1 | 2 | 4 | 5 | 6 => exact .notInSpec

theorem decodeLineB_answers (r o m x : Fin 8) (ws : List Word16) :
    Answers (opWord 11 r o m x) ws (decodeLineB r o m x ws) := by
  rcases opmode_cases o with ⟨sz, rfl⟩ | rfl | ⟨sz, rfl⟩ | rfl
  · exact withEA_answers (decodeLineB_cmp r) refuses_eaIllegal fun _ _ _ => (illegalMode_fitsSize sz _).mpr
  · exact withEA_answers (decodeLineB_cmpaW r) refuses_eaIllegal fun _ _ _ => (illegalMode_any _).mpr
  · by_cases hm : m = 1
    · subst hm
      cases sz <;> exact .instr rfl rfl
    · have hm : m.val ≠ 1 := fun h => hm (Fin.ext h)
      exact withEA_answers (decodeLineB_eor r hm) refuses_eaIllegal fun ea he _ hk =>
        (illegalMode_eor ea).mpr ⟨hk, he ▸ hm⟩
  · exact withEA_answers (decodeLineB_cmpaL r) refuses_eaIllegal fun _ _ _ => (illegalMode_any _).mpr

theorem decodeLineC_answers (r o m x : Fin 8) (ws : List Word16) :
    Answers (opWord 12 r o m x) ws (decodeLineC r o m x ws) := by
  rcases opmode_cases o with ⟨sz, rfl⟩ | rfl | ⟨sz, rfl⟩ | rfl
  · exact withEA_answers (decodeLineC_low r) refuses_eaIllegal fun _ _ _ => (illegalMode_data _).mpr
  · exact .notInSpec
  · rcases mode_cases m with rfl | rfl | hm
    · cases sz with
      | b | w => exact .instr rfl rfl
      | l => exact .notInSpec
    · cases sz <;> exact .instr rfl rfl
    · exact withEA_answers (decodeLineC_high r hm) refuses_eaIllegal fun ea he _ hk =>
        (illegalMode_mem ea).mpr ⟨hk, he ▸ hm⟩
  · exact .notInSpec

theorem decodeLineD_answers (r o m x : Fin 8) (ws : List Word16) :
    Answers (opWord 13 r o m x) ws (decodeLineD r o m x ws) := by
  rcases opmode_cases o with ⟨sz, rfl⟩ | rfl | ⟨sz, rfl⟩ | rfl
  · exact withEA_answers (decodeLineD_low r) refuses_eaIllegal fun _ _ _ => (illegalMode_fitsSize sz _).mpr
  · exact withEA_answers (decodeLineD_addaW r) refuses_eaIllegal fun _ _ _ => (illegalMode_any _).mpr
  · rcases mode_cases m with rfl | rfl | hm
    · cases sz <;> exact .instr rfl rfl
    · cases sz <;> exact .instr rfl rfl
    · exact withEA_answers (decodeLineD_high r hm) refuses_eaIllegal fun ea he _ hk =>
        (illegalMode_mem ea).mpr ⟨hk, he ▸ hm⟩
  · exact withEA_answers (decodeLineD_addaL r) refuses_eaIllegal fun _ _ _ => (illegalMode_any _).mpr

/-- The shifts of a register, ASR with bit 8 clear and ASL with bit 8 set (R117). -/
theorem decodeLineE_register_answers (sz : Size) (r m x : Fin 8) (ws : List Word16) :
    Answers (opWord 14 r sz.low m x) ws (decodeLineE r sz.low m x ws) ∧
      Answers (opWord 14 r sz.high m x) ws (decodeLineE r sz.high m x ws) := by
  match m with
  | 0 | 4 => cases sz <;> exact ⟨.instr rfl rfl, .instr rfl rfl⟩
  | 1 | 2 | 3 | 5 | 6 | 7 => cases sz <;> exact ⟨.notInSpec, .notInSpec⟩

theorem decodeLineE_answers (r o m x : Fin 8) (ws : List Word16) :
    Answers (opWord 14 r o m x) ws (decodeLineE r o m x ws) := by
  rcases opmode_cases o with ⟨sz, rfl⟩ | rfl | ⟨sz, rfl⟩ | rfl
  · exact (decodeLineE_register_answers ..).1
  · match r with
    | 0 => exact withEA_answers decodeLineE_asrMem refuses_eaOutside fun _ _ _ => (illegalMode_shift _).mpr
    | 1 | 2 | 3 | 4 | 5 | 6 | 7 => exact .notInSpec
  · exact (decodeLineE_register_answers ..).2
  · match r with
    | 0 => exact withEA_answers decodeLineE_aslMem refuses_eaOutside fun _ _ _ => (illegalMode_shift _).mpr
    | 1 | 2 | 3 | 4 | 5 | 6 | 7 => exact .notInSpec

theorem Answers.of_opLine {w : Word16} {ws : List Word16} {line : Nat} {d : Decoded} (h : opLine w = line)
    (ha : Answers (opWord line (opField w 9) (opField w 6) (opField w 3) (opField w 0)) ws d) : Answers w ws d := by
  rwa [← h, opWord_fields] at ha

/-- Every answer of the decoder, by the line of the operation word (R110 to R120). -/
theorem decodeOp_answers (w : Word16) (ws : List Word16) : Answers w ws (decodeOp w ws) := by
  unfold decodeOp
  split
  · next h => exact .of_opLine h (decodeLine0_answers ..)
  · next h => exact .of_opLine h (decodeLine4_answers ..)
  · next h => exact .of_opLine h (decodeLine5_answers ..)
  · next h => exact decodeLine6_answers h ws
  · next h => exact .of_opLine h (decodeLine8_answers ..)
  · next h => exact .lineA h
  · next h => exact .of_opLine h (decodeLineB_answers ..)
  · next h => exact .of_opLine h (decodeLineC_answers ..)
  · next h => exact .of_opLine h (decodeLineD_answers ..)
  · next h => exact .of_opLine h (decodeLineE_answers ..)
  · next h => exact .lineF h
  · exact .notInSpec

/-- Settles O3: an answer that is an instruction has the words of its encoding. -/
theorem decodeThenEncode : Obligations.DecodeThenEncode := by
  intro ws rest i h
  cases ws with
  | nil => cases h
  | cons w ws =>
    have ha := decodeOp_answers w ws
    rw [show decodeOp w ws = .ok (i, rest) from h] at ha
    cases ha with
    | instr hwf hw => exact ⟨hwf, hw⟩

/-! ## Words that are no instruction -/

/-- A step at an operation word that the decoder rejects. -/
theorem step_of_rejected {s : State} {w : Word16} {e : DecodeError} (hl : s.resetLine = false)
    (hh : s.params.haltAddr ≠ some s.pc) (hw : s.load s.pc .w = some w) (he : decodeOp w [0, 0, 0, 0] = .error e) :
    step s = andThen (reject e s) State.takeIrq := by
  have hf : s.fetch16 s.pc = .next w := memRead_eq_next.mpr hw
  have hs : decodeShape w = .error e := by simp only [decodeShape, decodeWords, he]
  rw [step_eq_runOne hl hh, State.runOne, hf, andThen_next, hs]

/-- The forms of R119 (c) have an operand. -/
theorem ea_isSome_of_illegalForm {i : Instr} : i.illegalForm = true → i.ea.isSome = true := by
  cases i <;> simp [Instr.illegalForm, Instr.ea]

/-- An encoding starts with the operation word (R95). -/
theorem encode_eq_cons (i : Instr) : ∃ ws, i.encode = i.opcode :: ws := by
  cases i
  case bra d | bsr d | bhi d | bls d | bcc d | bcs d | bne d | beq d | bvc d | bvs d | bpl d | bmi d | bge d | blt d
      | bgt d | ble d => cases d <;> exact ⟨_, rfl⟩
  all_goals exact ⟨_, rfl⟩

/-- A word of R119 is rejected as illegal, whatever follows it. -/
theorem decodeOp_illegal {w : Word16} (h : illegalWord w) (ws : List Word16) :
    decodeOp w ws = .error .illegalInstruction := by
  rcases h with rfl | ⟨i, x, hea, hx, rfl⟩ | ⟨i, hill, rfl⟩
  · rfl
  · exact (OperandForm.of_ea hea).noMode rfl x hx ws
  · obtain ⟨ea, hea⟩ := Option.isSome_iff_exists.mp (ea_isSome_of_illegalForm hill)
    exact (OperandForm.of_ea hea).outside hill ws

/-- A word that is none of the others is rejected as not in this spec (R118). -/
theorem decodeOp_unassigned {w : Word16} (hA : opLine w ≠ 10) (hF : opLine w ≠ 15) (hill : ¬illegalWord w)
    (hi : ∀ i : Instr, i.wf = true → i.opcode ≠ w) : decodeOp w [0, 0, 0, 0] = .error .notInSpec := by
  have ha := decodeOp_answers w [0, 0, 0, 0]
  generalize decodeOp w [0, 0, 0, 0] = d at ha ⊢
  cases ha with
  | @instr i rest hwf hw =>
    obtain ⟨ws, henc⟩ := encode_eq_cons i
    rw [henc, List.cons_append] at hw
    exact absurd (List.head_eq_of_cons_eq hw).symm (hi i hwf)
  | illegal h => exact absurd h hill
  | lineA h => exact absurd h hA
  | lineF h => exact absurd h hF
  | notInSpec => rfl
  | truncated h => exact absurd h (by decide)

/-- Settles O5: the decoder's answer at the word is the step's. -/
theorem unassignedWordsTrap : Obligations.UnassignedWordsTrap := by
  refine ⟨rfl, rfl, rfl, fun s w hl hh hw => ⟨fun h => ?_, fun h => ?_, fun h => ?_, fun hA hF hill hi => ?_⟩⟩
  · exact step_of_rejected hl hh hw (e := .lineA) (by simp only [decodeOp, opLine, h])
  · exact step_of_rejected hl hh hw (e := .lineF) (by simp only [decodeOp, opLine, h])
  · have hill : illegalWord w := h.elim .inl id
    exact step_of_rejected hl hh hw (decodeOp_illegal hill _)
  · exact step_of_rejected hl hh hw (decodeOp_unassigned hA hF hill hi)

end Sys2Proof.Machine
end

section
/-! PROOFS. ADDI and ADDQ (41_add.md): one read-modify-write of the destination. -/

namespace Sys2Proof.Machine

open Sys2Proof

theorem addResult_false {k : Nat} (s d : BitVec k) : addResult s d false = d + s := by
  simp [addResult_eq]

theorem addi_ilen (sz : Size) (imm : Long) (ea : EA) :
    (Instr.addi sz imm ea).ilen = 2 + 2 * sz.immCount + 2 * ea.extCount sz := by
  simp only [Instr.ilen, Instr.words]; omega

theorem addq_ilen (sz : Size) (data : Fin 8) (ea : EA) : (Instr.addq sz data ea).ilen = 2 + 2 * ea.extCount sz := by
  simp only [Instr.ilen, Instr.words]; omega

/-- Where a result can be put, ADDQ is an addition to that operand, and not one of 32 bits (R145). -/
theorem execAddq_of_canPut {sz : Size} {data : Fin 8} {ea : EA} {s : State} {ext : Long}
    (h : s.canPut sz ea ext = true) :
    execAddq sz data ea s =
      thenAdvance (s.modifyEA sz ea (s.extAt 0) fun d =>
        (addResult (BitVec.ofNat sz.bits (quickData data)) d false,
          addFlags (BitVec.ofNat sz.bits (quickData data)) d false)) (Instr.addq sz data ea).ilen := by
  cases ea
  case an => cases h
  all_goals rfl

/-- ADDQ's field 000 is 8 (R102). -/
theorem quickData_eq (data : Fin 8) : quickData data = if data = 0 then 8 else data.val := by
  simp only [quickData, Fin.val_eq_zero_iff]

/-- Settles O35: each is one read-modify-write of its destination. -/
theorem addImmediate : Obligations.AddImmediate := by
  refine ⟨fun sz imm ea s d hd hs => ?_, fun sz data ea s d hd hs => ?_⟩
  · rw [← addi_ilen sz imm, ← addResult_false]
    exact thenAdvance_eq_next.mpr ⟨_, modifyEA_of_operand _ hd hs, rfl⟩
  · intro q
    have hq : BitVec.ofNat sz.bits (quickData data) = q := by rw [quickData_eq]
    rw [← addq_ilen sz data, ← addResult_false, ← hq]
    exact (execAddq_of_canPut hs).trans (thenAdvance_eq_next.mpr ⟨_, modifyEA_of_operand _ hd hs, rfl⟩)

end Sys2Proof.Machine
end

section
/-! PROOFS. ABCD (40_abcd.md): the decimal sum, what it draws, and where its result goes. -/

namespace Sys2Proof.Machine

open Sys2Proof

/-! ## The decimal sum (R130) -/

theorem isBcd_iff {b : Byte} : isBcd b = true ↔ b.toNat / 16 ≤ 9 ∧ b.toNat % 16 ≤ 9 := by simp [isBcd]

theorem bcdValue_lt {b : Byte} (h : isBcd b = true) : bcdValue b < 100 := by
  obtain ⟨htens, hunits⟩ := isBcd_iff.mp h
  unfold bcdValue
  omega

/-- Two decimal digits, packed: the byte's nibbles are the digits. -/
theorem bcd_packed {m : Nat} (h : m < 100) :
    isBcd (BitVec.ofNat 8 (m / 10 * 16 + m % 10)) = true ∧ bcdValue (BitVec.ofNat 8 (m / 10 * 16 + m % 10)) = m := by
  have hb : (BitVec.ofNat 8 (m / 10 * 16 + m % 10)).toNat = m / 10 * 16 + m % 10 := by
    rw [BitVec.toNat_ofNat]; omega
  rw [isBcd_iff, bcdValue, hb]
  omega

theorem isBcd_bcdAdd (src dst : Byte) (x : Bool) : isBcd (bcdAdd src dst x).1 = true :=
  (bcd_packed (Nat.mod_lt _ (by decide))).1

/-- The result's digits and the carry, which counts 100, are the sum: two decimal bytes and `X` are below 200. -/
theorem bcdValue_bcdAdd {src dst : Byte} (hs : isBcd src = true) (hd : isBcd dst = true) (x : Bool) :
    bcdValue (bcdAdd src dst x).1 + (if (bcdAdd src dst x).2 then 100 else 0) =
      bcdValue dst + bcdValue src + x.toNat := by
  have hs := bcdValue_lt hs
  have hd := bcdValue_lt hd
  have hx := Bool.toNat_le x
  have hr : bcdValue (bcdAdd src dst x).1 = (bcdValue dst + bcdValue src + x.toNat) % 100 :=
    (bcd_packed (Nat.mod_lt _ (by decide))).2
  rw [hr]
  simp only [bcdAdd, decide_eq_true_eq]
  split <;> omega

theorem bcdSum_of_isBcd (s : State) {src dst : Byte} (hs : isBcd src = true) (hd : isBcd dst = true) :
    s.bcdSum src dst = .next (bcdAdd src dst s.sr.x, s) := by
  simp [State.bcdSum, hs, hd]

theorem bcdSum_of_draw {s : State} (h : s.params.bcdInvalid = .draw) (src dst : Byte) :
    ∃ r c k, s.bcdSum src dst = .next ((r, c), s.drawn k) := by
  unfold State.bcdSum
  split
  · exact ⟨_, _, 0, rfl⟩
  · rw [h]
    exact ⟨_, _, 2, rfl⟩

theorem bcdSum_of_refuse {s : State} (h : s.params.bcdInvalid = .refuse) {src dst : Byte}
    (hb : isBcd src = false ∨ isBcd dst = false) : s.bcdSum src dst = .refused .nonDecimalDigit := by
  have hb : (isBcd src && isBcd dst) = false := by simpa only [Bool.and_eq_false_iff] using hb
  simp [State.bcdSum, hb, h]

/-! ## The flags (R131) -/

theorem stickyZ_eq {k : Nat} (sticky : Bool) (r : BitVec k) (old : Bool) :
    stickyZ sticky r old = if sticky then old && r == 0 else r == 0 := by
  unfold stickyZ
  by_cases hr : r = 0#k
  · simp [hr]
  · have hz : (r == 0#k) = false := beq_eq_false_iff_ne.mpr hr
    simp [hr, hz]

/-- `X` and `C` are the carry, `Z` is sticky; `N` and `V` are two more free values. -/
theorem bcdFlags_drawn {s t : State} (hp : t.params = s.params) (hr : t.sr = s.sr) (k : Nat) (r : Byte) (c : Bool) :
    ∃ n v, (t.drawn k).bcdFlags r c =
      (t.setFlags ⟨c, n, if s.params.xzSticky then s.sr.z && r == 0 else r == 0, v, c⟩).drawn (k + 2) := by
  rw [← stickyZ_eq, ← hp, ← hr]
  exact ⟨_, _, rfl⟩

/-! ## The two forms (R131, R132) -/

@[simp] theorem stored_drawn (s : State) (k : Nat) (a : Long) (sz : Size) (v : BitVec sz.bits) :
    (s.drawn k).stored a sz v = (s.stored a sz v).drawn k := by
  apply State.eq_of_fields <;> simp
  exact stored_mem_congr (s := s) (t := s.drawn k) rfl rfl a sz v

/-- ABCD of registers completes with the sum's byte in the low byte of `Dx`. -/
theorem exec_abcdReg_of_sum {s : State} {y x : RegNum} {r : Byte} {c : Bool} {k : Nat}
    (h : s.bcdSum (s.readD y .b) (s.readD x .b) = .next ((r, c), s.drawn k)) :
    ∃ n v k', exec (.abcdReg y x) s =
      .next ((((s.writeD x .b r).setFlags
        ⟨c, n, if s.params.xzSticky then s.sr.z && r == 0 else r == 0, v, c⟩).drawn k').advance 2) := by
  obtain ⟨n, v, hf⟩ := bcdFlags_drawn (s := s) (t := s.writeD x .b r) rfl rfl k r c
  refine ⟨n, v, k + 2, ?_⟩
  change execAbcdReg y x s = _
  rw [execAbcdReg, h]
  exact congrArg (fun t : State => Host.Outcome.next (t.advance 2)) hf

section
variable {s u : State} {y x : RegNum} {src dst : Byte} (hu : s.eaUpdate .b (.predec y) = u)
  (hs : s.operand .b (.predec y) (s.extAt 0) = some src) (hd : u.operand .b (.predec x) (s.extAt 0) = some dst)
include hu hs hd

/-- ABCD in memory, once both bytes have been read: the sum is taken, then stored at the destination's address. -/
theorem exec_abcdMem_of_operands :
    exec (.abcdMem y x) s =
      andThen ((u.eaUpdate .b (.predec x)).bcdSum src dst) fun p =>
      andThen (p.2.memWrite (u.eaAddress .b (.predec x) (s.extAt 0)) .b p.1.1) fun t =>
      .next ((t.bcdFlags p.1.1 p.1.2).advance 2) := by
  have hread : (u.eaUpdate .b (.predec x)).memRead (u.eaAddress .b (.predec x) (s.extAt 0)) .b .read = .next dst :=
    memRead_eq_next.mpr ((load_eaUpdate ..).trans hd)
  change execAbcdMem y x s = _
  rw [execAbcdMem, readEA_of_operand hs, andThen_next, hu, eaAddr_mem rfl rfl, andThen_next, hread, andThen_next]
  rfl

/-- ABCD in memory completes with the sum's byte put into the destination, where it takes one. -/
theorem exec_abcdMem_of_sum {r : Byte} {c : Bool} {k : Nat} (hp : u.canPut .b (.predec x) (s.extAt 0) = true)
    (h : (u.eaUpdate .b (.predec x)).bcdSum src dst = .next ((r, c), (u.eaUpdate .b (.predec x)).drawn k)) :
    ∃ n v k', exec (.abcdMem y x) s =
      .next ((((u.put .b (.predec x) (s.extAt 0) r).setFlags
        ⟨c, n, if s.params.xzSticky then s.sr.z && r == 0 else r == 0, v, c⟩).drawn k').advance 2) := by
  have hwrite : ((u.eaUpdate .b (.predec x)).drawn k).memWrite (u.eaAddress .b (.predec x) (s.extAt 0)) .b r =
      .next ((u.put .b (.predec x) (s.extAt 0) r).drawn k) :=
    memWrite_eq_next.mpr ⟨(storable_congr (by simp) _ _).trans hp, (stored_drawn ..).symm⟩
  obtain ⟨n, v, hf⟩ := bcdFlags_drawn (s := s) (t := u.put .b (.predec x) (s.extAt 0) r)
    (by simp [← hu]) (by simp [← hu]) k r c
  refine ⟨n, v, k + 2, ?_⟩
  rw [exec_abcdMem_of_operands hu hs hd, h, andThen_next, hwrite, andThen_next, ← hf]

end

/-- Settles O38: the sum's cases, each with its byte in `Dx`. -/
theorem abcdRegisters : Obligations.AbcdRegisters := by
  intro y x s
  refine ⟨fun hs hd => ?_, fun hdraw => ?_, fun href hb => ?_⟩
  · obtain ⟨n, v, k, hx⟩ := exec_abcdReg_of_sum (k := 0) (bcdSum_of_isBcd s hs hd)
    exact ⟨_, _, n, v, k, isBcd_bcdAdd .., bcdValue_bcdAdd hs hd _, hx⟩
  · obtain ⟨r, c, k, hsum⟩ := bcdSum_of_draw hdraw (s.readD y .b) (s.readD x .b)
    exact ⟨r, c, exec_abcdReg_of_sum hsum⟩
  · exact andThen_of_refused (bcdSum_of_refuse href hb)

/-- Settles O39: the sum's cases, each with its byte at the destination's predecremented address. -/
theorem abcdMemory : Obligations.AbcdMemory := by
  intro y x s src dst u hs hd
  have hx : (u.eaUpdate .b (.predec x)).sr.x = s.sr.x := by simp [u]
  have hparams : (u.eaUpdate .b (.predec x)).params = s.params := by simp [u]
  refine ⟨fun hsrc hdst hp => ?_, fun hdraw hp => ?_, fun href hb => ?_⟩
  · have hsum := bcdSum_of_isBcd (u.eaUpdate .b (.predec x)) hsrc hdst
    rw [hx] at hsum
    obtain ⟨n, v, k, he⟩ := exec_abcdMem_of_sum (k := 0) rfl hs hd hp hsum
    exact ⟨_, _, n, v, k, isBcd_bcdAdd .., bcdValue_bcdAdd hsrc hdst _, he⟩
  · obtain ⟨r, c, k, hsum⟩ := bcdSum_of_draw (hparams ▸ hdraw) src dst
    exact ⟨r, c, exec_abcdMem_of_sum rfl hs hd hp hsum⟩
  · rw [exec_abcdMem_of_operands rfl hs hd]
    exact andThen_of_refused (bcdSum_of_refuse (hparams ▸ href) hb)

end Sys2Proof.Machine
end

section
/-! PROOFS. ADD, ADDA, ADDQ into an address register, and ADDX (41_add.md): where the sum goes, and the flags of each. -/

namespace Sys2Proof.Machine

open Sys2Proof

/-! ## ADD (R141, R142) -/

theorem addEaDn_ilen (sz : Size) (ea : EA) (n : RegNum) : (Instr.addEaDn sz ea n).ilen = 2 + 2 * ea.extCount sz :=
  mul_one_add 2 _

theorem addDnEa_ilen (sz : Size) (n : RegNum) (ea : EA) : (Instr.addDnEa sz n ea).ilen = 2 + 2 * ea.extCount sz :=
  mul_one_add 2 _

theorem isMem_of_isMemAlterable {k : EAKind} (h : k.isMemAlterable = true) : k.isMem = true := by
  cases k
  case pcDisp | pcIndex | dn | an | imm => cases h
  all_goals rfl

/-- Settles O33: the source's side effect changes address registers alone, so `Dn` is read as it stood. -/
theorem addToDataRegister : Obligations.AddToDataRegister := by
  intro sz ea n s v hv
  have hd : (s.eaUpdate sz ea).readD n sz = s.readD n sz := readD_congr (eaUpdate_d ..) n sz
  change execAddEaDn sz ea n s = _
  rw [execAddEaDn, readEA_of_operand hv, andThen_next, hd, ← addEaDn_ilen sz ea n, ← addResult_false]

/-- Settles O34: one read-modify-write of the memory operand. -/
theorem addToMemory : Obligations.AddToMemory := by
  intro sz ea n s d hm hd hs
  rw [← addDnEa_ilen sz n, ← addResult_false]
  exact thenAdvance_eq_next.mpr ⟨_, modifyMem_of_operand _ (isMem_of_isMemAlterable hm) hd hs, rfl⟩

/-! ## ADDA, and ADDQ into an address register (R143, R145) -/

theorem addaW_ilen (ea : EA) (n : RegNum) : (Instr.addaW ea n).ilen = 2 + 2 * ea.extCount .w := mul_one_add 2 _

theorem addaL_ilen (ea : EA) (n : RegNum) : (Instr.addaL ea n).ilen = 2 + 2 * ea.extCount .l := mul_one_add 2 _

/-- The flags after an addition into an address register, by `ADDA_CCR`. -/
theorem addaFlags_eq (s : State) (src old : Long) :
    ∃ f k, s.addaFlags src old = (s.setFlags f).drawn k ∧
      (s.params.addaCcr = .unaffected → f = s.flags ∧ k = 0) ∧
      (s.params.addaCcr = .perSource → f = addFlags src old false ∧ k = 0) := by
  unfold State.addaFlags
  cases s.params.addaCcr
  case unaffected => exact ⟨s.flags, 0, rfl, fun _ => ⟨rfl, rfl⟩, nofun⟩
  case perSource => exact ⟨_, 0, rfl, nofun, fun _ => ⟨rfl, rfl⟩⟩
  case draw => exact ⟨_, 5, rfl, nofun, nofun⟩

/-- An instruction that ends in an addition into `An` of a state `u` with the status register and the parameters of
`s`. -/
theorem completes_of_addToA {s u : State} (hsr : u.sr = s.sr) (hparams : u.params = s.params) {x : Res State}
    {n : RegNum} {src : Long} {bytes : Nat} (hx : x = .next ((u.addToA n src).advance bytes)) :
    ∃ f k, x = .next ((((u.writeA n (u.readA n + src)).setFlags f).drawn k).advance bytes) ∧
      (s.params.addaCcr = .unaffected → f = s.flags ∧ k = 0) ∧
      (s.params.addaCcr = .perSource → f = addFlags src (u.readA n) false ∧ k = 0) := by
  obtain ⟨f, k, he, hf⟩ := addaFlags_eq (u.writeA n (u.readA n + src)) src (u.readA n)
  rw [State.flags, writeA_sr, writeA_params, hsr, hparams] at hf
  exact ⟨f, k, by rw [hx, State.addToA, he], hf⟩

/-- Settles O36: the three forms add into `An` after the source has been read, ADDQ at once. -/
theorem addToAddressRegister : Obligations.AddToAddressRegister := by
  refine ⟨fun ea n s v hv => ?_, fun ea n s v hv => ?_, fun sz data n s => ?_⟩
  · refine completes_of_addToA (eaUpdate_sr ..) (eaUpdate_params ..) ?_
    change execAddaW ea n s = _
    rw [execAddaW, readEA_of_operand hv, andThen_next, addaW_ilen]
  · refine completes_of_addToA (eaUpdate_sr ..) (eaUpdate_params ..) ?_
    change execAddaL ea n s = _
    rw [execAddaL, readEA_of_operand hv, andThen_next, addaL_ilen]
  · refine completes_of_addToA rfl rfl ?_
    rw [← quickData_eq]
    rfl

/-! ## ADDX (R146, R147, R149) -/

theorem addxFlags_eq {k : Nat} (sticky : Bool) (s d : BitVec k) (old : Flags) :
    addxFlags sticky s d old =
      let r := d + s + BitVec.ofNat k old.x.toNat
      { addFlags s d old.x with z := if sticky then old.z && r == 0 else r == 0 } := by
  rw [addxFlags, stickyZ_eq, addResult_eq]

/-- Settles O37: ADDX in memory is a read of the source, then one read-modify-write of the destination. -/
theorem addExtended : Obligations.AddExtended := by
  refine ⟨fun sz y x s => ?_, fun sz y x s v d hv hd hs => ?_⟩
  · change execAddxReg sz y x s = _
    rw [execAddxReg, addxFlags_eq, addResult_eq]
    rfl
  · change execAddxMem sz y x s = _
    rw [execAddxMem, readEA_of_operand hv, andThen_next]
    refine thenAdvance_eq_next.mpr ⟨_, modifyMem_of_operand _ rfl hd hs, ?_⟩
    rw [addxFlags_eq, addResult_eq]
    rfl

end Sys2Proof.Machine
end

section
/-! PROOFS. AND, ANDI, EOR, EORI, and the two that write SR (42_and.md, 49_eor_exg_ext.md): the operand forms are a read
or one read-modify-write, as for ADD; SR keeps of a written word the implemented bits. -/

namespace Sys2Proof.Machine

open Sys2Proof

/-! ## The operand forms (R161 to R163, R281, R283) -/

theorem andEaDn_ilen (sz : Size) (ea : EA) (n : RegNum) : (Instr.andEaDn sz ea n).ilen = 2 + 2 * ea.extCount sz :=
  mul_one_add 2 _

theorem andDnEa_ilen (sz : Size) (n : RegNum) (ea : EA) : (Instr.andDnEa sz n ea).ilen = 2 + 2 * ea.extCount sz :=
  mul_one_add 2 _

theorem eor_ilen (sz : Size) (n : RegNum) (ea : EA) : (Instr.eor sz n ea).ilen = 2 + 2 * ea.extCount sz :=
  mul_one_add 2 _

theorem andi_ilen (sz : Size) (imm : Long) (ea : EA) :
    (Instr.andi sz imm ea).ilen = 2 + 2 * sz.immCount + 2 * ea.extCount sz :=
  addi_ilen sz imm ea

theorem eori_ilen (sz : Size) (imm : Long) (ea : EA) :
    (Instr.eori sz imm ea).ilen = 2 + 2 * sz.immCount + 2 * ea.extCount sz :=
  addi_ilen sz imm ea

/-- Settles O40: the source's side effect changes address registers alone, so `Dn` is read as it stood. -/
theorem andToDataRegister : Obligations.AndToDataRegister := by
  intro sz ea n s v hv r
  have hd : (s.eaUpdate sz ea).readD n sz = s.readD n sz := readD_congr (eaUpdate_d ..) n sz
  change execAndEaDn sz ea n s = _
  rw [execAndEaDn, readEA_of_operand hv, andThen_next, hd, andEaDn_ilen]
  rfl

/-- Settles O41: each form is one read-modify-write of its destination. -/
theorem logicToDestination : Obligations.LogicToDestination := by
  refine ⟨fun sz n ea s d hm hd hs => ?_, fun sz n ea s d hd hs => ?_, fun sz imm ea s d hd hs => ⟨?_, ?_⟩⟩
  · rw [← andDnEa_ilen sz n]
    exact thenAdvance_eq_next.mpr ⟨_, modifyMem_of_operand _ (isMem_of_isMemAlterable hm) hd hs, rfl⟩
  · rw [← eor_ilen sz n]
    exact thenAdvance_eq_next.mpr ⟨_, modifyEA_of_operand _ hd hs, rfl⟩
  · rw [← andi_ilen sz imm]
    exact thenAdvance_eq_next.mpr ⟨_, modifyEA_of_operand _ hd hs, rfl⟩
  · rw [← eori_ilen sz imm]
    exact thenAdvance_eq_next.mpr ⟨_, modifyEA_of_operand _ hd hs, rfl⟩

/-! ## The status register (R164, R284) -/

theorem writeSr_of_supervisor {s : State} (h : s.sr.s = true) (w : BitVec 16) (bytes : Nat) :
    s.writeSr w bytes = .next ((s.setSr (Status.ofWord w)).advance bytes) :=
  if_pos h

theorem word_ofWord (w : BitVec 16) : (Status.ofWord w).word = w &&& 0xA71F := unusedStatusBits.1 w

/-- The unused bits of `SR` read as 0 (R29). -/
theorem word_and_implemented (r : Status) : r.word &&& 0xA71F = r.word := by
  rw [← word_ofWord, ofWord_word]

/-- Settles O42: both are a write of `SR`; a conjunction with `SR` has no unused bit for the write to drop. -/
theorem statusImmediate : Obligations.StatusImmediate := by
  intro imm s h
  refine ⟨⟨_, writeSr_of_supervisor h _ _, ?_⟩, _, writeSr_of_supervisor h _ _, word_ofWord _⟩
  rw [word_ofWord, BitVec.and_assoc, BitVec.and_comm imm, ← BitVec.and_assoc, word_and_implemented]

end Sys2Proof.Machine
end

section
/-! PROOFS. ASL and ASR (43_shift.md): a shift by `c` places is `c` single places, by induction on `c`; and the three
forms of each instruction. -/

namespace Sys2Proof.Machine

open Sys2Proof

theorem bits_pos (sz : Size) : 0 < sz.bits := by cases sz <;> decide

/-! ## ASL, one place at a time (R172) -/

theorem aslResult_eq {k : Nat} (v : BitVec k) (c : Nat) : aslResult v c = v <<< c := by
  apply BitVec.eq_of_toNat_eq
  rw [aslResult, BitVec.toNat_ofNat, BitVec.toNat_shiftLeft, Nat.shiftLeft_eq]

@[simp] theorem aslFlags_n {k : Nat} (v : BitVec k) (c : Nat) (x : Bool) :
    (aslFlags v c x).n = (aslResult v c).msb := by
  cases c <;> rfl

@[simp] theorem aslFlags_z {k : Nat} (v : BitVec k) (c : Nat) (x : Bool) :
    (aslFlags v c x).z = (aslResult v c == 0) := by
  cases c <;> rfl

/-- The last bit that a left shift moves out, counted from the top. -/
theorem aslFlags_c_succ {k : Nat} (v : BitVec k) (c : Nat) (x : Bool) : (aslFlags v (c + 1) x).c = v.getMsbD c := by
  rw [BitVec.getMsbD_eq_getLsbD, Nat.sub_sub, Nat.add_comm 1 c]
  by_cases h : c < k <;> simp [aslFlags, h]

theorem aslFlags_v_succ {k : Nat} (v : BitVec k) (c : Nat) (x : Bool) :
    (aslFlags v (c + 1) x).v = aslOverflow v (c + 1) := rfl

theorem aslOverflow_iff_of_lt {k : Nat} (v : BitVec k) {c : Nat} (h : c < k) :
    aslOverflow v c = true ↔
      v.toNat / 2 ^ (k - 1 - c) ≠ 0 ∧ v.toNat / 2 ^ (k - 1 - c) ≠ 2 ^ (c + 1) - 1 := by
  simp [aslOverflow, h]

theorem aslOverflow_iff_of_le {k : Nat} (v : BitVec k) {c : Nat} (h : k ≤ c) :
    aslOverflow v c = true ↔ v.toNat ≠ 0 := by
  simp [aslOverflow, Nat.not_lt.mpr h, BitVec.toNat_eq]

/-- The bit `i` places from the top is the lowest of the top `i + 1` bits. -/
theorem getMsbD_iff {k : Nat} (v : BitVec k) {i : Nat} (h : i < k) :
    v.getMsbD i = true ↔ v.toNat / 2 ^ (k - 1 - i) % 2 = 1 := by
  rw [BitVec.getMsbD_eq_getLsbD, decide_eq_true h, Bool.true_and, ← BitVec.testBit_toNat,
    Nat.testBit_eq_decide_div_mod_eq, decide_eq_true_iff]

/-- Before the first place the top bit has not changed: alone, it equals itself. -/
theorem aslOverflow_zero {k : Nat} (hk : 0 < k) (v : BitVec k) : aslOverflow v 0 = false := by
  have htop : v.toNat / 2 ^ (k - 1) < 2 := by
    rw [Nat.div_lt_iff_lt_mul (by positivity), ← Nat.pow_succ', Nat.succ_eq_add_one, Nat.sub_add_cancel hk]
    exact v.isLt
  unfold aslOverflow
  rw [if_pos hk]
  generalize v.toNat / 2 ^ (k - 1) = top at htop
  interval_cases top <;> rfl

/-- The top `c + 2` bits are not all equal if the top `c + 1` bits are not, or if the next bit differs from the last of
those; past the lowest bit come the zeros moved in. -/
theorem aslOverflow_succ {k : Nat} (v : BitVec k) (c : Nat) :
    aslOverflow v (c + 1) = (aslOverflow v c || v.getMsbD c != v.getMsbD (c + 1)) := by
  suffices aslOverflow v (c + 1) = true ↔
      aslOverflow v c = true ∨ ¬(v.getMsbD c = true ↔ v.getMsbD (c + 1) = true) by
    rwa [Bool.eq_iff_iff, Bool.or_eq_true, bne_iff_ne, ne_eq, Bool.eq_iff_iff (a := v.getMsbD c)]
  have htwo := Nat.two_pow_pos c
  have hsucc := Nat.pow_succ' (m := 2) (n := c)
  rcases lt_trichotomy (c + 1) k with h | rfl | h
  · -- the next bit is a bit of `v`
    have hdiv : v.toNat / 2 ^ (k - 1 - c) = v.toNat / 2 ^ (k - 1 - (c + 1)) / 2 := by
      rw [Nat.div_div_eq_div_mul, ← Nat.pow_succ, Nat.succ_eq_add_one]
      congr 2
      omega
    have hc : c < k := Nat.lt_of_succ_lt h
    have hsucc' := Nat.pow_succ' (m := 2) (n := c + 1)
    rw [aslOverflow_iff_of_lt v h, aslOverflow_iff_of_lt v hc, getMsbD_iff v h, getMsbD_iff v hc, hdiv]
    omega
  · -- the next bit is the first 0 moved in
    have hc : c < c + 1 := Nat.lt_succ_self c
    rw [aslOverflow_iff_of_le v le_rfl, aslOverflow_iff_of_lt v hc, getMsbD_iff v hc, BitVec.getMsbD_of_ge v _ le_rfl, Nat.add_sub_cancel, Nat.sub_self, Nat.pow_zero, Nat.div_one,
      Bool.false_eq_true, iff_false, not_not]
    omega
  · -- both bits are zeros moved in
    have hc : k ≤ c := Nat.le_of_lt_succ h
    rw [aslOverflow_iff_of_le v h.le, aslOverflow_iff_of_le v hc, BitVec.getMsbD_of_ge v _ hc,
      BitVec.getMsbD_of_ge v _ h.le]
    simp

theorem repeat_left_value {k : Nat} (v : BitVec k) (last changed : Bool) (c : Nat) :
    (Nat.repeat ShiftState.left c ⟨v, last, changed⟩).value = v <<< c := by
  induction c with
  | zero => exact (BitVec.shiftLeft_zero _).symm
  | succ c ih => rw [Nat.repeat, ShiftState.left, ih, BitVec.shiftLeft_add]

theorem repeat_left_last_succ {k : Nat} (v : BitVec k) (last changed : Bool) (c : Nat) :
    (Nat.repeat ShiftState.left (c + 1) ⟨v, last, changed⟩).last = v.getMsbD c := by
  rw [Nat.repeat, ShiftState.left, repeat_left_value, BitVec.msb_shiftLeft]

theorem repeat_left_changed {k : Nat} (hk : 0 < k) (v : BitVec k) (last : Bool) (c : Nat) :
    (Nat.repeat ShiftState.left c ⟨v, last, false⟩).changed = aslOverflow v c := by
  induction c with
  | zero => exact (aslOverflow_zero hk v).symm
  | succ c ih =>
    rw [aslOverflow_succ, Nat.repeat, ShiftState.left, ih, repeat_left_value, ← BitVec.shiftLeft_add,
      BitVec.msb_shiftLeft, BitVec.msb_shiftLeft]

/-- Settles O31, by the count: no place, or at least one. -/
theorem aslIsRepeatedPlaces : Obligations.AslIsRepeatedPlaces := by
  intro sz v c x p f
  have hvalue : aslResult v c = p.value := by rw [aslResult_eq, repeat_left_value]
  have hn : f.n = p.value.msb := by rw [aslFlags_n, hvalue]
  have hz : f.z = (p.value == 0) := by rw [aslFlags_z, hvalue]
  cases c with
  | zero => exact ⟨hvalue, rfl, rfl, rfl, hn, hz⟩
  | succ c =>
    have hlast : f.c = p.last := by rw [aslFlags_c_succ, repeat_left_last_succ]
    have hchanged : f.v = p.changed := by rw [aslFlags_v_succ, repeat_left_changed (bits_pos sz)]
    exact ⟨hvalue, hlast, hchanged, hlast, hn, hz⟩

/-! ## ASR, one place at a time (R176) -/

@[simp] theorem asrFlags_n {k : Nat} (fill : AsrFill) (v : BitVec k) (c : Nat) (x free : Bool) :
    (asrFlags fill v c x free).n = (asrResult fill v c).msb := by
  cases c <;> rfl

@[simp] theorem asrFlags_z {k : Nat} (fill : AsrFill) (v : BitVec k) (c : Nat) (x free : Bool) :
    (asrFlags fill v c x free).z = (asrResult fill v c == 0) := by
  cases c <;> rfl

theorem asrFlags_v_sign {k : Nat} (v : BitVec k) (c : Nat) (x free : Bool) : (asrFlags .sign v c x free).v = false := by
  cases c <;> rfl

theorem asrFlags_v_zero {k : Nat} (v : BitVec k) (c : Nat) (x free : Bool) :
    (asrFlags .zero v c x free).v = (if c = 0 then false else free) := by
  cases c <;> rfl

theorem asrFillBit_eq {k : Nat} (fill : AsrFill) (v : BitVec k) : asrFillBit fill v = (fill == .sign && v.msb) := by
  cases fill <;> rfl

theorem asrResult_zero {k : Nat} (fill : AsrFill) (v : BitVec k) : asrResult fill v 0 = v := by
  cases fill
  · exact BitVec.sshiftRight_zero
  · exact BitVec.ushiftRight_zero v

/-- One place to the right with the sign kept. -/
theorem sshiftRight_one {k : Nat} (v : BitVec k) :
    v.sshiftRight 1 = (v >>> 1) ||| (if v.msb then BitVec.intMin k else 0) := by
  apply BitVec.eq_of_getLsbD_eq
  intro i hi
  rw [BitVec.getLsbD_sshiftRight, BitVec.getLsbD_or, BitVec.getLsbD_ushiftRight]
  have hin : decide (k ≤ i) = false := decide_eq_false (Nat.not_le.mpr hi)
  have hfill : (if v.msb then BitVec.intMin k else 0).getLsbD i = (v.msb && decide (i + 1 = k)) := by
    cases v.msb
    · exact BitVec.getLsbD_zero
    · exact BitVec.getLsbD_intMin k
  rw [hin, hfill]
  by_cases h : 1 + i < k
  · -- a bit below the top: the next higher bit moves down
    have htop : i + 1 ≠ k := by omega
    rw [if_pos h, decide_eq_false htop, Bool.and_false, Bool.or_false, Bool.not_false, Bool.true_and]
  · -- the top bit: the sign is moved in
    have htop : i + 1 = k := by omega
    rw [if_neg h, decide_eq_true htop, BitVec.getLsbD_of_ge v _ (Nat.not_lt.mp h), Bool.false_or, Bool.and_true,
      Bool.not_false, Bool.true_and]

theorem asrResult_succ {k : Nat} (fill : AsrFill) (v : BitVec k) (c : Nat) :
    asrResult fill v (c + 1) = (asrResult fill v c >>> 1) ||| (if asrFillBit fill v then BitVec.intMin k else 0) := by
  cases fill with
  | sign =>
    change v.sshiftRight (c + 1) = (v.sshiftRight c >>> 1) ||| (if v.msb then BitVec.intMin k else 0)
    rw [BitVec.sshiftRight_add, sshiftRight_one, BitVec.msb_sshiftRight]
  | zero => exact (BitVec.shiftRight_add v c 1).trans BitVec.or_zero.symm

theorem asrResult_bit_zero {k : Nat} (hk : 0 < k) (fill : AsrFill) (v : BitVec k) (c : Nat) :
    (asrResult fill v c).getLsbD 0 = if c < k then v.getLsbD c else asrFillBit fill v := by
  cases fill with
  | sign =>
    rw [asrResult, BitVec.getLsbD_sshiftRight, decide_eq_false (Nat.not_le.mpr hk), Bool.not_false, Bool.true_and]
    rfl
  | zero =>
    rw [asrResult, BitVec.getLsbD_ushiftRight, Nat.add_zero]
    split
    · rfl
    · next h => exact BitVec.getLsbD_of_ge v c (Nat.not_lt.mp h)

/-- The last bit that a right shift moves out: the lowest bit of the result of one place less. -/
theorem asrFlags_c_succ {k : Nat} (hk : 0 < k) (fill : AsrFill) (v : BitVec k) (c : Nat) (x free : Bool) :
    (asrFlags fill v (c + 1) x free).c = (asrResult fill v c).getLsbD 0 := by
  rw [asrResult_bit_zero hk]
  rfl

theorem repeat_right_value {k : Nat} (fill : AsrFill) (v : BitVec k) (last changed : Bool) (c : Nat) :
    (Nat.repeat (ShiftState.right (asrFillBit fill v)) c ⟨v, last, changed⟩).value = asrResult fill v c := by
  induction c with
  | zero => exact (asrResult_zero fill v).symm
  | succ c ih => rw [asrResult_succ, ← ih]; rfl

theorem repeat_right_last_succ {k : Nat} (fill : AsrFill) (v : BitVec k) (last changed : Bool) (c : Nat) :
    (Nat.repeat (ShiftState.right (asrFillBit fill v)) (c + 1) ⟨v, last, changed⟩).last =
      (asrResult fill v c).getLsbD 0 := by
  rw [← repeat_right_value fill v last changed]; rfl

/-- With the sign moved in, every place keeps the top bit. -/
theorem repeat_right_sign_changed {k : Nat} (v : BitVec k) (last : Bool) (c : Nat) :
    (Nat.repeat (ShiftState.right (asrFillBit .sign v)) c ⟨v, last, false⟩).changed = false := by
  have hmsb (c : Nat) :
      (Nat.repeat (ShiftState.right (asrFillBit .sign v)) c ⟨v, last, false⟩).value.msb = v.msb := by
    rw [repeat_right_value, asrResult, BitVec.msb_sshiftRight]
  induction c with
  | zero => rfl
  | succ c ih =>
    exact Bool.or_eq_false_iff.mpr ⟨ih, bne_eq_false_iff_eq.mpr ((hmsb c).trans (hmsb (c + 1)).symm)⟩

/-- Settles O32, by the count: no place, or at least one. -/
theorem asrIsRepeatedPlaces : Obligations.AsrIsRepeatedPlaces := by
  intro fill sz v c x free
  rw [← asrFillBit_eq]
  intro p f
  have hvalue : asrResult fill v c = p.value := by rw [repeat_right_value]
  have hn : f.n = p.value.msb := by rw [asrFlags_n, hvalue]
  have hz : f.z = (p.value == 0) := by rw [asrFlags_z, hvalue]
  have hsign : fill = .sign → f.v = false ∧ p.changed = false := by
    rintro rfl
    exact ⟨asrFlags_v_sign .., repeat_right_sign_changed ..⟩
  have hzero : fill = .zero → f.v = (if c = 0 then false else free) := by
    rintro rfl
    exact asrFlags_v_zero ..
  cases c with
  | zero => exact ⟨hvalue, rfl, rfl, hn, hz, hsign, hzero⟩
  | succ c =>
    have hlast : f.c = p.last := by rw [asrFlags_c_succ (bits_pos sz), repeat_right_last_succ]
    exact ⟨hvalue, hlast, hlast, hn, hz, hsign, hzero⟩

/-! ## The forms of the two instructions (R171, R173 to R175, R177 to R179) -/

/-- The count of an immediate shift, where it is not refused (R171). -/
theorem shiftImmCount_eq_some {p : ShiftImm0} {count : Fin 8} (h : count = 0 → p ≠ .refuse) :
    shiftImmCount p count = some (if count = 0 then (if p = .zero then 0 else 8) else count.val) := by
  unfold shiftImmCount
  simp only [Fin.val_eq_zero_iff]
  split
  · next h0 =>
    cases p
    case refuse => exact absurd rfl (h h0)
    all_goals rfl
  · rfl

theorem shiftImmCount_refuse : shiftImmCount .refuse 0 = none := rfl

theorem aslMem_ilen (ea : EA) : (Instr.aslMem ea).ilen = 2 + 2 * ea.extCount .w := mul_one_add 2 _

theorem asrMem_ilen (ea : EA) : (Instr.asrMem ea).ilen = 2 + 2 * ea.extCount .w := mul_one_add 2 _

/-- Settles O43: the count of each form, and one read-modify-write of the memory word. -/
theorem aslForms : Obligations.AslForms := by
  refine ⟨fun sz d s h => ?_, fun sz count d s c hc h => ?_, fun sz n d s => rfl, fun ea s v hm hv hp => ?_⟩
  · change execAslImm sz 0 d s = _
    rw [execAslImm, h, shiftImmCount_refuse]
  · change execAslImm sz count d s = _
    rw [execAslImm, shiftImmCount_eq_some h, ← hc]
    rfl
  · rw [← aslMem_ilen]
    exact thenAdvance_eq_next.mpr ⟨_, modifyMem_of_operand _ (isMem_of_isMemAlterable hm) hv hp, rfl⟩

theorem asrDrawn_eq_drawn (s : State) (c : Nat) : ∃ k, s.asrDrawn c = s.drawn k := by
  unfold State.asrDrawn
  split
  · exact ⟨1, rfl⟩
  · exact ⟨0, rfl⟩

/-- `asr` of a data register draws `V` or leaves the free values as they are. -/
theorem asrD_eq_drawn (s : State) (sz : Size) (c : Nat) (d : RegNum) :
    ∃ free k, s.asrD sz c d =
      ((s.writeD d sz (asrResult s.params.asrFill (s.readD d sz) c)).setFlags
        (asrFlags s.params.asrFill (s.readD d sz) c s.sr.x free)).drawn k :=
  ⟨s.freeBit 0, asrDrawn_eq_drawn _ c⟩

/-- Settles O44: as ASL, with what is drawn for `V`. -/
theorem asrForms : Obligations.AsrForms := by
  refine ⟨fun sz d s h => ?_, fun sz count d s c hc h => ?_, fun sz n d s => ?_, fun ea s v hm hv hp => ?_⟩
  · change execAsrImm sz 0 d s = _
    rw [execAsrImm, h, shiftImmCount_refuse]
  · obtain ⟨free, k, he⟩ := asrD_eq_drawn s sz c d
    refine ⟨free, k, ?_⟩
    change execAsrImm sz count d s = _
    rw [execAsrImm, shiftImmCount_eq_some h, ← hc, ← he]
    rfl
  · obtain ⟨free, k, he⟩ := asrD_eq_drawn s sz (s.shiftRegCount n) d
    exact ⟨free, k, congrArg (fun t : State => Host.Outcome.next (t.advance 2)) he⟩
  · obtain ⟨k, he⟩ := asrDrawn_eq_drawn ((s.put .w ea (s.extAt 0) (asrResult s.params.asrFill v 1)).setFlags
      (asrFlags s.params.asrFill v 1 s.sr.x (s.freeBit 0))) 1
    refine ⟨s.freeBit 0, k, ?_⟩
    change execAsrMem ea s = _
    rw [execAsrMem, modifyMem_of_operand _ (isMem_of_isMemAlterable hm) hv hp, andThen_next, he, asrMem_ilen]

end Sys2Proof.Machine
end

section
/-! PROOFS. BCHG, BCLR, BSET, BTST (44_bit.md): what a written bit leaves of the others, and one number of the bit for
the two forms. -/

namespace Sys2Proof.Machine

open Sys2Proof

/-! ## The bit and its number (R191, R104) -/

theorem getLsbD_writeBit {k : Nat} (v : BitVec k) {b : Nat} (hb : b < k) (on : Bool) (j : Nat) :
    (writeBit v b on).getLsbD j = if j = b then on else v.getLsbD j := by
  have hone : (1#k <<< b).getLsbD j = decide (j = b) := by
    rw [← BitVec.twoPow_eq, BitVec.getLsbD_twoPow]
    by_cases hj : j = b
    · simp [hj, hb]
    · simp [hj, Ne.symm hj]
  by_cases hj : j = b
  · subst hj
    cases on <;> simp [writeBit, hone]
  · cases on
    case true => simp [writeBit, hone, hj]
    case false => simpa [writeBit, hone, hj] using BitVec.lt_of_getLsbD

/-- Bit `b` written from its old value: every other bit is as before. -/
theorem getLsbD_changeBit {k : Nat} (v : BitVec k) {b : Nat} (hb : b < k) (new : Bool → Bool) (j : Nat) :
    (writeBit v b (new (v.getLsbD b))).getLsbD j = if j = b then new (v.getLsbD j) else v.getLsbD j := by
  rw [getLsbD_writeBit v hb]
  split
  · next h => rw [h]
  · rfl

theorem toNat_staticBit (w : BitVec 16) : (staticBit w).toNat = w.toNat % 256 := by
  simp [staticBit]; omega

/-- The two forms of a bit instruction differ in where the number comes from and in the words before the operand's. -/
theorem exec_of_bitForms {op : Long → Long → Res State} {dyn : RegNum → EA → Instr} {stat : BitVec 16 → EA → Instr}
    {i : Instr} {raw own : Nat} {ea : EA} {s : State}
    (hdyn : ∀ n, exec (dyn n ea) s = thenAdvance (op (s.dreg n) (s.extAt 0)) (2 * (1 + ea.extCount .b)))
    (hstat : ∀ w, exec (stat w ea) s = thenAdvance (op (staticBit w) (s.extAt 1)) (2 * (2 + ea.extCount .b)))
    (hi : (∃ n, i = dyn n ea ∧ raw = (s.dreg n).toNat ∧ own = 0) ∨
      (∃ w : BitVec 16, i = stat w ea ∧ raw = w.toNat % 256 ∧ own = 1)) :
    ∃ num : Long, num.toNat = raw ∧
      exec i s = thenAdvance (op num (s.extAt own)) (2 + 2 * own + 2 * ea.extCount .b) := by
  obtain ⟨n, rfl, rfl, rfl⟩ | ⟨w, rfl, rfl, rfl⟩ := hi
  · exact ⟨s.dreg n, rfl, by rw [hdyn, Nat.mul_add]⟩
  · exact ⟨staticBit w, toNat_staticBit w, by rw [hstat, Nat.mul_add]⟩

/-! ## The bit of a byte (R191, R195) -/

theorem bitOp_of_operand {s : State} {new : Bool → Bool} {num : Long} {ea : EA} {ext : Long} {v : Byte}
    (hm : ea.kind.isMem = true) (hv : s.operand .b ea ext = some v) (hp : s.canPut .b ea ext = true) :
    s.bitOp new num ea ext =
      .next ((s.put .b ea ext (writeBit v (num.toNat % 8) (new (v.getLsbD (num.toNat % 8))))).setFlags
        (s.flags.withZ !v.getLsbD (num.toNat % 8))) := by
  rw [← modifyMem_of_operand (fun v : BitVec Size.b.bits =>
    (writeBit v (num.toNat % 8) (new (v.getLsbD (num.toNat % 8))), s.flags.withZ !v.getLsbD (num.toNat % 8))) hm hv hp]
  cases ea
  case dn => cases hm
  all_goals rfl

theorem bitTest_of_operand {s : State} {num : Long} {ea : EA} {ext : Long} {v : Byte} (hk : ea.kind ≠ .dn)
    (hv : s.operand .b ea ext = some v) :
    s.bitTest num ea ext =
      .next ((s.eaUpdate .b ea).setFlags (s.flags.withZ !v.getLsbD (num.toNat % 8))) := by
  have he : s.bitTest num ea ext = andThen (s.readEA .b ea ext) fun p =>
      .next (p.2.setFlags (s.flags.withZ !p.1.getLsbD (num.toNat % 8))) := by
    cases ea
    case dn => exact absurd rfl hk
    all_goals rfl
  rw [he, readEA_of_operand hv, andThen_next]

/-- Settles O45: the three are one operation on the bit, the new bit a function of the old one. -/
theorem bitChange : Obligations.BitChange := by
  intro p hp i raw own ea s hi
  obtain ⟨num, rfl, he⟩ : ∃ num : Long, num.toNat = raw ∧
      exec i s = thenAdvance (s.bitOp p.2.2 num ea (s.extAt own)) (2 + 2 * own + 2 * ea.extCount .b) := by
    simp only [List.mem_cons, List.not_mem_nil, or_false] at hp
    obtain rfl | rfl | rfl := hp
    all_goals exact exec_of_bitForms (op := fun num => s.bitOp _ num ea) (fun _ => rfl) (fun _ => rfl) hi
  refine ⟨fun d hd => ?_, fun v hm hv hs => ?_⟩
  · subst hd
    exact ⟨_, fun j _ => getLsbD_changeBit (s.dreg d) (Nat.mod_lt _ (by decide)) p.2.2 j, he⟩
  · refine ⟨_, fun j _ => getLsbD_changeBit v (Nat.mod_lt _ (by decide)) p.2.2 j, ?_⟩
    rw [he, bitOp_of_operand hm hv hs]
    rfl

/-- Settles O46: one read of the operand, and `Z`. -/
theorem bitTest : Obligations.BitTest := by
  intro i raw own ea s hi
  obtain ⟨num, rfl, he⟩ :=
    exec_of_bitForms (op := fun num => s.bitTest num ea) (fun _ => rfl) (fun _ => rfl) hi
  refine ⟨fun d hd => ?_, fun v _ hk hv => ?_⟩
  · subst hd
    exact he
  · rw [he, bitTest_of_operand hk hv]
    rfl

end Sys2Proof.Machine
end

section
/-! PROOFS. Bcc, BRA, BSR (45_branch.md): when a launch refuses the displacement, and one statement of a branch for the
fifteen that store nothing. -/

namespace Sys2Proof.Machine

open Sys2Proof

/-! ## The displacement that a launch refuses (R217) -/

theorem branchRefused_eq_true {s : State} {d : Disp} :
    s.branchRefused d = true ↔ s.params.branchFF = .refuse ∧ d = .byte 0xFF := by
  rw [State.branchRefused, Bool.and_eq_true, beq_iff_eq, beq_iff_eq]

theorem branchRefused_eq_false {s : State} {d : Disp} :
    s.branchRefused d = false ↔ s.params.branchFF = .baseline ∨ d ≠ .byte 0xFF := by
  have hff : ¬s.params.branchFF = .refuse ↔ s.params.branchFF = .baseline := by
    cases s.params.branchFF <;> decide
  rw [← Bool.not_eq_true, branchRefused_eq_true, not_and_or, hff]

/-! ## What a branch does (R210, R211) -/

/-- The address after an instruction is the address after its operation word plus its extension words. -/
theorem pc_add_ilen (pc : Long) (k : Nat) :
    pc + BitVec.ofNat 32 (2 * (1 + k)) = pc + 2 + BitVec.ofNat 32 (2 * k) := by
  rw [Nat.mul_add, BitVec.ofNat_add, ← BitVec.add_assoc]
  rfl

theorem branchIf_of_refused {s : State} {d : Disp} (h : s.branchRefused d = true) (taken : Bool) (bytes : Nat) :
    s.branchIf taken d bytes = .refused .branchFF := by
  rw [State.branchIf, if_pos h]

theorem branchIf_of_not_refused {s : State} {d : Disp} (h : s.branchRefused d = false) (taken : Bool) (k : Nat) :
    s.branchIf taken d (2 * (1 + k)) =
      .next (s.setPc (if taken then s.pc + 2 + dispValue d else s.pc + 2 + BitVec.ofNat 32 (2 * k))) := by
  rw [State.branchIf, if_neg (Bool.eq_false_iff.mp h), State.branchTarget, State.advance, pc_add_ilen]
  cases taken <;> rfl

/-- Settles O47: each is one branch on its condition, BRA on the one that always holds. -/
theorem conditionalBranches : Obligations.ConditionalBranches := by
  intro p hp d s
  have he : exec (p.1 d) s = s.branchIf (condHolds p.2 s.flags) d (2 * (1 + d.extCount)) := by
    fin_cases hp
    all_goals rfl
  rw [he]
  exact ⟨fun h => branchIf_of_not_refused (branchRefused_eq_false.mpr h) _ _,
    fun hff hd => branchIf_of_refused (branchRefused_eq_true.mpr ⟨hff, hd⟩) _ _⟩

/-! ## The push and the branch (R213) -/

theorem execBsr_of_refused {s : State} {d : Disp} (h : s.branchRefused d = true) :
    execBsr d s = .refused .branchFF := by
  rw [execBsr, if_pos h]

theorem execBsr_of_storable {s : State} {d : Disp} (h : s.branchRefused d = false)
    (hs : s.storable (s.readA 7 - 4) .l = true) :
    execBsr d s =
      .next (((s.writeA 7 (s.readA 7 - 4)).stored (s.readA 7 - 4) .l
        (s.pc + 2 + BitVec.ofNat 32 (2 * d.extCount))).setPc (s.pc + 2 + dispValue d)) := by
  have hs' : (s.writeA 7 (s.readA 7 - 4)).storable (s.readA 7 - 4) .l = true := by
    rw [storable_congr (writeA_params s 7 _), hs]
  have hpush : (s.writeA 7 (s.readA 7 - 4)).memWrite (s.readA 7 - 4) .l (s.pc + BitVec.ofNat 32 (Instr.bsr d).ilen) =
      .next ((s.writeA 7 (s.readA 7 - 4)).stored (s.readA 7 - 4) .l
        (s.pc + 2 + BitVec.ofNat 32 (2 * d.extCount))) :=
    memWrite_eq_next.mpr ⟨hs', by rw [← pc_add_ilen]; rfl⟩
  rw [execBsr, if_neg (Bool.eq_false_iff.mp h)]
  exact congrArg (andThen · fun t => .next (t.setPc (s.branchTarget d))) hpush

/-- Settles O48: the long word below `A7` is as storable after `A7` has been lowered as before. -/
theorem branchToSubroutine : Obligations.BranchToSubroutine := by
  intro d s
  exact ⟨fun h hs => execBsr_of_storable (branchRefused_eq_false.mpr h) hs,
    fun hff hd => execBsr_of_refused (branchRefused_eq_true.mpr ⟨hff, hd⟩)⟩

end Sys2Proof.Machine
end

section
/-! PROOFS. CLR (46_chk_clr.md): the write of a destination that is not read. -/

namespace Sys2Proof.Machine

open Sys2Proof

theorem clr_ilen (sz : Size) (ea : EA) : (Instr.clr sz ea).ilen = 2 + 2 * ea.extCount sz := mul_one_add 2 _

/-! ## A destination in memory that takes a result (R66) -/

section MemoryDestination

variable {s : State} {sz : Size} {ea : EA} {ext : Long}

theorem eaAddr_of_canPut (hm : ea.kind.isMem = true) (h : s.canPut sz ea ext = true) :
    s.eaAddr sz ea ext = .next (s.eaAddress sz ea ext, s.eaUpdate sz ea) := by
  rw [canPut_mem hm, Bool.and_eq_true, Bool.not_eq_true'] at h
  exact eaAddr_mem hm h.1

/-- The bytes are as storable after the mode's side effect as before it. -/
theorem memWrite_of_canPut (hm : ea.kind.isMem = true) (h : s.canPut sz ea ext = true) (v : BitVec sz.bits) :
    (s.eaUpdate sz ea).memWrite (s.eaAddress sz ea ext) sz v = .next (s.put sz ea ext v) := by
  rw [canPut_mem hm, Bool.and_eq_true] at h
  exact memWrite_eq_next.mpr ⟨(storable_eaUpdate ..).trans h.2, put_mem' hm⟩

end MemoryDestination

/-! ## CLR (R233) -/

theorem execClr_mem {s : State} {sz : Size} {ea : EA} (hm : ea.kind.isMem = true)
    (h : s.canPut sz ea (s.extAt 0) = true) :
    execClr sz ea s = .next (((s.put sz ea (s.extAt 0) 0).setFlags (clrFlags s.sr.x)).advance (Instr.clr sz ea).ilen) := by
  have he : execClr sz ea s = andThen (s.eaAddr sz ea (s.extAt 0)) fun p => andThen (p.2.memWrite p.1 sz 0) fun t =>
      .next ((t.setFlags (clrFlags s.sr.x)).advance (Instr.clr sz ea).ilen) := by
    cases ea
    case dn => cases hm
    all_goals rfl
  rw [he, eaAddr_of_canPut hm h, andThen_next, memWrite_of_canPut hm h, andThen_next]

/-- A destination that takes a result is a data register or in memory. -/
theorem dn_or_mem_of_canPut {s : State} {sz : Size} {ea : EA} {ext : Long} (h : s.canPut sz ea ext = true) :
    (∃ n, ea = .dn n) ∨ ea.kind.isMem = true := by
  cases ea
  case dn n => exact .inl ⟨n, rfl⟩
  case an | imm => cases h
  all_goals exact .inr rfl

/-- Settles O51: a data register takes 0 at the size; in memory, the address and one write, with no read between. -/
theorem clearOperand : Obligations.ClearOperand := by
  intro sz ea s h
  rw [← clr_ilen sz ea]
  obtain ⟨n, rfl⟩ | hm := dn_or_mem_of_canPut h
  · rfl
  · exact execClr_mem hm h

end Sys2Proof.Machine
end

section
/-! PROOFS. What a user-mode machine cannot reach (R331, R332), and the frames of every instruction: registers, memory,
status. -/

namespace Sys2Proof.Machine

open Sys2Proof

/-! ## Exceptions under the two trap models -/

/-- Settles O8: `raise` looks at the trap model first. -/
theorem raiseEndsTheRun : Obligations.RaiseEndsTheRun := by
  intro e spc pc0 s h
  unfold raise
  rw [h]

/-- No exception is taken where one ends the run (R301). -/
theorem raise_ne_next {e : Exc} {spc at_ : Long} {s t : State} (h : s.params.trapModel = .fault) :
    raise e spc at_ s ≠ .next t := by
  rw [raiseEndsTheRun e spc at_ s h]
  nofun

/-! ## How the instruction at `pc` answers -/

/-- The operation word was rejected or privileged and its exception taken, or an instruction has run and its trace check
followed. -/
theorem runOne_eq_next {s t : State} (h : s.runOne = .next t) :
    (∃ e, raise e s.pc s.pc s = .next t) ∨ ∃ i u, exec i s = .next u ∧ traceIf s.sr.t s.pc u = .next t := by
  have hreject {e : DecodeError} (h : reject e s = .next t) : ∃ e, raise e s.pc s.pc s = .next t := by
    cases e with
    | illegalInstruction | lineA | lineF => exact ⟨_, h⟩
    | notInSpec | truncated => cases h
  obtain ⟨w, -, h⟩ := andThen_eq_next.mp h
  split at h
  · exact .inl (hreject h)
  · split at h
    · exact .inl ⟨_, h⟩
    · obtain ⟨ws, -, h⟩ := andThen_eq_next.mp h
      unfold runWords at h
      split at h
      · exact .inl (hreject h)
      · obtain ⟨u, hu, h⟩ := andThen_eq_next.mp h
        exact .inr ⟨_, u, hu, h⟩

/-- Under `TRAP_MODEL = fault` an instruction that answers in user mode has completed within its footprint. -/
theorem Ended.user_frame {i : Instr} {s t : State} (h : Ended i s t) (hf : s.params.trapModel = .fault)
    (hu : s.sr.s = false) : Frame i.destD i.destA (storeTo i s) s t := by
  cases h with
  | completed _ _ h => exact h
  | wroteSr _ _ hs => rw [hu] at hs; cases hs
  | trapped _ _ _ u _ h hr => exact absurd hr (raise_ne_next (by rw [h.params, hf]))

/-- Settles O19: the instruction has completed in its frame, with no trace or interrupt entry after it. -/
theorem userModeIsKept : Obligations.UserModeIsKept := by
  intro s t hf hirq hl hu h
  by_cases hh : s.params.haltAddr = some s.pc
  · unfold step State.cycle at h
    rw [hl, if_neg Bool.false_ne_true, if_pos hh] at h
    cases h
    exact ⟨hu, rfl, rfl, rfl⟩
  · rw [step_eq_runOne hl hh] at h
    obtain ⟨v, hv, h⟩ := andThen_eq_next.mp h
    obtain ⟨e, he⟩ | ⟨i, w, hw, htrace⟩ := runOne_eq_next hv
    · exact absurd he (raise_ne_next hf)
    · have hframe := (exec_ended hw).user_frame hf hu
      have hparams : w.params = s.params := hframe.params
      have hvw : v = w := by
        unfold traceIf at htrace
        split at htrace
        · exact absurd htrace (raise_ne_next (by rw [hparams, hf]))
        · cases htrace; rfl
      subst hvw
      obtain ⟨-, -, -, -, -, -, hnone⟩ := takeIrq_params h
      rw [hnone (by rw [hparams, hirq])]
      exact ⟨hframe.super.trans hu, hframe.ssp hu, hframe.mask, hframe.trace⟩

/-! ## Registers and memory -/

theorem val_lt_seven {n : RegNum} (h : n ≠ 7) : n.val < 7 := by
  have : n.val ≠ 7 := fun e => h (Fin.ext e)
  omega

/-- An address register other than `A7` is read from the register file, whatever the mode (R22). -/
theorem readA_of_ne_seven (s : State) {n : RegNum} (h : n ≠ 7) : s.readA n = s.a[n.val]'(val_lt_seven h) :=
  dif_pos (val_lt_seven h)

/-- Settles O57: the frame of an instruction that completes; ANDI and EORI to SR write no register; an exception adds
what its entry changes. -/
theorem frameOfRegisters : Obligations.FrameOfRegisters := by
  intro i s t h
  cases exec_ended h with
  | completed htrap _ hf =>
    exact ⟨hf.d, hf.a, fun h7 => ⟨(hf.sp h7).1, fun _ => (hf.sp h7).2⟩, hf.usp, fun hs _ => hf.ssp hs⟩
  | wroteSr _ _ _ w ht =>
    subst ht
    refine ⟨fun _ _ => rfl, fun n h7 _ => ?_, fun _ => ⟨rfl, fun _ => rfl⟩, fun _ => rfl, fun _ _ => rfl⟩
    rw [readA_of_ne_seven _ h7, readA_of_ne_seven _ h7]
    rfl
  | trapped e spc at_ u htrap hf hr =>
    obtain ⟨-, he, -⟩ := raise_entered hr
    have hnone : trapOf i s ≠ none := by simp [htrap]
    refine ⟨fun n _ => (dreg_congr he.d n).trans (hf.d n List.not_mem_nil), fun n h7 hn => ?_,
      fun h7 => ⟨he.usp.trans (hf.sp h7).1, fun hc => absurd hc hnone⟩, fun hs => he.usp.trans (hf.usp hs),
      fun _ hc => absurd hc hnone⟩
    rw [← hf.a n h7 hn, readA_of_ne_seven _ h7, readA_of_ne_seven _ h7]
    simp only [he.a]

/-- Settles O58: the frame of an instruction that completes; ANDI and EORI to SR store nothing. -/
theorem frameOfMemory : Obligations.FrameOfMemory := by
  intro i s t h hnone
  have hmem : ∀ b : Long, (∀ a k, storeTo i s = some (a, k) → s.outside b a k) → t.readByte b = s.readByte b := by
    cases exec_ended h with
    | completed _ _ hf => exact hf.mem
    | wroteSr _ _ _ w ht => subst ht; exact fun _ _ => rfl
    | trapped e _ _ _ htrap => rw [hnone] at htrap; cases htrap
  refine ⟨fun hs b => hmem b (by simp [hs]), fun a k hs b hb => hmem b fun a' k' he => ?_⟩
  rw [hs] at he
  cases he
  exact hb

/-! ## Status: the flags each operation writes -/

section Flags

variable {s t : State} {sz : Size} {ea : EA} {ext : Long}

/-- Reading an operand writes no flag. -/
theorem readEA_sr {p : BitVec sz.bits × State} (h : s.readEA sz ea ext = .next p) : p.2.sr = s.sr := by
  rw [(readEA_eq_next.mp h).2, eaUpdate_sr]

/-- A read-modify-write leaves the flags its function gives. -/
theorem modifyEA_sr {f : BitVec sz.bits → BitVec sz.bits × Flags} (h : s.modifyEA sz ea ext f = .next t) :
    ∃ d, t.sr = s.sr.withFlags (f d).2 := by
  obtain ⟨d, -, -, rfl⟩ := modifyEA_eq_next.mp h
  exact ⟨d, by simp⟩

theorem modifyMem_sr {f : BitVec sz.bits → BitVec sz.bits × Flags} (h : s.modifyMem sz ea ext f = .next t) :
    ∃ d, t.sr = s.sr.withFlags (f d).2 := by
  obtain ⟨-, d, -, -, rfl⟩ := modifyMem_eq_next.mp h
  exact ⟨d, by simp⟩

theorem bitOp_sr {new : Bool → Bool} {raw : Long} (h : s.bitOp new raw ea ext = .next t) :
    t.sr = { s.sr with z := t.sr.z } := by
  unfold State.bitOp at h
  split at h
  · cases h; rfl
  · obtain ⟨d, hd⟩ := modifyMem_sr h
    rw [hd]; rfl

theorem bitTest_sr {raw : Long} (h : s.bitTest raw ea ext = .next t) : t.sr = { s.sr with z := t.sr.z } := by
  unfold State.bitTest at h
  split at h
  · cases h; rfl
  · obtain ⟨p, hp, ⟨⟩⟩ := andThen_eq_next.mp h
    rw [setFlags_sr, readEA_sr hp]; rfl

theorem branchIf_sr {taken : Bool} {d : Disp} {k : Nat} (h : s.branchIf taken d k = .next t) : t.sr = s.sr := by
  unfold State.branchIf at h
  split at h
  · cases h
  · split at h <;> cases h <;> rfl

theorem decBranch_sr {cond : Cond} {n : RegNum} {d16 : BitVec 16} {k : Nat} (h : s.decBranch cond n d16 k = .next t) :
    t.sr = s.sr := by
  unfold State.decBranch at h
  split at h
  · cases h; rfl
  · dsimp only at h
    split at h <;> cases h <;> rfl

theorem addToA_sr (hc : s.params.addaCcr = .unaffected) (n : RegNum) (src : Long) : (s.addToA n src).sr = s.sr := by
  unfold State.addToA State.addaFlags
  rw [writeA_params, hc, writeA_sr]

theorem execBsr_sr {d : Disp} (h : execBsr d s = .next t) : t.sr = s.sr := by
  unfold execBsr at h
  split at h
  · cases h
  · obtain ⟨u, hu, ⟨⟩⟩ := andThen_eq_next.mp h
    obtain ⟨-, rfl⟩ := memWrite_eq_next.mp hu
    simp

end Flags

/-- The branches, DBcc, EXG, and additions into an address register where `ADDA_CCR` leaves the flags. -/
theorem exec_keepsFlags {i : Instr} {s t : State} (h : exec i s = .next t) (hk : keepsFlags i s = true) :
    t.sr = s.sr := by
  cases i
  case bra | bhi | bls | bcc | bcs | bne | beq | bvc | bvs | bpl | bmi | bge | blt | bgt | ble => exact branchIf_sr h
  case bsr => exact execBsr_sr h
  case dbt | dbf | dbhi | dbls | dbcc | dbcs | dbne | dbeq | dbvc | dbvs | dbpl | dbmi | dbge | dblt | dbgt | dble =>
    dsimp only [exec] at h
    exact decBranch_sr h
  case exgDd => cases h; rfl
  case exgAa | exgDa => cases h; simp
  case addaW | addaL =>
    obtain ⟨p, hp, ⟨⟩⟩ := andThen_eq_next.mp h
    have hc : p.2.params.addaCcr = .unaffected := by
      rw [(readEA_eq_next.mp hp).2, eaUpdate_params]
      exact beq_iff_eq.mp hk
    rw [advance_sr, addToA_sr hc, readEA_sr hp]
  case addq sz data ea =>
    cases ea
    case an n =>
      cases h
      exact addToA_sr (beq_iff_eq.mp hk) n _
    all_goals cases hk
  all_goals cases hk

/-- The bit instructions write `Z` alone (R190). -/
theorem exec_onlyZ {i : Instr} {s t : State} (h : exec i s = .next t) (hk : onlyZ i = true) :
    t.sr = { s.sr with z := t.sr.z } := by
  cases i
  case btstDyn | btstStatic =>
    obtain ⟨u, hu, rfl⟩ := thenAdvance_eq_next.mp h
    rw [advance_sr]
    exact bitTest_sr hu
  case bchgDyn | bchgStatic | bclrDyn | bclrStatic | bsetDyn | bsetStatic =>
    obtain ⟨u, hu, rfl⟩ := thenAdvance_eq_next.mp h
    rw [advance_sr]
    exact bitOp_sr hu
  all_goals cases hk

/-- An exception that is taken leaves `X` as the raising rule left it (R310). -/
theorem raise_x {e : Exc} {spc at_ : Long} {s t : State} (h : raise e spc at_ s = .next t) : t.sr.x = s.sr.x := by
  obtain ⟨-, -, hsr⟩ := raise_entered h
  rw [hsr]

theorem execChk_x {ea : EA} {n : RegNum} {s t : State} (h : execChk ea n s = .next t) : t.sr.x = s.sr.x := by
  obtain ⟨p, hp, h⟩ := andThen_eq_next.mp h
  rw [← readEA_sr hp]
  dsimp only at h
  split at h
  · exact (raise_x h).trans rfl
  · split at h
    · exact (raise_x h).trans rfl
    · cases h; rfl

/-- The common end of DIVU and DIVS: a zero divisor, an overflow, a result (R265, R267). -/
theorem division_x {u t : State} {n : RegNum} {r q : BitVec 16} {k : Nat} {zero big : Prop} [Decidable zero]
    [Decidable big]
    (h : (if zero then u.zeroDivide k else if big then .next (u.divOverflow.advance k)
      else .next ((u.divResult n r q).advance k)) = .next t) : t.sr.x = u.sr.x := by
  split at h
  · exact (raise_x h).trans rfl
  · split at h <;> cases h <;> rfl

theorem execDivu_x {ea : EA} {n : RegNum} {s t : State} (h : execDivu ea n s = .next t) : t.sr.x = s.sr.x := by
  obtain ⟨p, hp, h⟩ := andThen_eq_next.mp h
  rw [← readEA_sr hp]
  exact division_x h

theorem execDivs_x {ea : EA} {n : RegNum} {s t : State} (h : execDivs ea n s = .next t) : t.sr.x = s.sr.x := by
  obtain ⟨p, hp, h⟩ := andThen_eq_next.mp h
  rw [← readEA_sr hp]
  exact division_x h

theorem execClr_x {sz : Size} {ea : EA} {s t : State} (h : execClr sz ea s = .next t) : t.sr.x = s.sr.x := by
  unfold execClr at h
  split at h
  · cases h; rfl
  · obtain ⟨p, -, h⟩ := andThen_eq_next.mp h
    obtain ⟨u, -, ⟨⟩⟩ := andThen_eq_next.mp h
    rfl

/-- Logic, compare, clear, check, divide and extend leave `X` (R35, R231, R233, R240, R265). -/
theorem exec_keepsX {i : Instr} {s t : State} (h : exec i s = .next t) (hk : keepsX i = true) : t.sr.x = s.sr.x := by
  cases i
  case andEaDn | cmp | cmpaW | cmpaL | cmpi =>
    obtain ⟨p, -, ⟨⟩⟩ := andThen_eq_next.mp h
    rfl
  case cmpm =>
    obtain ⟨src, -, h⟩ := andThen_eq_next.mp h
    obtain ⟨dst, -, ⟨⟩⟩ := andThen_eq_next.mp h
    rfl
  case andDnEa =>
    obtain ⟨u, hu, rfl⟩ := thenAdvance_eq_next.mp h
    obtain ⟨d, hd⟩ := modifyMem_sr hu
    rw [advance_sr, hd]; rfl
  case andi | eori | eor =>
    obtain ⟨u, hu, rfl⟩ := thenAdvance_eq_next.mp h
    obtain ⟨d, hd⟩ := modifyEA_sr hu
    rw [advance_sr, hd]; rfl
  case chk => exact execChk_x h
  case divu => exact execDivu_x h
  case divs => exact execDivs_x h
  case clr => exact execClr_x h
  case extW | extL => cases h; rfl
  all_goals cases hk

/-- An instruction that takes no exception and does not write all of `SR` completes within its footprint. -/
theorem Ended.frame {i : Instr} {s t : State} (h : Ended i s t) (hnone : trapOf i s = none)
    (hsr : writesSr i = false) : Frame i.destD i.destA (storeTo i s) s t := by
  cases h with
  | completed _ _ hf => exact hf
  | wroteSr _ hw => rw [hsr] at hw; cases hw
  | trapped _ _ _ _ htrap => rw [hnone] at htrap; cases htrap

/-- Settles O59: the instruction has completed in its frame; the flags are those of the operation it is made of. -/
theorem frameOfStatus : Obligations.FrameOfStatus := by
  intro i s t h hnone hsr
  have hf := (exec_ended h).frame hnone hsr
  exact ⟨hf.trace, hf.super, hf.mask, exec_keepsFlags h, exec_onlyZ h, exec_keepsX h⟩

end Sys2Proof.Machine
end

section
/-! PROOFS. The step, from the bytes at `pc`: the instruction runs (R354), is traced (R309), or is privileged (R308). -/

namespace Sys2Proof.Machine

open Sys2Proof

/-! ## The instruction whose bytes are at `pc` -/

open Laws.EncodeLength in
/-- The encoding has as many words as `Instr.words` says, by the format: an operand, an immediate and an operand, a
displacement, or no words that depend on the operands (R91). -/
theorem encode_length (i : Instr) : i.encode.length = i.words := by
  have h : Statement i := by
    cases i
    case addEaDn | addDnEa | addaW | addaL | addq | andEaDn | andDnEa | aslMem | asrMem | btstDyn | bchgDyn | bclrDyn
        | bsetDyn | chk | clr | cmp | cmpaW | cmpaL | divu | divs | eor => exact of_ea _ _ _ [] _ _ (by decide)
    case btstStatic | bchgStatic | bclrStatic | bsetStatic => exact of_ea _ _ _ [_] _ _ (by simp)
    case addi | andi | cmpi | eori => exact of_imm_ea ..
    case bra | bsr | bhi | bls | bcc | bcs | bne | beq | bvc | bvs | bpl | bmi | bge | blt | bgt | ble =>
      exact of_branch ..
    all_goals exact of_fixed rfl (by simp [Instr.words])
  exact h.1

/-- The words of an instruction are fetched where its bytes are, the operation word first. -/
theorem fetch_of_bytes {i : Instr} {s : State} (ha : aligned s.pc 2 = true)
    (hm : allBytes s.isMapped s.pc i.ilen = true) (hb : s.readBytes s.pc i.ilen = some (i.encode.flatMap wordBytes)) :
    ∃ ws, i.encode = i.opcode :: ws ∧ s.fetch16 s.pc = .next i.opcode ∧
      s.fetchWords (s.pc + 2) (i.words - 1) = .next ws := by
  have hlen := encode_length i
  obtain ⟨ws, henc⟩ := encode_eq_cons i
  have hws : i.words = ws.length + 1 := by rw [← hlen, henc, List.length_cons]
  have h := fetchWords_of_bytes i.encode ha (by rwa [hlen]) (by rwa [hlen])
  rw [henc, List.length_cons, State.fetchWords] at h
  obtain ⟨w, hw, h⟩ := andThen_eq_next.mp h
  obtain ⟨vs, hvs, h⟩ := andThen_eq_next.mp h
  cases h
  exact ⟨ws, henc, hw, by rw [hws, Nat.add_sub_cancel, hvs]⟩

/-- A step at the bytes of an instruction that the mode may run (R354, R309, R321). -/
theorem step_of_bytes {i : Instr} {s : State} (hwf : i.wf = true) (hl : s.resetLine = false)
    (hh : s.params.haltAddr ≠ some s.pc) (ha : aligned s.pc 2 = true) (hm : allBytes s.isMapped s.pc i.ilen = true)
    (hb : s.readBytes s.pc i.ilen = some (i.encode.flatMap wordBytes)) (hp : isPrivileged i = true → s.sr.s = true) :
    step s = andThen (andThen (exec i s) (traceIf s.sr.t s.pc)) State.takeIrq := by
  obtain ⟨ws, henc, hop, hws⟩ := fetch_of_bytes ha hm hb
  obtain ⟨shape, hshape, hwords, hpriv⟩ := SameShape.of_wf hwf
  have hnot : ¬(isPrivileged shape && !s.sr.s) = true := by
    rw [hpriv]
    simpa using hp
  have hdec : decodeWords (i.opcode :: ws) = .ok (i, []) := by
    rw [← henc, ← List.append_nil i.encode]
    exact encodeThenDecode i [] hwf
  rw [step_eq_runOne hl hh, State.runOne, hop, andThen_next, hshape]
  dsimp only
  rw [if_neg hnot, hwords, hws, andThen_next, runWords, hdec]

theorem step_at_haltAddr {s : State} (hl : s.resetLine = false) (hh : s.params.haltAddr = some s.pc) :
    step s = .next s := by
  unfold step State.cycle
  rw [hl, if_neg Bool.false_ne_true, if_pos hh]

/-- Settles O4: the fetched words decode to the instruction they encode. -/
theorem stepRunsDecodedInstruction : Obligations.StepRunsDecodedInstruction :=
  ⟨fun _ _ => step_of_bytes, fun _ => step_at_haltAddr⟩

/-- Settles O7: the trace exception is the first to end the run, before the interrupt check. -/
theorem traceEndsTheRun : Obligations.TraceEndsTheRun := by
  intro i s t hwf hl hh ha hm hb hp hfault htrace he
  have hparams : t.params = s.params := (exec_ended he).platform.1
  rw [step_of_bytes hwf hl hh ha hm hb hp, he, andThen_next, traceIf, htrace, if_pos rfl,
    raiseEndsTheRun _ _ _ _ (by rw [hparams, hfault]), andThen_fault]

/-! ## Privilege (R308, R331) -/

theorem writeSr_of_user {s : State} (h : s.sr.s = false) (w : BitVec 16) (bytes : Nat) :
    s.writeSr w bytes = raise .privilegeViolation s.pc s.pc s :=
  if_neg (by rw [h]; exact Bool.false_ne_true)

/-- A privileged operation word in user mode, whatever follows it. -/
theorem runOne_of_privileged {s : State} {w : Word16} {shape : Instr} (hu : s.sr.s = false)
    (hw : s.fetch16 s.pc = .next w) (hs : decodeShape w = .ok shape) (hp : isPrivileged shape = true) :
    s.runOne = raise .privilegeViolation s.pc s.pc s := by
  rw [State.runOne, hw, andThen_next, hs]
  exact if_pos (by rw [hp, hu]; rfl)

/-- Settles O6: `exec` checks the mode before it writes SR, and a step before it fetches the immediate word. -/
theorem privilegedInUserMode : Obligations.PrivilegedInUserMode := by
  refine ⟨rfl, fun s imm hu => ⟨writeSr_of_user hu _ _, writeSr_of_user hu _ _⟩, fun s w hu hl hh hw hword => ?_⟩
  have hs : decodeShape w = .ok (.andiToSr 0) ∨ decodeShape w = .ok (.eoriToSr 0) := by
    rcases hword with rfl | rfl
    · exact .inl rfl
    · exact .inr rfl
  rw [step_eq_runOne hl hh]
  rcases hs with hs | hs <;> rw [runOne_of_privileged hu (fetch16_of_load hw) hs rfl]

end Sys2Proof.Machine
end

section
/-! PROOFS. Entering a vector (R310, R312): the frame that is pushed, whatever stands before it; the double faults of an
entry (R316); interrupts (R321 to R323). -/

namespace Sys2Proof.Machine

open Sys2Proof

/-! ## The entry, once what stands before the frame has been pushed -/

theorem sub_sub_ofNat (a : Long) (j k : Nat) :
    a - BitVec.ofNat 32 j - BitVec.ofNat 32 k = a - BitVec.ofNat 32 (j + k) := by
  rw [BitVec.ofNat_add, BitVec.sub_sub]

/-- The two pushes of the 6-byte frame where it fits, whatever follows them (R310). -/
theorem andThen_pushes {α : Type} {u : State} (hfit : u.frameFits = true) (sr : Status) (spc : Long)
    (g : State → Res α) :
    (andThen ((u.setSr sr).pushSsp .l spc) fun s2 => andThen (s2.pushSsp .w u.sr.word) g) =
      g (((u.framed spc).setSsp (u.ssp - 6)).setSr sr) := by
  simp only [State.frameFits, Bool.and_eq_true] at hfit
  obtain ⟨hlong, hword⟩ := hfit
  have h1 := pushSsp_of_storable (s := u.setSr sr) (sz := .l) spc (u.ssp - 4) rfl (by simpa using hlong)
  have h2 := pushSsp_of_storable (s := ((u.setSr sr).stored (u.ssp - 4) .l spc).setSsp (u.ssp - 4)) (sz := .w)
    u.sr.word (u.ssp - 6) (sub_sub_ofNat u.ssp 4 2) (by simpa using hword)
  rw [h1, andThen_next, h2, andThen_next]
  simp [State.framed]

/-- From a state `u` in which nothing but what is pushed before the frame is new, the frame is pushed and the vector
read (R310). -/
theorem enterVector_of_pushed {s u : State} {v : Nat} {long : Bool} {sr : Status} {spc at_ h : Long}
    (hpush : (s.setSr sr).pushFormat v long at_ = .next (u.setSr sr)) (hsr : u.sr = s.sr)
    (hparams : u.params = s.params) (hfit : u.frameFits = true)
    (hload : (u.framed spc).load (s.params.vectorBase + BitVec.ofNat 32 (4 * v)) .l = some h) :
    s.enterVector v long sr spc at_ = .next ((((u.framed spc).setSsp (u.ssp - 6)).setSr sr).setPc h) := by
  rw [State.enterVector, asDoubleFault_eq_next, hpush, andThen_next, ← hsr, andThen_pushes hfit]
  refine andThen_eq_next.mpr ⟨h, memRead_eq_next.mpr ?_, rfl⟩
  simpa [hparams, State.framed] using hload

/-- Under `TRAP_MODEL = vectored` an exception enters its vector with `S` set and `T` cleared (R310). -/
theorem raise_vectored {s : State} (h : s.params.trapModel = .vectored) (e : Exc) (spc at_ : Long) :
    raise e spc at_ s = s.enterVector e.vector e.longFrame { s.sr with s := true, t := false } spc at_ := by
  unfold raise
  rw [h]

/-! ## What is pushed before the frame (R312) -/

theorem pushFormat_mc68000 {s : State} (h : s.params.frameFormat = .mc68000) (v : Nat) (long : Bool) (at_ : Long) :
    s.pushFormat v long at_ = .next s := by
  unfold State.pushFormat
  rw [h]

/-- The frame with the format 0: one word with the vector's offset. -/
theorem pushFormat_word {s : State} {long : Bool} (sr : Status) (hf : s.params.frameFormat ≠ .mc68000)
    (hlong : s.params.frameFormat = .mc68020 → long = false) (v : Nat) (at_ : Long)
    (hs : s.storable (s.ssp - 2) .w = true) :
    (s.setSr sr).pushFormat v long at_ =
      .next (((s.stored (s.ssp - 2) .w (BitVec.ofNat 16 (4 * v))).setSsp (s.ssp - 2)).setSr sr) := by
  have hpush := pushSsp_of_storable (s := s.setSr sr) (sz := .w) (BitVec.ofNat 16 (4 * v)) (s.ssp - 2) rfl
    (by simpa using hs)
  rw [stored_setSr] at hpush
  unfold State.pushFormat
  split
  · next h => exact absurd h hf
  · exact hpush
  · next h => rw [hlong h]; exact hpush

/-- The MC68020's long frame: the address of the instruction, then the word with the format 2. -/
theorem pushFormat_long {s : State} (sr : Status) (hf : s.params.frameFormat = .mc68020) (v : Nat) (at_ : Long)
    (hl : s.storable (s.ssp - 4) .l = true) (hw : s.storable (s.ssp - 6) .w = true) :
    (s.setSr sr).pushFormat v true at_ =
      .next ((((s.stored (s.ssp - 4) .l at_).stored (s.ssp - 6) .w (BitVec.ofNat 16 (0x2000 + 4 * v))).setSsp
        (s.ssp - 6)).setSr sr) := by
  have h1 := pushSsp_of_storable (s := s.setSr sr) (sz := .l) at_ (s.ssp - 4) rfl (by simpa using hl)
  have h2 := pushSsp_of_storable (s := ((s.setSr sr).stored (s.ssp - 4) .l at_).setSsp (s.ssp - 4)) (sz := .w)
    (BitVec.ofNat 16 (0x2000 + 4 * v)) (s.ssp - 6) (sub_sub_ofNat s.ssp 4 2) (by simpa using hw)
  unfold State.pushFormat
  rw [show (s.setSr sr).params.frameFormat = .mc68020 from hf]
  dsimp only
  rw [if_pos rfl, h1, andThen_next, h2]
  simp only [stored_setSr, stored_setSsp]
  rfl

/-! ## The frames -/

/-- The 6-byte frame alone. -/
theorem enterVector_mc68000 {s : State} {v : Nat} {long : Bool} {sr : Status} {spc at_ h : Long}
    (hf : s.params.frameFormat = .mc68000) (hfit : s.frameFits = true)
    (hload : (s.framed spc).load (s.params.vectorBase + BitVec.ofNat 32 (4 * v)) .l = some h) :
    s.enterVector v long sr spc at_ = .next ((((s.framed spc).setSsp (s.ssp - 6)).setSr sr).setPc h) :=
  enterVector_of_pushed (pushFormat_mc68000 (s := s.setSr sr) hf v long at_) rfl rfl hfit hload

/-- The 8-byte frame with the format 0. -/
theorem enterVector_word {s : State} {v : Nat} {long : Bool} {sr : Status} {spc at_ h : Long}
    (hf : s.params.frameFormat ≠ .mc68000) (hlong : s.params.frameFormat = .mc68020 → long = false)
    (hs : s.storable (s.ssp - 2) .w = true) :
    let u := (s.stored (s.ssp - 2) .w (BitVec.ofNat 16 (4 * v))).setSsp (s.ssp - 2)
    u.frameFits = true → (u.framed spc).load (s.params.vectorBase + BitVec.ofNat 32 (4 * v)) .l = some h →
    s.enterVector v long sr spc at_ = .next ((((u.framed spc).setSsp (s.ssp - 8)).setSr sr).setPc h) := by
  intro u hfit hload
  have hssp : u.ssp - 6 = s.ssp - 8 := sub_sub_ofNat s.ssp 2 6
  rw [← hssp]
  exact enterVector_of_pushed (pushFormat_word sr hf hlong v at_ hs) (by simp [u]) (by simp [u]) hfit hload

/-- Settles O10: the 8-byte frame. -/
theorem formatWordFrame : Obligations.FormatWordFrame := by
  intro e spc pc0 h s hv hf hs u hfit hload
  rw [raise_vectored hv]
  exact enterVector_word (by rw [hf]; nofun) (by rw [hf]; nofun) hs hfit hload

/-- Settles O11: the 12-byte frame of the three exceptions, and the 8-byte frame of the others. -/
theorem longFrame : Obligations.LongFrame := by
  refine ⟨?_, ?_⟩
  · intro e spc pc0 h s he hv hf hl hw u hfit hload
    have hlong : e.longFrame = true := by rcases he with rfl | rfl | rfl <;> rfl
    have hssp : u.ssp - 6 = s.ssp - 12 := sub_sub_ofNat s.ssp 6 6
    rw [raise_vectored hv, hlong, ← hssp]
    exact enterVector_of_pushed (pushFormat_long _ hf e.vector pc0 hl hw) (by simp [u]) (by simp [u]) hfit hload
  · intro e spc pc0 h s hchk hzero htrace hv hf hs u hfit hload
    have hshort : e.longFrame = false := by
      cases e
      case chk => exact absurd rfl hchk
      case zeroDivide => exact absurd rfl hzero
      case trace => exact absurd rfl htrace
      all_goals rfl
    rw [raise_vectored hv]
    exact enterVector_word (by rw [hf]; nofun) (fun _ => hshort) hs hfit hload

/-! ## The 6-byte frame read back -/

/-- A store leaves what is read from its end on. -/
theorem load_stored_above (s : State) (a : Long) (sz sz' : Size) (v : BitVec sz.bits) :
    (s.stored a sz v).load (a + BitVec.ofNat 32 sz.bytes) sz' = s.load (a + BitVec.ofNat 32 sz.bytes) sz' := by
  have hsz : sz.bytes ≤ 4 := by cases sz <;> decide
  have hsz' : sz'.bytes ≤ 4 := by cases sz' <;> decide
  have hb : (s.stored a sz v).readBytes (a + BitVec.ofNat 32 sz.bytes) sz'.bytes =
      s.readBytes (a + BitVec.ofNat 32 sz.bytes) sz'.bytes := by
    refine readBytes_congr _ _ fun j hj => readByte_stored_outside s a _ sz v fun i hi => ?_
    have he : a + BitVec.ofNat 32 sz.bytes + BitVec.ofNat 32 j =
        a + BitVec.ofNat 32 i + BitVec.ofNat 32 (sz.bytes - i + j) := by
      rw [BitVec.add_assoc, BitVec.add_assoc, ← BitVec.ofNat_add, ← BitVec.ofNat_add]
      congr 2
      omega
    rw [he]
    exact (phys_add_ne s _ (by omega) (by omega)).symm
  unfold State.load
  rw [hb, isMapped_congr (stored_params ..)]

/-- In the frame `SR` is below the saved `pc`. -/
theorem frame_above_word (sp : Long) : sp - 4 = sp - 6 + BitVec.ofNat 32 Size.w.bytes := by
  rw [show sp - 6 = sp - 4 - 2 from (sub_sub_ofNat sp 4 2).symm]
  exact (BitVec.sub_add_cancel ..).symm

/-- The two stores of the frame leave every byte outside the 6. -/
theorem readByte_framed_outside (s : State) (spc b : Long) (h : s.outside b (s.ssp - 6) 6) :
    (s.framed spc).readByte b = s.readByte b := by
  have hword : (s.stored (s.ssp - 4) .l spc).outside b (s.ssp - 6) 2 := by
    intro j hj
    rw [phys_eq_of_params (stored_params ..), phys_eq_of_params (stored_params ..)]
    exact h j (by omega)
  have hlong : s.outside b (s.ssp - 4) 4 := fun j hj => by
    rw [frame_above_word, BitVec.add_assoc, ← BitVec.ofNat_add]
    exact h (2 + j) (by omega)
  rw [State.framed, readByte_stored_outside _ _ _ _ _ hword, readByte_stored_outside _ _ _ _ _ hlong]

/-- The frame holds the old `SR`, and above it the saved `pc`. -/
theorem load_framed {s : State} (hi : s.Inv) (hfit : s.frameFits = true) (spc : Long) :
    (s.framed spc).load (s.ssp - 6) .w = some s.sr.word ∧ (s.framed spc).load (s.ssp - 4) .l = some spc := by
  simp only [State.frameFits, Bool.and_eq_true] at hfit
  obtain ⟨hlong, hword⟩ := hfit
  have hinv : (s.stored (s.ssp - 4) .l spc).Inv := stored_inv (sz := .l) spc hi hlong
  rw [← storable_stored s (s.ssp - 4) (s.ssp - 6) .l .w spc] at hword
  rw [State.framed]
  constructor
  · exact load_stored (sz := .w) s.sr.word hinv.1 hword
  · rw [frame_above_word, load_stored_above, ← frame_above_word]
    exact load_stored (sz := .l) spc hi.1 hlong

/-- Settles O9: the 6-byte frame alone, and its bytes read back. -/
theorem vectoredEntry : Obligations.VectoredEntry := by
  intro e spc pc0 h s hi hv hf hfit hload
  obtain ⟨hword, hlong⟩ := load_framed hi hfit spc
  refine ⟨_, (raise_vectored hv e spc pc0).trans (enterVector_mc68000 hf hfit hload), rfl, ?_, ?_, fun b hb => ?_⟩
  · simpa using hword
  · have he : s.ssp - 6 + 2 = s.ssp - 4 := (frame_above_word s.ssp).symm
    simpa only [setPc_ssp, setSr_ssp, setSsp_ssp, load_setPc, load_setSr, load_setSsp, he] using hlong
  · rw [← readByte_framed_outside s spc b hb]
    exact readByte_congr rfl rfl b

end Sys2Proof.Machine
end

section
/-! PROOFS. The double faults of an entry (R316), and interrupts (R321 to R323). -/

namespace Sys2Proof.Machine

open Sys2Proof

/-! ## What stops a push or the read of a vector -/

theorem asDoubleFault_ne {α : Type} (x : Res α) (a : Long) (k : AccessKind) :
    asDoubleFault x ≠ .fault (.addressError a k) ∧ asDoubleFault x ≠ .fault (.busError a k) := by
  unfold asDoubleFault
  constructor <;> split <;> simp_all

/-- What stops an access is an address or bus error, which inside an entry is the double fault (R316). -/
theorem asDoubleFault_of_accessFault {α : Type} {s : State} {a : Long} {n : Nat} {k : AccessKind} {f : Fault}
    (h : s.accessFault a n k = some f) : asDoubleFault (.fault f : Res α) = .fault .doubleFault := by
  unfold State.accessFault at h
  split at h
  · cases h; rfl
  · split at h <;> cases h
    rfl

theorem accessFault_of_unmapped (s : State) {a : Long} {n : Nat} (k : AccessKind)
    (hm : ∃ j < n, s.isMapped (a + BitVec.ofNat 32 j) = false) : ∃ f, s.accessFault a n k = some f := by
  refine Option.ne_none_iff_exists'.mp fun hnone => ?_
  obtain ⟨-, hall⟩ := accessFault_eq_none.mp hnone
  obtain ⟨j, hj, hm⟩ := hm
  rw [(allBytes_iff ..).mp hall j hj] at hm
  cases hm

theorem accessFault_congr {s t : State} (hp : t.params = s.params) (a : Long) (n : Nat) (k : AccessKind) :
    t.accessFault a n k = s.accessFault a n k := by
  unfold State.accessFault
  rw [isMapped_congr hp]

theorem pushSsp_of_accessFault {s : State} {sz : Size} (v : BitVec sz.bits) {f : Fault}
    (h : s.accessFault (s.ssp - BitVec.ofNat 32 sz.bytes) sz.bytes .write = some f) : s.pushSsp sz v = .fault f :=
  memWrite_of_accessFault ((accessFault_congr rfl _ _ _).trans h)

/-- A word or a long word below an odd stack pointer is at an odd address. -/
theorem accessFault_below_odd {s : State} {sz : Size} (hsz : sz ≠ .b) (h : s.ssp.toNat % 2 = 1) :
    s.accessFault (s.ssp - BitVec.ofNat 32 sz.bytes) sz.bytes .write =
      some (.addressError (s.ssp - BitVec.ofNat 32 sz.bytes) .write) := by
  refine accessFault_odd hsz ?_
  have := s.ssp.isLt
  cases sz
  case b => exact absurd rfl hsz
  all_goals
    simp only [Size.bytes, BitVec.toNat_sub, BitVec.toNat_ofNat]
    omega

/-- The first push of the entry, whatever the frame is, is below `SSP`. -/
theorem enterVector_odd {s : State} (h : s.ssp.toNat % 2 = 1) (v : Nat) (long : Bool) (sr : Status) (spc at_ : Long) :
    s.enterVector v long sr spc at_ = .fault .doubleFault := by
  have hpush {sz : Size} (hsz : sz ≠ .b) (w : BitVec sz.bits) :
      (s.setSr sr).pushSsp sz w = .fault (.addressError (s.ssp - BitVec.ofNat 32 sz.bytes) .write) :=
    pushSsp_of_accessFault w (accessFault_below_odd (s := s.setSr sr) hsz h)
  unfold State.enterVector State.pushFormat
  split
  · rw [andThen_next, hpush (by decide)]; rfl
  · rw [hpush (by decide)]; rfl
  · split <;> rw [hpush (by decide)] <;> rfl

/-! ## The 6-byte frame, push by push -/

section MC68000

variable {s : State} {v : Nat} {long : Bool} {sr : Status} {spc at_ : Long} {f : Fault}
  (hf : s.params.frameFormat = .mc68000)
include hf

theorem enterVector_eq_pushes :
    s.enterVector v long sr spc at_ =
      asDoubleFault (andThen ((s.setSr sr).pushSsp .l spc) fun s2 =>
        andThen (s2.pushSsp .w s.sr.word) fun s3 =>
        andThen (s3.memRead (s3.params.vectorBase + BitVec.ofNat 32 (4 * v)) .l .read) fun h =>
        .next (s3.setPc h)) := by
  rw [State.enterVector, pushFormat_mc68000 (s := s.setSr sr) hf, andThen_next]

theorem enterVector_first_push_fault (h : s.accessFault (s.ssp - 4) 4 .write = some f) :
    s.enterVector v long sr spc at_ = .fault .doubleFault := by
  rw [enterVector_eq_pushes hf, pushSsp_of_accessFault (s := s.setSr sr) (sz := .l) spc h, andThen_fault]
  exact asDoubleFault_of_accessFault h

theorem enterVector_second_push_fault (hs : s.storable (s.ssp - 4) .l = true)
    (h : s.accessFault (s.ssp - 6) 2 .write = some f) : s.enterVector v long sr spc at_ = .fault .doubleFault := by
  have h1 := pushSsp_of_storable (s := s.setSr sr) (sz := .l) spc (s.ssp - 4) rfl (by simpa using hs)
  have hsp : s.ssp - 4 - BitVec.ofNat 32 Size.w.bytes = s.ssp - 6 := sub_sub_ofNat s.ssp 4 2
  have h2 : (((s.setSr sr).stored (s.ssp - 4) .l spc).setSsp (s.ssp - 4)).pushSsp .w s.sr.word = .fault f := by
    refine pushSsp_of_accessFault _ ?_
    rw [accessFault_congr (s := s) (by simp), setSsp_ssp, hsp]
    exact h
  rw [enterVector_eq_pushes hf, h1, andThen_next, h2, andThen_fault]
  exact asDoubleFault_of_accessFault h

theorem enterVector_vector_fault (hfit : s.frameFits = true)
    (h : s.accessFault (s.params.vectorBase + BitVec.ofNat 32 (4 * v)) 4 .read = some f) :
    s.enterVector v long sr spc at_ = .fault .doubleFault := by
  have hparams : (((s.framed spc).setSsp (s.ssp - 6)).setSr sr).params = s.params := by simp [State.framed]
  rw [enterVector_eq_pushes hf, andThen_pushes hfit, hparams,
    memRead_of_accessFault (sz := .l) ((accessFault_congr hparams ..).trans h), andThen_fault]
  exact asDoubleFault_of_accessFault h

end MC68000

/-- Settles O12: no access error leaves an entry, and each access that stops makes it the double fault. -/
theorem entryDoubleFaults : Obligations.EntryDoubleFaults := by
  intro e spc pc0 s hv vector
  rw [raise_vectored hv]
  refine ⟨asDoubleFault_ne _, fun hodd => enterVector_odd hodd ..,
    fun hf => ⟨fun hm => ?_, fun hs hm => ?_, fun hfit h => ?_⟩⟩
  · obtain ⟨f, h⟩ := accessFault_of_unmapped s .write hm
    exact enterVector_first_push_fault hf h
  · obtain ⟨f, h⟩ := accessFault_of_unmapped s .write hm
    exact enterVector_second_push_fault hf hs h
  · obtain ⟨f, h⟩ : ∃ f, s.accessFault vector 4 .read = some f := by
      rcases h with hm | hodd
      · exact accessFault_of_unmapped s .read hm
      · exact ⟨_, accessFault_odd (sz := .l) (by decide) hodd⟩
    exact enterVector_vector_fault hf hfit h

/-! ## Interrupts -/

theorem irqTaken_iff {before level mask : BitVec 3} :
    irqTaken before level mask = true ↔ mask.toNat < level.toNat ∨ (level = 7 ∧ before ≠ 7) := by
  simp [irqTaken]

@[simp] theorem framed_setIrq (s : State) (r : IrqRequest) (rs : List IrqRequest) (spc : Long) :
    (s.setIrq r rs).framed spc = (s.framed spc).setIrq r rs := by
  simp [State.framed]

theorem frameFits_setIrq (s : State) (r : IrqRequest) (rs : List IrqRequest) :
    (s.setIrq r rs).frameFits = s.frameFits := by
  simp [State.frameFits]

/-- The interrupt check, for the next request of the feed or the one already presented (R321). -/
theorem takeIrq_eq {s : State} {r : IrqRequest} {rs : List IrqRequest} (hx : s.params.interrupts = .external)
    (hr : s.irqFeed = r :: rs ∨ (s.irqFeed = [] ∧ r = s.irq ∧ rs = [])) :
    s.takeIrq =
      if irqTaken s.irq.level r.level s.sr.i then
        (s.setIrq r rs).enterVector r.vectorNumber false { s.sr with s := true, t := false, i := r.level } s.pc s.pc
      else .next (s.setIrq r rs) := by
  unfold State.takeIrq
  rw [hx, sampleIrq_eq hr]
  rfl

/-- Settles O13: the entry of an exception, with the mask set to the level, or nothing but what is presented. -/
theorem interruptEntry : Obligations.InterruptEntry := by
  intro s r rs hx hr
  refine ⟨fun htaken => ⟨fun h hf hfit hload => ?_, ?_⟩, fun hmask hseven => ?_⟩
  · rw [takeIrq_eq hx hr, if_pos (irqTaken_iff.mpr htaken)]
    rw [enterVector_mc68000 (s := s.setIrq r rs) hf (by rwa [frameFits_setIrq]) (by simpa using hload)]
    simp
  · intro h hf hs u hfit hload
    have hu : ((s.setIrq r rs).stored (s.ssp - 2) .w (BitVec.ofNat 16 (4 * r.vectorNumber))).setSsp (s.ssp - 2) =
      u.setIrq r rs := by simp [u]
    have henter := enterVector_word (s := s.setIrq r rs) (v := r.vectorNumber) (long := false) (spc := s.pc)
      (at_ := s.pc) (h := h) (sr := { s.sr with s := true, t := false, i := r.level }) hf (fun _ => rfl)
      (by simpa using hs)
    simp only [setIrq_ssp, hu] at henter
    rw [takeIrq_eq hx hr, if_pos (irqTaken_iff.mpr htaken), henter (by rwa [frameFits_setIrq]) (by simpa using hload)]
    simp
  · rw [takeIrq_eq hx hr, if_neg]
    rw [irqTaken_iff]
    rintro (h | ⟨h7, hne⟩)
    · omega
    · exact hseven.elim (absurd h7) hne

end Sys2Proof.Machine
end

section
/-! PROOFS. Reset and launch (R350, R351): the two vectors read, and a launch field by field and byte by byte. -/

namespace Sys2Proof.Machine

open Sys2Proof

/-! ## The reset procedure (R351) -/

theorem step_of_resetLine {s : State} (h : s.resetLine = true) : step s = s.resetEntry := by
  unfold step State.cycle
  rw [h, if_pos rfl]

theorem resetEntry_of_loads {s : State} {sp pc : Long} (h0 : s.load 0 .l = some sp) (h4 : s.load 4 .l = some pc) :
    s.resetEntry = .next
      { s with
        sr := { s.sr with s := true, t := false, i := 7 }
        ssp := sp
        pc := pc
        resetLine := false
        params := { s.params with vectorBase := 0 } } := by
  rw [State.resetEntry, asDoubleFault_eq_next, memRead_eq_next.mpr h0, andThen_next, memRead_eq_next.mpr h4,
    andThen_next]

theorem resetEntry_first_fault {s : State} {f : Fault} (h : s.accessFault 0 4 .read = some f) :
    s.resetEntry = .fault .doubleFault := by
  rw [State.resetEntry, memRead_of_accessFault (sz := .l) h, andThen_fault]
  exact asDoubleFault_of_accessFault h

theorem resetEntry_second_fault {s : State} {sp : Long} {f : Fault} (h0 : s.load 0 .l = some sp)
    (h : s.accessFault 4 4 .read = some f) : s.resetEntry = .fault .doubleFault := by
  rw [State.resetEntry, memRead_eq_next.mpr h0, andThen_next, memRead_of_accessFault (sz := .l) h, andThen_fault]
  exact asDoubleFault_of_accessFault h

/-- Where `pc` is odd the step is the address error of its first fetch. -/
theorem step_odd_pc {s : State} (hl : s.resetLine = false) (hh : s.params.haltAddr ≠ some s.pc)
    (h : s.pc.toNat % 2 = 1) : step s = .fault (.addressError s.pc .fetch) := by
  rw [step_eq_runOne hl hh, runOne_fetch_fault (fetch16_odd h), andThen_fault]

/-- Settles O14: the two reads, and what stops each. -/
theorem resetProcedure : Obligations.ResetProcedure := by
  refine ⟨fun s sp pc hl h0 h4 => ?_, fun s hl hm => ?_, fun s sp hl h0 hm => ?_⟩
  · refine ⟨_, (step_of_resetLine hl).trans (resetEntry_of_loads h0 h4), rfl, rfl, rfl, rfl, rfl, rfl, rfl, rfl, rfl,
      rfl, rfl, fun hodd hh => ?_⟩
    exact step_odd_pc rfl hh hodd
  · rw [step_of_resetLine hl]
    obtain ⟨f, h⟩ := accessFault_of_unmapped s (a := 0) .read (by simpa using hm)
    exact resetEntry_first_fault h
  · rw [step_of_resetLine hl]
    obtain ⟨f, h⟩ := accessFault_of_unmapped s .read hm
    exact resetEntry_second_fault h0 h

/-! ## A launch (R350) -/

/-- A launch before its memory is in place: nothing is listed. -/
def Launch.bare (l : Launch) : State :=
  { State.reset with
    params := l.params
    pc := l.pc
    sr := Status.ofWord (l.sr.getD 0)
    d := l.dregs
    a := l.aregs
    usp := l.usp.getD 0
    ssp := l.ssp.getD 0 }

theorem launched_eq_bare (l : Launch) : State.launched l = l.mem.foldl State.launchByte l.bare := rfl

theorem bare_inv (l : Launch) : l.bare.Inv := ⟨⟨.nil, fun _ h => nomatch h⟩, fun _ h => nomatch h⟩

/-- The registers of a launch: those that are supplied hold what is supplied. -/
theorem launched_registers (l : Launch) :
    (∀ (n : Fin 8) v, l.d[n] = some v → (State.launched l).d[n] = v) ∧
      (∀ (n : Fin 7) v, l.a[n] = some v → (State.launched l).a[n] = v) ∧
      (∀ v, l.usp = some v → (State.launched l).usp = v) ∧ ∀ v, l.ssp = some v → (State.launched l).ssp = v := by
  obtain ⟨⟨m, hm⟩, -⟩ := launched_eq l
  rw [hm]
  refine ⟨fun n v h => ?_, fun n v h => ?_, fun v h => ?_, fun v h => ?_⟩
  · exact (dregs_get l n).trans (by rw [h]; rfl)
  · exact (aregs_get l n).trans (by rw [h]; rfl)
  · simp [h]
  · simp [h]

theorem launched_params (l : Launch) : (State.launched l).params = l.params := by
  obtain ⟨⟨m, hm⟩, -⟩ := launched_eq l
  rw [hm]

/-- A byte that is supplied, where memory is. -/
theorem launched_byte_supplied {l : Launch} {c : Long × Byte} (hc : c ∈ l.mem)
    (hm : (State.launched l).isMapped c.1 = true)
    (h : ∀ e ∈ l.mem, (State.launched l).phys e.1 = (State.launched l).phys c.1 → e.2 = c.2) :
    (State.launched l).readByte c.1 = some c.2 := by
  have hp : (State.launched l).params = l.bare.params := launched_params l
  simp only [phys_eq_of_params hp] at h
  rw [isMapped_congr hp] at hm
  rw [launched_eq_bare]
  exact launchBytes_self l.mem (bare_inv l) hm ⟨c, hc, rfl⟩ h

/-- A byte that is not supplied reads as `memFill` says. -/
theorem launched_byte_other {l : Launch} {b : Long}
    (h : ∀ c ∈ l.mem, (State.launched l).phys c.1 ≠ (State.launched l).phys b) :
    (State.launched l).readByte b = l.params.memFill := by
  have hp : (State.launched l).params = l.bare.params := launched_params l
  simp only [phys_eq_of_params hp] at h
  rw [launched_eq_bare]
  exact launchBytes_other l.mem l.bare h

theorem start_launchState {l : Launch} (h : l.params.resetModel = .launchState) :
    State.start l = .next (State.launched l) := by
  unfold State.start
  rw [h]

theorem start_vectorFetch {l : Launch} (h : l.params.resetModel = .vectorFetch) :
    State.start l = (State.launched l).resetEntry := by
  unfold State.start
  rw [h]

/-- Settles O15: the state after reset, the supplied state, and the reset procedure on it. -/
theorem resetState : Obligations.ResetState := by
  refine ⟨⟨rfl, rfl, rfl, by decide, by decide, start_empty⟩, fun l hl => ?_, fun l sp pc hl h0 h4 => ?_⟩
  · obtain ⟨⟨m, hm⟩, hinv⟩ := launched_eq l
    obtain ⟨hd, ha, husp, hssp⟩ := launched_registers l
    have hsr : (State.launched l).sr = Status.ofWord (l.sr.getD 0) := by rw [hm]
    refine ⟨_, start_launchState hl, launched_params l, by rw [hm], fun h => ?_, fun w h => ?_, hd, ha, husp, hssp,
      hinv, fun c => launched_byte_supplied, fun b => launched_byte_other⟩
    · rw [hsr, h]; decide
    · rw [hsr, h]; exact word_ofWord w
  · obtain ⟨hd, ha, husp, -⟩ := launched_registers l
    exact ⟨_, (start_vectorFetch hl).trans (resetEntry_of_loads h0 h4), rfl, rfl, rfl, rfl, rfl, rfl, hd, ha, husp, rfl⟩

end Sys2Proof.Machine
end

section
/-! PROOFS. CMP, CMPA, CMPI, CMPM (47_cmp.md): the flags of a difference say how the operands compare (R247), and each
form reads its operands and writes flags. -/

namespace Sys2Proof.Machine

open Sys2Proof

/-! ## The conditions after a compare (R34, R247) -/

section Compare

variable {k : Nat} (s d : BitVec k) (x : Bool)

/-- A difference modulo `2 ^ k`, without the modulus. -/
theorem toNat_sub_eq :
    (d - s).toNat = if s.toNat ≤ d.toNat then d.toNat - s.toNat else 2 ^ k + d.toNat - s.toNat := by
  have hd := d.isLt
  have hs := s.isLt
  rw [BitVec.toNat_sub]
  split
  · next h =>
      rw [show 2 ^ k - s.toNat + d.toNat = d.toNat - s.toNat + 2 ^ k by omega, Nat.add_mod_right,
        Nat.mod_eq_of_lt (by omega)]
  · next h => rw [Nat.mod_eq_of_lt (by omega)]; omega

/-- `V` of a difference says that the signed difference does not fit, and `N` is not `V` exactly where it is
negative. -/
theorem subFlags_signed (hk : 0 < k) :
    ((subFlags s d x).v = true ↔ d.toInt - s.toInt < -(2 ^ (k - 1)) ∨ 2 ^ (k - 1) ≤ d.toInt - s.toInt) ∧
      (¬((subFlags s d x).n = true ↔ (subFlags s d x).v = true) ↔ d.toInt < s.toInt) := by
  have hpow : 2 ^ k = 2 * 2 ^ (k - 1) := by rw [← Nat.pow_succ']; congr 1; omega
  have hcast : ((2 ^ (k - 1) : Nat) : Int) = 2 ^ (k - 1) := by simp
  have hd := d.isLt
  have hs := s.isLt
  simp only [subFlags, BitVec.msb_eq_decide, BitVec.toInt_eq_msb_cond, toNat_sub_eq, ← hcast, hpow]
  rw [hpow] at hd hs
  generalize 2 ^ (k - 1) = m at *
  simp only [Bool.and_eq_true, bne_iff_ne, ne_eq, decide_eq_decide, decide_eq_true_eq]
  -- whether the unsigned difference borrows, and the signs of the operands
  constructor <;> split <;> split <;> split <;> omega

theorem subFlags_z : (subFlags s d x).z = true ↔ d = s := beq_iff_eq.trans sub_eq_zero

theorem subFlags_c : (subFlags s d x).c = true ↔ d.toNat < s.toNat := decide_eq_true_iff

theorem subFlags_lt (hk : 0 < k) : condHolds .lt (subFlags s d x) = true ↔ d.toInt < s.toInt := by
  rw [← (subFlags_signed s d x hk).2, ← Bool.eq_iff_iff]
  exact bne_iff_ne

end Compare

/-! ## Each condition and its opposite (R108) -/

theorem condHolds_ne (f : Flags) : condHolds .ne f = !condHolds .eq f := rfl
theorem condHolds_cc (f : Flags) : condHolds .cc f = !condHolds .cs f := rfl
theorem condHolds_hi (f : Flags) : condHolds .hi f = !condHolds .ls f := (Bool.not_or ..).symm
theorem condHolds_vc (f : Flags) : condHolds .vc f = !condHolds .vs f := rfl
theorem condHolds_ge (f : Flags) : condHolds .ge f = !condHolds .lt f := (Bool.not_not _).symm
theorem condHolds_gt (f : Flags) : condHolds .gt f = !condHolds .le f := by
  simp only [condHolds, bne, Bool.not_or, Bool.not_not]

theorem condHolds_ls (f : Flags) : condHolds .ls f = (condHolds .cs f || condHolds .eq f) := rfl
theorem condHolds_le (f : Flags) : condHolds .le f = (condHolds .eq f || condHolds .lt f) := rfl

theorem eq_true_iff_not {a b : Bool} {p : Prop} (h : a = !b) (hb : b = true ↔ p) : a = true ↔ ¬p := by
  rw [h, Bool.not_eq_true', ← Bool.not_eq_true, hb]

/-- Settles O30: `Z`, `C`, `N` and `V` as comparisons; a condition and its opposite exclude each other. -/
theorem conditionsAfterCompare : Obligations.ConditionsAfterCompare := by
  intro sz s d x f
  have heq : condHolds .eq f = true ↔ d = s := subFlags_z s d x
  have hcs : condHolds .cs f = true ↔ d.toNat < s.toNat := subFlags_c s d x
  have hlt : condHolds .lt f = true ↔ d.toInt < s.toInt := subFlags_lt s d x (bits_pos sz)
  have hvs := (subFlags_signed s d x (bits_pos sz)).1
  have hls : condHolds .ls f = true ↔ d.toNat ≤ s.toNat := by
    rw [condHolds_ls, Bool.or_eq_true, hcs, heq, ← BitVec.toNat_inj]
    exact Nat.le_iff_lt_or_eq.symm
  have hle : condHolds .le f = true ↔ d.toInt ≤ s.toInt := by
    rw [condHolds_le, Bool.or_eq_true, heq, hlt, ← BitVec.toInt_inj]
    omega
  refine ⟨heq, eq_true_iff_not (condHolds_ne f) heq, (eq_true_iff_not (condHolds_hi f) hls).trans Nat.not_le, hls,
    (eq_true_iff_not (condHolds_cc f) hcs).trans Nat.not_lt, hcs,
    (eq_true_iff_not (condHolds_gt f) hle).trans Int.not_le,
    (eq_true_iff_not (condHolds_ge f) hlt).trans Int.not_lt, hlt, hle, Iff.rfl, .of_eq (Bool.not_eq_true' _), hvs,
    (eq_true_iff_not (condHolds_vc f) hvs).trans ?_⟩
  rw [not_or, Int.not_lt, Int.not_le]

/-! ## The five forms (R240 to R244) -/

theorem cmp_ilen (sz : Size) (ea : EA) (n : RegNum) : (Instr.cmp sz ea n).ilen = 2 + 2 * ea.extCount sz :=
  mul_one_add 2 _

theorem cmpaW_ilen (ea : EA) (n : RegNum) : (Instr.cmpaW ea n).ilen = 2 + 2 * ea.extCount .w := mul_one_add 2 _

theorem cmpaL_ilen (ea : EA) (n : RegNum) : (Instr.cmpaL ea n).ilen = 2 + 2 * ea.extCount .l := mul_one_add 2 _

theorem cmpi_ilen (sz : Size) (imm : Long) (ea : EA) :
    (Instr.cmpi sz imm ea).ilen = 2 + 2 * sz.immCount + 2 * ea.extCount sz := addi_ilen sz imm ea

/-- The side effect of an operand's mode leaves the data registers. -/
@[simp] theorem readD_eaUpdate (s : State) (sz sz' : Size) (ea : EA) (n : RegNum) :
    (s.eaUpdate sz ea).readD n sz' = s.readD n sz' := readD_congr (eaUpdate_d ..) n sz'

/-- Settles O52: one read of an operand, or two, and the flags. -/
theorem compareForms : Obligations.CompareForms := by
  refine ⟨fun sz ea n s v hv => ?_, fun ea n s v hv => ?_, fun ea n s v hv => ?_, fun sz imm ea s d hd => ?_,
    fun sz y x s v d hv hd => ?_⟩
  · change execCmp sz ea n s = _
    rw [execCmp, readEA_of_operand hv, andThen_next, cmp_ilen, readD_eaUpdate]
  · change execCmpaW ea n s = _
    rw [execCmpaW, readEA_of_operand hv, andThen_next, cmpaW_ilen]
  · change execCmpaL ea n s = _
    rw [execCmpaL, readEA_of_operand hv, andThen_next, cmpaL_ilen]
  · change execCmpi sz imm ea s = _
    rw [execCmpi, readEA_of_operand hd, andThen_next, cmpi_ilen]
  · change execCmpm sz y x s = _
    rw [execCmpm, readEA_of_operand hv, andThen_next, readEA_of_operand hd, andThen_next]
    rfl

end Sys2Proof.Machine
end

section
/-! PROOFS. DBcc (48_dbcc_div.md). -/

namespace Sys2Proof.Machine

open Sys2Proof

theorem decBranch_of_true {cond : Cond} {s : State} (h : condHolds cond s.flags = true) (n : RegNum) (d16 : BitVec 16)
    (bytes : Nat) : s.decBranch cond n d16 bytes = .next (s.advance bytes) :=
  if_pos h

/-- The decremented word is -1 where the word was 0 (R261). -/
theorem sub_one_eq_neg_one_iff (w : BitVec 16) : w - 1 = 0xFFFF ↔ w = 0 := by
  constructor <;> intro h <;> bv_omega

theorem decBranch_of_false {cond : Cond} {s : State} (h : condHolds cond s.flags = false) (n : RegNum)
    (d16 : BitVec 16) (bytes : Nat) :
    s.decBranch cond n d16 bytes =
      .next ((s.writeD n .w (s.readD n .w - 1)).setPc
        (if s.readD n .w = 0 then s.pc + BitVec.ofNat 32 bytes else s.pc + 2 + d16.signExtend 32)) := by
  rw [State.decBranch, if_neg (Bool.eq_false_iff.mp h)]
  dsimp only
  simp only [sub_one_eq_neg_one_iff]
  split <;> rfl

/-- Settles O49: each is one decrement and branch on its condition. -/
theorem decrementAndBranch : Obligations.DecrementAndBranch := by
  intro p hp n d16 s
  have he : exec (p.1 n d16) s = s.decBranch p.2 n d16 4 := by
    fin_cases hp
    all_goals rfl
  rw [he]
  exact ⟨fun h => decBranch_of_true h .., fun h => decBranch_of_false h ..⟩

end Sys2Proof.Machine
end

section
/-! PROOFS. CHK (46_chk_clr.md), DIVU and DIVS (48_dbcc_div.md): after the operand's read, the three cases of each. -/

namespace Sys2Proof.Machine

open Sys2Proof

/-! ## CHK (R231, R307) -/

theorem chk_ilen (ea : EA) (n : RegNum) : (Instr.chk ea n).ilen = 2 + 2 * ea.extCount .w := mul_one_add 2 _

/-- CHK once the bound has been read, by the two comparisons. -/
theorem execChk_of_operand {ea : EA} {n : RegNum} {s : State} {bound : BitVec 16}
    (hb : s.operand .w ea (s.extAt 0) = some bound) :
    ∃ (z v c neg : Bool), execChk ea n s =
      if (s.readD n .w).toInt < 0 then
        raise .chk (s.pc + BitVec.ofNat 32 (2 + 2 * ea.extCount .w)) s.pc
          (((s.eaUpdate .w ea).setFlags ⟨s.sr.x, true, z, v, c⟩).drawn 3)
      else if bound.toInt < (s.readD n .w).toInt then
        raise .chk (s.pc + BitVec.ofNat 32 (2 + 2 * ea.extCount .w)) s.pc
          (((s.eaUpdate .w ea).setFlags ⟨s.sr.x, false, z, v, c⟩).drawn 3)
      else .next ((((s.eaUpdate .w ea).setFlags ⟨s.sr.x, neg, z, v, c⟩).drawn 4).advance (2 + 2 * ea.extCount .w)) := by
  refine ⟨(s.eaUpdate .w ea).freeBit 0, (s.eaUpdate .w ea).freeBit 1, (s.eaUpdate .w ea).freeBit 2,
    (s.eaUpdate .w ea).freeBit 3, ?_⟩
  rw [execChk, readEA_of_operand hb, andThen_next]
  simp only [readD_eaUpdate, eaUpdate_sr, eaUpdate_pc, chk_ilen]

/-- Settles O50, by the two comparisons. -/
theorem checkBounds : Obligations.CheckBounds := by
  refine ⟨rfl, fun ea n s bound hb => ?_⟩
  obtain ⟨z, v, c, neg, he⟩ := execChk_of_operand (n := n) hb
  refine ⟨fun h0 hle => ⟨neg, z, v, c, 4, ?_⟩, fun hout => ⟨z, v, c, 3, ?_⟩⟩
  · exact he.trans ((if_neg (Int.not_lt.mpr h0)).trans (if_neg (Int.not_lt.mpr hle)))
  · refine he.trans ?_
    by_cases hneg : (s.readD n .w).toInt < 0
    · rw [if_pos hneg, decide_eq_true hneg]
    · rw [if_neg hneg, if_pos (hout.resolve_left hneg), decide_eq_false hneg]

/-! ## DIVU and DIVS after the divisor has been read (R265, R267, R306) -/

theorem divu_ilen (ea : EA) (n : RegNum) : (Instr.divu ea n).ilen = 2 + 2 * ea.extCount .w := mul_one_add 2 _

theorem divs_ilen (ea : EA) (n : RegNum) : (Instr.divs ea n).ilen = 2 + 2 * ea.extCount .w := mul_one_add 2 _

@[simp] theorem dreg_eaUpdate (s : State) (sz : Size) (ea : EA) (n : RegNum) :
    (s.eaUpdate sz ea).dreg n = s.dreg n := dreg_congr (eaUpdate_d ..) n

section Division

variable {ea : EA} {n : RegNum} {s : State} {v : BitVec 16}

theorem execDivu_of_operand (hv : s.operand .w ea (s.extAt 0) = some v) :
    execDivu ea n s =
      if v.toNat = 0 then (s.eaUpdate .w ea).zeroDivide (2 + 2 * ea.extCount .w)
      else if 0xFFFF < (s.dreg n).toNat / v.toNat then
        .next ((s.eaUpdate .w ea).divOverflow.advance (2 + 2 * ea.extCount .w))
      else .next (((s.eaUpdate .w ea).divResult n
        (BitVec.ofNat 16 ((s.dreg n).toNat - (s.dreg n).toNat / v.toNat * v.toNat))
        (BitVec.ofNat 16 ((s.dreg n).toNat / v.toNat))).advance (2 + 2 * ea.extCount .w)) := by
  rw [execDivu, readEA_of_operand hv, andThen_next, divu_ilen]
  simp only [dreg_eaUpdate]

theorem execDivs_of_operand (hv : s.operand .w ea (s.extAt 0) = some v) :
    execDivs ea n s =
      if v.toInt = 0 then (s.eaUpdate .w ea).zeroDivide (2 + 2 * ea.extCount .w)
      else if (s.dreg n).toInt.tdiv v.toInt < -32768 ∨ 32767 < (s.dreg n).toInt.tdiv v.toInt then
        .next ((s.eaUpdate .w ea).divOverflow.advance (2 + 2 * ea.extCount .w))
      else .next (((s.eaUpdate .w ea).divResult n
        (BitVec.ofInt 16 ((s.dreg n).toInt - (s.dreg n).toInt.tdiv v.toInt * v.toInt))
        (BitVec.ofInt 16 ((s.dreg n).toInt.tdiv v.toInt))).advance (2 + 2 * ea.extCount .w)) := by
  rw [execDivs, readEA_of_operand hv, andThen_next, divs_ilen]
  simp only [dreg_eaUpdate]

theorem divResult_eaUpdate (r q : BitVec 16) :
    (s.eaUpdate .w ea).divResult n r q =
      ((s.eaUpdate .w ea).setD n (r ++ q)).setFlags ⟨s.sr.x, q.msb, q == 0, false, false⟩ := by
  rw [State.divResult, eaUpdate_sr]

theorem divOverflow_eaUpdate : ∃ neg z, (s.eaUpdate .w ea).divOverflow =
    ((s.eaUpdate .w ea).setFlags ⟨s.sr.x, neg, z, true, false⟩).drawn 2 :=
  ⟨_, _, by rw [State.divOverflow, eaUpdate_sr]⟩

theorem zeroDivide_eaUpdate (k : Nat) : ∃ neg z o, (s.eaUpdate .w ea).zeroDivide k =
    raise .zeroDivide (s.pc + BitVec.ofNat 32 k) s.pc
      (((s.eaUpdate .w ea).setFlags ⟨s.sr.x, neg, z, o, false⟩).drawn 3) :=
  ⟨_, _, _, by rw [State.zeroDivide, eaUpdate_sr, eaUpdate_pc]⟩

/-! ## Quotient and remainder in 16 bits (R266) -/

/-- A quotient below 2^16 and the remainder, as words. -/
theorem divu_words {a : Nat} (hv : v ≠ 0) (hq : a / v.toNat ≤ 0xFFFF) :
    (BitVec.ofNat 16 (a / v.toNat)).toNat * v.toNat + (BitVec.ofNat 16 (a - a / v.toNat * v.toNat)).toNat = a ∧
      (BitVec.ofNat 16 (a - a / v.toNat * v.toNat)).toNat < v.toNat := by
  have hpos : 0 < v.toNat := Nat.pos_of_ne_zero fun h => hv (BitVec.eq_of_toNat_eq h)
  have hlt := v.isLt
  have hmod : a - a / v.toNat * v.toNat = a % v.toNat := by
    rw [Nat.mul_comm]; exact Nat.sub_eq_of_eq_add' (Nat.div_add_mod a v.toNat).symm
  have hr : a % v.toNat < v.toNat := Nat.mod_lt _ hpos
  rw [hmod, BitVec.toNat_ofNat, BitVec.toNat_ofNat, Nat.mod_eq_of_lt (by omega), Nat.mod_eq_of_lt (by omega)]
  exact ⟨Nat.div_add_mod' a v.toNat, hr⟩

theorem toInt_ofInt_word {i : Int} (hlo : -32768 ≤ i) (hhi : i ≤ 32767) : (BitVec.ofInt 16 i).toInt = i := by
  rw [BitVec.toInt_ofInt]
  exact Int.bmod_eq_of_le (by omega) (by omega)

/-- The remainder of a division rounded toward zero is smaller than the divisor and 0 or of the dividend's sign. -/
theorem tmod_relations (a : Int) {b : Int} (hb : b ≠ 0) :
    (a.tmod b).natAbs < b.natAbs ∧ (a.tmod b = 0 ∨ (a.tmod b < 0 ↔ a < 0)) := by
  refine ⟨?_, ?_⟩
  · rw [Int.natAbs_tmod]
    exact Nat.mod_lt _ (Int.natAbs_pos.mpr hb)
  · rcases Int.lt_or_le a 0 with ha | ha
    · have := Int.tmod_nonneg b (a := -a) (by omega)
      rw [Int.neg_tmod] at this
      omega
    · have := Int.tmod_nonneg b ha
      omega

/-- A quotient that fits a signed word and the remainder, as words. -/
theorem divs_words {a : Int} (hv : v.toInt ≠ 0) (hlo : -32768 ≤ a.tdiv v.toInt) (hhi : a.tdiv v.toInt ≤ 32767) :
    (BitVec.ofInt 16 (a.tdiv v.toInt)).toInt = a.tdiv v.toInt ∧
      (BitVec.ofInt 16 (a - a.tdiv v.toInt * v.toInt)).toInt = a.tmod v.toInt := by
  have hmod : a - a.tdiv v.toInt * v.toInt = a.tmod v.toInt := by
    rw [Int.tmod_def, Int.mul_comm]
  have hr := (tmod_relations a hv).1
  have hvlo := BitVec.le_toInt v
  have hvhi := BitVec.toInt_lt (x := v)
  rw [hmod]
  exact ⟨toInt_ofInt_word hlo hhi, toInt_ofInt_word (by omega) (by omega)⟩

end Division

/-- Settles O53: the model's quotient and remainder, by the relations that fix them, or an overflow. -/
theorem divideResults : Obligations.DivideResults := by
  intro ea n s v hv hne
  have hnat : v.toNat ≠ 0 := fun h => hne (BitVec.eq_of_toNat_eq h)
  have hint : v.toInt ≠ 0 := fun h => hne (BitVec.eq_of_toInt_eq h)
  have hu : exec (.divu ea n) s = _ := (execDivu_of_operand hv).trans (if_neg hnat)
  have hs : exec (.divs ea n) s = _ := (execDivs_of_operand hv).trans (if_neg hint)
  obtain ⟨neg, z, hover⟩ := divOverflow_eaUpdate (s := s) (ea := ea)
  refine ⟨fun hq => ?_, fun hlo hhi => ?_, fun hq => ?_, fun hq => ?_⟩
  · obtain ⟨hsum, hrem⟩ := divu_words hne hq
    refine ⟨_, _, hsum.symm, hrem, ?_⟩
    rw [hu, if_neg (Nat.not_lt.mpr hq), divResult_eaUpdate]
  · obtain ⟨hquot, hrem⟩ := divs_words hint hlo hhi
    obtain ⟨hsmall, hsign⟩ := tmod_relations (s.dreg n).toInt hint
    refine ⟨BitVec.ofInt 16 ((s.dreg n).toInt.tdiv v.toInt), _, ?_, by rwa [hrem], by rwa [hrem], ?_⟩
    · rw [hquot, hrem, Int.tdiv_mul_add_tmod]
    · rw [hs, if_neg (by omega), divResult_eaUpdate]
  · exact ⟨neg, z, 2, by rw [hu, if_pos hq, hover]⟩
  · exact ⟨neg, z, 2, by rw [hs, if_pos hq, hover]⟩

/-- Settles O54: the divisor has been read, and is 0. -/
theorem zeroDivisor : Obligations.ZeroDivisor := by
  refine ⟨rfl, fun i ea n s hi hv => ?_⟩
  obtain ⟨neg, z, o, he⟩ := zeroDivide_eaUpdate (s := s) (ea := ea) (2 + 2 * ea.extCount .w)
  refine ⟨neg, z, o, 3, ?_⟩
  rw [← he]
  rcases hi with rfl | rfl
  · exact (execDivu_of_operand hv).trans (if_pos rfl)
  · exact (execDivs_of_operand hv).trans (if_pos rfl)

end Sys2Proof.Machine
end

section
/-! PROOFS. EXG and EXT (49_eor_exg_ext.md). -/

namespace Sys2Proof.Machine

open Sys2Proof

/-! ## EXG (R286) -/

/-- Two data registers, which may be one, written with each other's value. -/
theorem dreg_exchange (s : State) (x y : RegNum) :
    ((s.setD x (s.dreg y)).setD y (s.dreg x)).dreg x = s.dreg y ∧
      ((s.setD x (s.dreg y)).setD y (s.dreg x)).dreg y = s.dreg x := by
  refine ⟨?_, dreg_setD_self ..⟩
  by_cases h : y = x
  · subst h; exact dreg_setD_self ..
  · rw [dreg_setD_other _ _ h, dreg_setD_self]

/-- Two address registers, which may be one. -/
theorem readA_exchange (s : State) (x y : RegNum) :
    ((s.writeA x (s.readA y)).writeA y (s.readA x)).readA x = s.readA y ∧
      ((s.writeA x (s.readA y)).writeA y (s.readA x)).readA y = s.readA x := by
  refine ⟨?_, readA_writeA_self ..⟩
  by_cases h : y = x
  · subst h; exact readA_writeA_self ..
  · rw [readA_writeA_other _ _ h, readA_writeA_self]

theorem exec_exgDd (x y : RegNum) (s : State) :
    ∃ t, exec (.exgDd x y) s = .next t ∧ t.dreg x = s.dreg y ∧ t.dreg y = s.dreg x ∧
      (∀ m, m ≠ x → m ≠ y → t.dreg m = s.dreg m) ∧ t = { s with d := t.d, pc := s.pc + 2 } := by
  obtain ⟨hx, hy⟩ := dreg_exchange s x y
  refine ⟨_, rfl, hx, hy, fun m hmx hmy => ?_, rfl⟩
  exact (dreg_setD_other _ _ hmy.symm).trans (dreg_setD_other _ _ hmx.symm)

theorem exec_exgAa (x y : RegNum) (s : State) :
    ∃ t, exec (.exgAa x y) s = .next t ∧ t.readA x = s.readA y ∧ t.readA y = s.readA x ∧
      (∀ m, m ≠ x → m ≠ y → t.readA m = s.readA m) ∧ s.sameInactive t ∧
      t = { s with a := t.a, usp := t.usp, ssp := t.ssp, pc := s.pc + 2 } := by
  obtain ⟨hx, hy⟩ := readA_exchange s x y
  refine ⟨_, rfl, hx, hy, fun m hmx hmy => ?_, ?_, ?_⟩
  · exact (readA_writeA_other _ _ hmy.symm).trans (readA_writeA_other _ _ hmx.symm)
  · exact (writeA_inactive s x _).trans (writeA_inactive _ y _) (by rw [writeA_sr])
  · apply State.eq_of_fields <;> simp [Instr.ilen, Instr.words]

theorem exec_exgDa (x y : RegNum) (s : State) :
    ∃ t, exec (.exgDa x y) s = .next t ∧ t.dreg x = s.readA y ∧ t.readA y = s.dreg x ∧
      (∀ m, m ≠ x → t.dreg m = s.dreg m) ∧ (∀ m, m ≠ y → t.readA m = s.readA m) ∧ s.sameInactive t ∧
      t = { s with d := t.d, a := t.a, usp := t.usp, ssp := t.ssp, pc := s.pc + 2 } := by
  have hd (m : RegNum) : ((s.setD x (s.readA y)).writeA y (s.dreg x)).dreg m = (s.setD x (s.readA y)).dreg m :=
    dreg_congr (writeA_d ..) m
  refine ⟨_, rfl, (hd x).trans (dreg_setD_self ..), readA_writeA_self (s.setD x (s.readA y)) y _, fun m hm => ?_,
    fun m hm => ?_, ?_, ?_⟩
  · exact (hd m).trans (dreg_setD_other _ _ hm.symm)
  · exact readA_writeA_other (s.setD x (s.readA y)) _ hm.symm
  · exact writeA_inactive (s.setD x (s.readA y)) y _
  · apply State.eq_of_fields <;> simp [Instr.ilen, Instr.words]

/-- Settles O55: two writes each, and `pc`. -/
theorem exchangeRegisters : Obligations.ExchangeRegisters := fun x y s =>
  ⟨exec_exgDd x y s, exec_exgAa x y s, exec_exgDa x y s⟩

/-! ## EXT (R288) -/

/-- The flags of R35 of a sign-extended value are those of the value. -/
theorem logicFlags_signExtend {k m : Nat} (h : k ≤ m) (v : BitVec k) (x : Bool) :
    logicFlags (v.signExtend m) x = ⟨x, v.msb, v == 0, false, false⟩ := by
  have hint : (v.signExtend m).toInt = v.toInt := BitVec.toInt_signExtend_of_le h
  have hmsb : (v.signExtend m).msb = v.msb := by rw [BitVec.msb_eq_toInt, hint, ← BitVec.msb_eq_toInt]
  have hzero : (v.signExtend m == 0) = (v == 0) := by
    rw [Bool.eq_iff_iff, beq_iff_eq, beq_iff_eq, ← BitVec.toInt_inj, ← BitVec.toInt_inj, hint]
    simp
  rw [logicFlags, hmsb, hzero]

/-- Settles O56: one write of the register with the extended value. -/
theorem signExtension : Obligations.SignExtension := by
  refine fun n s => ⟨⟨_, rfl, ?_, ?_, ?_, ?_, rfl⟩, ⟨_, rfl, ?_, ?_, ?_, rfl⟩⟩
  · have hr := readD_writeD_self s n .w ((s.readD n .b).signExtend 16)
    exact (congrArg BitVec.toInt hr).trans (BitVec.toInt_signExtend_of_le (by decide))
  · exact writeD_upper s n .w _
  · exact fun m hm => dreg_writeD_other s .w _ hm.symm
  · exact logicFlags_signExtend (m := 16) (by decide) (s.readD n .b) s.sr.x
  · have hr := dreg_setD_self s n ((s.readD n .w).signExtend 32)
    exact (congrArg BitVec.toInt hr).trans (BitVec.toInt_signExtend_of_le (by decide))
  · exact fun m hm => dreg_setD_other s _ hm.symm
  · exact logicFlags_signExtend (m := 32) (by decide) (s.readD n .w) s.sr.x

end Sys2Proof.Machine
end
